-- ==== Sys2Proof/Word.lean ====
section
/-! DEFINITION. The word types of the Utils cipher core (00_scope.md R6, R10).

Every quantity is unsigned (R10); bit 0 is the least significant bit. -/

namespace Sys2Proof

/-- A byte, 0..255 (R10). -/
abbrev Byte := BitVec 8

/-- A port word: every host access is `WORD` = 32 bits wide (R6, R10). -/
abbrev Word := BitVec 32

/-- A local port address: `ADDR_BITS` = 24 (R6, R60). -/
abbrev Addr := BitVec 24

/-- A byte sequence of fixed length `n` (R11): element 0 is the first byte. -/
abbrev Bytes (n : Nat) := Vector Byte n

/-- `rep(0, n)` (R11), the value every array has after reset or a wipe. -/
def zeroBytes (n : Nat) : Bytes n := Vector.replicate n 0

end Sys2Proof
end

