-- ==== Sys2Proof/Syntax.lean ====
section
/-! DEFINITION. The instructions: the three commands of 30_encoding.md R92 (spec/opcode_table.json). -/

namespace Sys2Proof

/-- A command. It carries no operand: all operands are implicit (R94). -/
inductive Instr where
  /-- `ENC.AES.CBC.PKCS7`, R200. -/
  | encAesCbcPkcs7
  /-- `ENC.DES.ECB.NONE`, R230. -/
  | encDesEcbNone
  /-- `CLEAR`, R113. -/
  | clear
  deriving DecidableEq, Repr

end Sys2Proof
end

