-- ==== Sys2Proof/WellFormed.lean ====
section
/-! DEFINITION. The format `C` of a command word (30_encoding.md R91) and which field values name a command (R92, R95).

An `Instr` has no operand (R94), so nothing about one can be ill formed; what can be is a setting of the five fields. Each
check below is one class of R95 negated. -/

namespace Sys2Proof

/-- The five fields of format `C` (R91). -/
structure CmdFields where
  op     : BitVec 4
  cipher : BitVec 2
  mode   : BitVec 2
  pad    : BitVec 2
  zero   : BitVec 22
  deriving DecidableEq, Repr

namespace CmdFields

/-- `OP` is `ENC` or `CLEAR` (class (a) of R95 otherwise). -/
def opDefined (f : CmdFields) : Bool := f.op == 1 || f.op == 2

/-- `CIPHER`, `MODE` and `PAD` of an `ENC` hold no reserved value (class (b) otherwise). -/
def fieldsDefined (f : CmdFields) : Bool :=
  f.op != 1 || (decide (f.cipher.toNat < 2) && (decide (f.mode.toNat < 2) && decide (f.pad.toNat < 2)))

/-- An `ENC` names AES/CBC/PKCS7 or DES/ECB/NONE, or holds a reserved value (class (c) otherwise). -/
def combinationOffered (f : CmdFields) : Bool :=
  f.op != 1 || !f.fieldsDefined ||
    ((f.cipher == 0 && (f.mode == 1 && f.pad == 1)) || (f.cipher == 1 && (f.mode == 0 && f.pad == 0)))

/-- A `CLEAR` has zero in `CIPHER`, `MODE` and `PAD` (class (d) otherwise). -/
def clearBare (f : CmdFields) : Bool := f.op != 2 || (f.cipher == 0 && (f.mode == 0 && f.pad == 0))

/-- `ZERO` is 0 (class (e) otherwise). -/
def zeroHeld (f : CmdFields) : Bool := f.zero == 0

/-- The fields name one of the three commands of R92. -/
def wf (f : CmdFields) : Bool :=
  f.opDefined && (f.fieldsDefined && (f.combinationOffered && (f.clearBare && f.zeroHeld)))

end CmdFields

/-- Every instruction is well formed: a command has no operand (R94). -/
def Instr.wf : Instr → Bool
  | .encAesCbcPkcs7 => true
  | .encDesEcbNone => true
  | .clear => true

end Sys2Proof
end

