-- ==== Sys2Proof/Decode.lean ====
section
/-! DEFINITION. The decoder and the encoder of command words (30_encoding.md R90 to R97).

The decoder reads the fields of R91, so that each illegal word is rejected under the class of R95 it falls in. That it is the
full 32-bit match of R92 and R93 is a statement about it, not its text. -/

namespace Sys2Proof

/-- Why a word is illegal: the classes (a) to (e) of R95 in that order, and bytes too few to be a word (R90). The hardware
treats (a) to (e) alike (R95), so the name is the model's (log entry 3). -/
inductive Illegal where
  | noSuchOperation
  | reservedField
  | combinationNotOffered
  | clearWithFields
  | zeroFieldSet
  | truncated
  deriving DecidableEq, Repr

/-- The fields of a command word (R91). -/
def fieldsOf (w : Word) : CmdFields where
  op     := w.extractLsb' 0 4
  cipher := w.extractLsb' 4 2
  mode   := w.extractLsb' 6 2
  pad    := w.extractLsb' 8 2
  zero   := w.extractLsb' 10 22

/-- The command word with the given fields (R91). -/
def packFields (f : CmdFields) : Word := f.zero ++ f.pad ++ f.mode ++ f.cipher ++ f.op

/-- `i`, unless a bit of `ZERO` is set (R91; class (e) of R95). -/
def ifZeroHeld (f : CmdFields) (i : Instr) : Except Illegal Instr :=
  if f.zero = 0 then .ok i else .error .zeroFieldSet

/-- The configuration of an `ENC` (R91): two of the eight combinations of defined values are offered (R92, R95). -/
def decodeEnc (f : CmdFields) : Except Illegal Instr :=
  if 2 ≤ f.cipher.toNat ∨ 2 ≤ f.mode.toNat ∨ 2 ≤ f.pad.toNat then .error .reservedField
  else if f.cipher = 0 ∧ f.mode = 1 ∧ f.pad = 1 then ifZeroHeld f .encAesCbcPkcs7
  else if f.cipher = 1 ∧ f.mode = 0 ∧ f.pad = 0 then ifZeroHeld f .encDesEcbNone
  else .error .combinationNotOffered

/-- The command a setting of the fields names, or the first class of R95 it falls in. -/
def decodeFields (f : CmdFields) : Except Illegal Instr :=
  if f.op = 1 then decodeEnc f
  else if f.op = 2 then
    if f.cipher = 0 ∧ f.mode = 0 ∧ f.pad = 0 then ifZeroHeld f .clear else .error .clearWithFields
  else .error .noSuchOperation

/-- `Decode(w)` (R93), total on all 2^32 words; `ILLEGAL` is `.error`. -/
def decode (w : Word) : Except Illegal Instr := decodeFields (fieldsOf w)

/-- The field values of R92's rows. -/
def instrFields : Instr → CmdFields
  | .encAesCbcPkcs7 => { op := 1, cipher := 0, mode := 1, pad := 1, zero := 0 }
  | .encDesEcbNone  => { op := 1, cipher := 1, mode := 0, pad := 0, zero := 0 }
  | .clear          => { op := 2, cipher := 0, mode := 0, pad := 0, zero := 0 }

/-- The command word of an instruction (R91, R92). -/
def encode (i : Instr) : Word := packFields (instrFields i)

/-- The port word of four bytes, the byte at the lowest address in bits 7:0 (R66). -/
def packWord (b0 b1 b2 b3 : Byte) : Word := b3 ++ b2 ++ b1 ++ b0

/-- Byte `k` of a port word: bits `8k+7 : 8k` (R64, R66). -/
def wordByte (w : Word) (k : Nat) : Byte := w.extractLsb' (8 * k) 8

/-- The four bytes of a port word, lowest address first (R66). -/
def wordBytes (w : Word) : List Byte := [wordByte w 0, wordByte w 1, wordByte w 2, wordByte w 3]

/-- The command laid out as four bytes in port order (R66, R90). -/
def encodeBytes (i : Instr) : List Byte := wordBytes (encode i)

/-- The decoder on bytes in port order: the command of the first four (R90) and the bytes after them. -/
def decodeBytes : List Byte → Except Illegal (Instr × List Byte)
  | b0 :: b1 :: b2 :: b3 :: rest =>
    match decode (packWord b0 b1 b2 b3) with
    | .ok i => .ok (i, rest)
    | .error e => .error e
  | _ => .error .truncated

/-- The 32-bit word of the first `nbits` bits of `w`, numbered as spec/opcode_table.json numbers them; the bits above are 0. -/
def tableWord (nbits w : Nat) : Word := BitVec.ofNat 32 (w % 2 ^ nbits)

/-- What the decoder reads from the bytes of a word numbered as spec/opcode_table.json numbers it. -/
def decodeTableWord (nbits w : Nat) : Option Instr :=
  match decodeBytes (wordBytes (tableWord nbits w)) with
  | .ok (i, _) => some i
  | .error _ => none

end Sys2Proof
end

