-- ==== Sys2Proof/Config.lean ====
section
/-! DEFINITION. The fixed constants (R6) and the implementation parameters (R7) of 00_scope.md.

The type of `exec` and `step` has no place for a parameter, and a claim for every implementation quantifies over the
parameters (R7). So one value of `Params` is carried in `State`, every step keeps it, and a statement about every state is a
statement about every implementation (log entry 1). The two function parameters `key_reject` and `prim_fail` are written as
finite lists of patterns, because `State` is plain data: every function of their finite domains is such a list (log entry 2;
proved in `Sys2Proof.Laws.keyReject_complete` and `primFail_complete`). -/

namespace Sys2Proof

/-- The cipher named by `key_reject`, `prim_fail` (R7) and by the command field `CIPHER` (R91). -/
inductive Cipher where
  | aes
  | des
  deriving DecidableEq, Repr

namespace Config

/-- `AES_BLOCK` (R6). -/
def aesBlock : Nat := 16
/-- `DES_BLOCK` (R6). -/
def desBlock : Nat := 8
/-- `DES_KEY_LEN` (R6). -/
def desKeyLen : Nat := 8
/-- `IV_LEN` (R6). -/
def ivLen : Nat := 16
/-- `KEY_BYTES` (R6). -/
def keyBytes : Nat := 32

end Config

/-- A set of (cipher, key) pairs: those that agree with every part that is present. -/
structure KeyPattern where
  cipher : Option Cipher
  key    : Option (List Byte)
  deriving DecidableEq, Repr

/-- A set of (cipher, key, block index, input block) quadruples: those that agree with every part that is present. -/
structure BlockPattern where
  cipher : Option Cipher
  key    : Option (List Byte)
  index  : Option Nat
  block  : Option (List Byte)
  deriving DecidableEq, Repr

/-- The parameters of R7. `AES_KEY_LENS`, a subset of {16, 24, 32}, is its three membership bits; `OBUF_BYTES` is not free
(`Params.obufBytes`). -/
structure Params where
  aesKey16  : Bool
  aesKey24  : Bool
  aesKey32  : Bool
  ibufBytes : Nat
  keyReject : List KeyPattern
  primFail  : List BlockPattern
  deriving DecidableEq, Repr

/-- The defaults of R7: all three AES key lengths, 4096 bytes, and the two predicates constant false. -/
def Params.default : Params where
  aesKey16  := true
  aesKey24  := true
  aesKey32  := true
  ibufBytes := 4096
  keyReject := []
  primFail  := []

/-- `OBUF_BYTES = IBUF_BYTES + 16` (R7). -/
abbrev Params.obufBytes (p : Params) : Nat := p.ibufBytes + 16

/-- The constraints of R7: `AES_KEY_LENS` is not empty; `IBUF_BYTES` is a multiple of 16 in 16..0x3FFFF0. -/
def Params.wf (p : Params) : Bool :=
  (p.aesKey16 || p.aesKey24 || p.aesKey32) &&
    (p.ibufBytes % 16 == 0 && (decide (16 ≤ p.ibufBytes) && decide (p.ibufBytes ≤ 0x3FFFF0)))

end Sys2Proof
end

