-- ==== Sys2Proof/Machine/Aes.lean ====
section
/-! DEFINITION. The AES core (41_aes_primitive.md): key expansion and block encryption, on byte sequences.

An AES state is its 16 bytes in block order; the byte at row `r`, column `c` is byte `r + 4c` (R141). -/

namespace Sys2Proof.Machine

/-- An AES word: a sequence of 4 bytes, never treated as a number (R141). -/
abbrev AesWord := Bytes 4

/-- The key schedule `rk`: 60 words (R21, R44). -/
abbrev AesSchedule := Vector AesWord 60

/-- Bytewise exclusive-or of two sequences of equal length (R11). -/
def xorBytes {n : Nat} (a b : Bytes n) : Bytes n := Vector.ofFn fun i => a[i] ^^^ b[i]

/-- `xtime` (R142): multiplication by 2 in GF(2^8) with the polynomial 0x11B. -/
def xtime (a : Byte) : Byte := if a.getLsbD 7 then (a <<< 1) ^^^ 0x1B#8 else a <<< 1

/-- `mul3(a) = xtime(a) xor a` (R142). -/
def mul3 (a : Byte) : Byte := xtime a ^^^ a

/-- Rows 0 to 7 of the table of R143. -/
def sboxRowsLow : List (List Nat) := [
  [0x63, 0x7c, 0x77, 0x7b, 0xf2, 0x6b, 0x6f, 0xc5, 0x30, 0x01, 0x67, 0x2b, 0xfe, 0xd7, 0xab, 0x76],
  [0xca, 0x82, 0xc9, 0x7d, 0xfa, 0x59, 0x47, 0xf0, 0xad, 0xd4, 0xa2, 0xaf, 0x9c, 0xa4, 0x72, 0xc0],
  [0xb7, 0xfd, 0x93, 0x26, 0x36, 0x3f, 0xf7, 0xcc, 0x34, 0xa5, 0xe5, 0xf1, 0x71, 0xd8, 0x31, 0x15],
  [0x04, 0xc7, 0x23, 0xc3, 0x18, 0x96, 0x05, 0x9a, 0x07, 0x12, 0x80, 0xe2, 0xeb, 0x27, 0xb2, 0x75],
  [0x09, 0x83, 0x2c, 0x1a, 0x1b, 0x6e, 0x5a, 0xa0, 0x52, 0x3b, 0xd6, 0xb3, 0x29, 0xe3, 0x2f, 0x84],
  [0x53, 0xd1, 0x00, 0xed, 0x20, 0xfc, 0xb1, 0x5b, 0x6a, 0xcb, 0xbe, 0x39, 0x4a, 0x4c, 0x58, 0xcf],
  [0xd0, 0xef, 0xaa, 0xfb, 0x43, 0x4d, 0x33, 0x85, 0x45, 0xf9, 0x02, 0x7f, 0x50, 0x3c, 0x9f, 0xa8],
  [0x51, 0xa3, 0x40, 0x8f, 0x92, 0x9d, 0x38, 0xf5, 0xbc, 0xb6, 0xda, 0x21, 0x10, 0xff, 0xf3, 0xd2]]

/-- Rows 8 to f of the table of R143. -/
def sboxRowsHigh : List (List Nat) := [
  [0xcd, 0x0c, 0x13, 0xec, 0x5f, 0x97, 0x44, 0x17, 0xc4, 0xa7, 0x7e, 0x3d, 0x64, 0x5d, 0x19, 0x73],
  [0x60, 0x81, 0x4f, 0xdc, 0x22, 0x2a, 0x90, 0x88, 0x46, 0xee, 0xb8, 0x14, 0xde, 0x5e, 0x0b, 0xdb],
  [0xe0, 0x32, 0x3a, 0x0a, 0x49, 0x06, 0x24, 0x5c, 0xc2, 0xd3, 0xac, 0x62, 0x91, 0x95, 0xe4, 0x79],
  [0xe7, 0xc8, 0x37, 0x6d, 0x8d, 0xd5, 0x4e, 0xa9, 0x6c, 0x56, 0xf4, 0xea, 0x65, 0x7a, 0xae, 0x08],
  [0xba, 0x78, 0x25, 0x2e, 0x1c, 0xa6, 0xb4, 0xc6, 0xe8, 0xdd, 0x74, 0x1f, 0x4b, 0xbd, 0x8b, 0x8a],
  [0x70, 0x3e, 0xb5, 0x66, 0x48, 0x03, 0xf6, 0x0e, 0x61, 0x35, 0x57, 0xb9, 0x86, 0xc1, 0x1d, 0x9e],
  [0xe1, 0xf8, 0x98, 0x11, 0x69, 0xd9, 0x8e, 0x94, 0x9b, 0x1e, 0x87, 0xe9, 0xce, 0x55, 0x28, 0xdf],
  [0x8c, 0xa1, 0x89, 0x0d, 0xbf, 0xe6, 0x42, 0x68, 0x41, 0x99, 0x2d, 0x0f, 0xb0, 0x54, 0xbb, 0x16]]

/-- `SBOX[a]` (R143): row `a[7:4]`, column `a[3:0]`. -/
def sbox (a : Byte) : Byte :=
  BitVec.ofNat 8 (((sboxRowsLow ++ sboxRowsHigh).getD (a.toNat / 16) []).getD (a.toNat % 16) 0)

/-- `SubBytes` (R144). -/
def subBytes (s : Bytes 16) : Bytes 16 := Vector.ofFn fun i => sbox s[i]

/-- `SubWord` (R144). -/
def subWord (w : AesWord) : AesWord := Vector.ofFn fun i => sbox w[i]

/-- `ShiftRows` (R145): `t[r + 4c] = s[r + 4((c + r) mod 4)]`. -/
def shiftRows (s : Bytes 16) : Bytes 16 :=
  Vector.ofFn fun i => s[i.val % 4 + 4 * ((i.val / 4 + i.val % 4) % 4)]

/-- One column of `MixColumns` (R146). -/
def mixColumn (a : Bytes 4) : Bytes 4 := #v[
  xtime a[0] ^^^ mul3 a[1] ^^^ a[2] ^^^ a[3],
  a[0] ^^^ xtime a[1] ^^^ mul3 a[2] ^^^ a[3],
  a[0] ^^^ a[1] ^^^ xtime a[2] ^^^ mul3 a[3],
  mul3 a[0] ^^^ a[1] ^^^ a[2] ^^^ xtime a[3]]

/-- Column `c` of an AES state (R141, R146). -/
def column (s : Bytes 16) (c : Fin 4) : Bytes 4 := Vector.ofFn fun r => s[4 * c.val + r.val]

/-- `MixColumns` (R146). -/
def mixColumns (s : Bytes 16) : Bytes 16 :=
  Vector.ofFn fun i => (mixColumn (column s ⟨i.val / 4, by omega⟩))[i.val % 4]

/-- Word `i` of the schedule; the core reads only `i < 60`. -/
def scheduleWord (rk : AesSchedule) (i : Nat) : AesWord := rk[i]?.getD (zeroBytes 4)

/-- The 16 bytes of round key `r`: word `4r + c` covers column `c` (R149). -/
def roundKey (rk : AesSchedule) (r : Nat) : Bytes 16 :=
  Vector.ofFn fun i => (scheduleWord rk (4 * r + i.val / 4))[i.val % 4]

/-- `AddRoundKey` (R149). -/
def addRoundKey (s : Bytes 16) (rk : AesSchedule) (r : Nat) : Bytes 16 := xorBytes s (roundKey rk r)

/-- A round of R150 other than the last. -/
def aesRound (rk : AesSchedule) (s : Bytes 16) (r : Nat) : Bytes 16 :=
  addRoundKey (mixColumns (shiftRows (subBytes s))) rk r

/-- `AesEncryptBlock(rk, Nr, x)` (R150). -/
@[irreducible] def aesEncryptBlock (rk : AesSchedule) (nr : Nat) (x : Bytes 16) : Bytes 16 :=
  addRoundKey (shiftRows (subBytes
    ((List.range' 1 (nr - 1)).foldl (aesRound rk) (addRoundKey x rk 0)))) rk nr

/-- `RC[1..10]` (R148), `RC[1]` first. -/
def roundConstants : List Nat := [0x01, 0x02, 0x04, 0x08, 0x10, 0x20, 0x40, 0x80, 0x1b, 0x36]

/-- `Rcon(j)` (R148). -/
def rcon (j : Nat) : AesWord := #v[BitVec.ofNat 8 (roundConstants.getD (j - 1) 0), 0, 0, 0]

/-- `RotWord` (R147). -/
def rotWord (a : AesWord) : AesWord := #v[a[1], a[2], a[3], a[0]]

/-- The value `t` that R147 combines with `w[i-Nk]`, from `w[i-1]`. -/
def expansionTerm (nk i : Nat) (prev : AesWord) : AesWord :=
  if i % nk = 0 then xorBytes (subWord (rotWord prev)) (rcon (i / nk))
  else if 6 < nk ∧ i % nk = 4 then subWord prev
  else prev

/-- Word `i` of the expanded key, from the words before it (R147). -/
def nextExpansionWord (nk : Nat) (w : List AesWord) : AesWord :=
  xorBytes (w.getD (w.length - nk) (zeroBytes 4))
    (expansionTerm nk w.length (w.getD (w.length - 1) (zeroBytes 4)))

/-- The loop of R147: `n` further words after those in `w`. -/
def expandWords (nk : Nat) : Nat → List AesWord → List AesWord
  | 0, w => w
  | n + 1, w => expandWords nk n (w ++ [nextExpansionWord nk w])

/-- The words `w[0..Nk)` of R147: the key itself. -/
def keyWords (nk : Nat) (k : List Byte) : List AesWord :=
  (List.range nk).map fun i => Vector.ofFn fun j => k.getD (4 * i + j.val) 0

/-- `Nr = Nk + 6` with `Nk = len(k)/4` (R147). -/
def aesRoundCount (k : List Byte) : Nat := k.length / 4 + 6

/-- The word list `w` of `AesKeyExpansion(k)` (R147): `4(Nr + 1)` words. -/
@[irreducible] def aesKeyExpansion (k : List Byte) : List AesWord :=
  let nk := k.length / 4
  expandWords nk (4 * (aesRoundCount k + 1) - nk) (keyWords nk k)

/-- `rk[0..len(w)) <- w`: the other entries keep their value (R204, R44). -/
@[irreducible] def storeSchedule (w : List AesWord) (rk : AesSchedule) : AesSchedule :=
  Vector.ofFn fun i => w[i.val]?.getD rk[i]

end Sys2Proof.Machine
end

