-- ==== Sys2Proof/Machine/State.lean ====
section
/-! DEFINITION. The state of the core (10_state.md R20 to R48) as plain data, the inputs of its environment, and reset.

`CMD` has no storage and `BUSY` is not stored (R22, R23), so neither is a field. Three fields are the model's own and not the
hardware's: `params` (the parameters of R7, log entry 1), `inputs` (what host, sequencer and reset input do next, log entry 4)
and `response` (what the port answered last, log entry 5). -/

namespace Sys2Proof.Machine

/-- `phase` (R40). -/
inductive Phase where
  | idle
  | check
  | block
  deriving DecidableEq, Repr

/-- The error kinds of 60_exceptions.md R250; their numbers are `ErrorKind.code`. -/
inductive ErrorKind where
  | invalidParameter
  | keyError
  | alignmentError
  | primitiveFailure
  | illegalCommand
  | capacityError
  deriving DecidableEq, Repr

/-- A width a platform's bus may express and the port does not take (R62). -/
inductive OtherWidth where
  | bits8
  | bits16
  | bits64
  deriving DecidableEq, Repr

/-- What the environment does next (R8, R9, R280): a host access, a turn of the sequencer, or the reset input. -/
inductive Input where
  /-- `HostRead(addr)`, R63. -/
  | hostRead (addr : Addr)
  /-- `HostWrite(addr, v)`, R64. -/
  | hostWrite (addr : Addr) (v : Word)
  /-- An access of another width, R62; what it would write is of no effect, so it is not kept. -/
  | hostOtherWidth (width : OtherWidth) (isWrite : Bool) (addr : Addr)
  /-- The sequencer takes its turn between two host accesses (R8). -/
  | sequencer
  /-- The reset input is asserted (R280). -/
  | reset
  deriving DecidableEq, Repr

/-- The response of the port to an access (R61); a read with `ERROR` delivers no data. -/
inductive Response where
  | okay
  | okayData (w : Word)
  | error
  deriving DecidableEq, Repr

/-- The reasons a step can fault. No reachable state faults (stated as obligations over `Safety.SafeState`). -/
inductive Fault where
  /-- Raised by the meaning of a command, or by the sequencer, in a phase for which the spec has no rule: `CLEAR` or, in
  `BLOCK`, an illegal word held in `cmdw` ("unreachable", R114), or an AES `BLOCK` whose `Nr` is no round count (R44).
  Safe: the model stops where the spec gives no step (log entry 6). -/
  | noSequencerRule
  /-- Raised by a `BLOCK` step whose accesses would leave `IBUF` or `OBUF` ("never out of range", R69). Safe: such a byte does
  not exist (log entry 6). -/
  | bufferIndexOutOfRange
  deriving DecidableEq, Repr

/-- The reasons an instruction has no meaning in this model. -/
inductive Refusal where
  /-- Raised by an arm of `exec` for an instruction not modelled yet; no arm does. Safe. -/
  | notModelled (mnemonic : String)
  deriving DecidableEq, Repr

/-- A byte array as a sparse list: addresses strictly rising, no entry 0; an unlisted byte reads 0, the reset contents (R48). -/
abbrev Memory := List Host.Cell

/-- The complete state (R21) and the three fields of the model's own. -/
structure State where
  /-- `STATUS.DONE` (R23). -/
  done  : Bool
  /-- `STATUS.ERR`, bits 7:4 (R23). -/
  err   : BitVec 4
  /-- `KLEN` (R25). -/
  klen  : BitVec 8
  /-- `IVLEN` (R26). -/
  ivlen : BitVec 8
  /-- `PLEN` (R27). -/
  plen  : Word
  /-- `OLEN` (R28). -/
  olen  : Word
  /-- `KEY` (R29). -/
  key   : Bytes 32
  /-- `IV` (R30). -/
  iv    : Bytes 16
  /-- `IBUF` (R31), indexed from 0. -/
  ibuf  : Memory
  /-- `OBUF` (R32, R33), indexed from 0. -/
  obuf  : Memory
  /-- `phase` (R40); `BUSY` is `phase ≠ idle`. -/
  phase : Phase
  /-- `cmdw` (R42). -/
  cmdw  : Word
  /-- `blk` (R41). -/
  blk   : Word
  /-- `nblk` (R41). -/
  nblk  : Word
  /-- `chain` (R43). -/
  chain : Bytes 16
  /-- `rk` (R44). -/
  rk    : AesSchedule
  /-- `Nr` (R44). -/
  nr    : BitVec 4
  /-- `ks` (R45): entry `n - 1` is the round key `K_n`. -/
  ks    : Vector (BitVec 48) 16
  /-- The model's own: the parameters of R7, kept by every step. -/
  params : Params
  /-- The model's own: what the environment does next, the head first. -/
  inputs : List Input
  /-- The model's own: the response of the latest host access, none before the first. -/
  response : Option Response
  deriving DecidableEq, Repr

/-- The all-zero key schedule of AES. -/
def zeroSchedule : AesSchedule := Vector.replicate 60 (zeroBytes 4)

/-- The all-zero key schedule of DES. -/
def zeroKeys : Vector (BitVec 48) 16 := Vector.replicate 16 0

/-- The state after reset (R48, R281) of an implementation with parameters `p`: every element of R21 is zero. -/
def State.resetWith (p : Params) : State where
  done  := false
  err   := 0
  klen  := 0
  ivlen := 0
  plen  := 0
  olen  := 0
  key   := zeroBytes 32
  iv    := zeroBytes 16
  ibuf  := []
  obuf  := []
  phase := .idle
  cmdw  := 0
  blk   := 0
  nblk  := 0
  chain := zeroBytes 16
  rk    := zeroSchedule
  nr    := 0
  ks    := zeroKeys
  params := p
  inputs := []
  response := none

/-- The state after reset with the default parameters of R7. -/
def State.reset : State := State.resetWith Params.default

end Sys2Proof.Machine
end

