-- ==== Sys2Proof/Machine/Flags.lean ====
section
/-! DEFINITION. The status flags and their codes (10_state.md R23, R24, R46; 60_exceptions.md R250).

`BUSY`, `DONE` and `ERR` are the only flags; no cipher operation sets one (R46). -/

namespace Sys2Proof.Machine

/-- The code of a kind in `STATUS.ERR` (R250); 0 is "none", 7..15 are never produced. -/
def ErrorKind.code : ErrorKind → BitVec 4
  | .invalidParameter => 1
  | .keyError         => 2
  | .alignmentError   => 3
  | .primitiveFailure => 4
  | .illegalCommand   => 5
  | .capacityError    => 6

/-- `BUSY` (R23): not stored, 1 exactly when `phase ≠ IDLE`. -/
def busy (s : State) : Bool := s.phase != .idle

/-- The word `STATUS` with the given fields: `ERR` in bits 7:4, `DONE` in bit 1, `BUSY` in bit 0 (R23). -/
def statusWord (err : BitVec 4) (done busy : Bool) : Word :=
  (err.setWidth 32 <<< 4) ||| ((BitVec.ofBool done).setWidth 32 <<< 1) ||| (BitVec.ofBool busy).setWidth 32

/-- What `STATUS` reads in `IDLE`: the stored fields, `BUSY = 0` (R63). -/
def idleStatus (s : State) : Word := statusWord s.err s.done false

/-- What `STATUS` reads while a command runs: 0x00000001 (R75). -/
def busyStatus : Word := statusWord 0 false true

/-- `BUSY` as a host reads it: bit 0 of a `STATUS` word (R23, R100). -/
def statusBusy (w : Word) : Bool := w.getLsbD 0

end Sys2Proof.Machine
end

