-- ==== Sys2Proof/Machine/Ops.lean ====
section
/-! DEFINITION. The operations over memory and registers that the commands, the sequencer and the port share: reading and
writing a byte array; discarding a result; wiping; completing with success or with a failure (this hardware's only exception,
60_exceptions.md R259); issuing a word; the answer of the port; reset. -/

namespace Sys2Proof.Machine

/-! ## Byte arrays -/

/-- Byte `a` of a byte array; an unlisted byte reads 0 (R48). -/
def Memory.read : Memory → Nat → Byte
  | [], _ => 0
  | (b, v) :: m, a => if a = b then v else Memory.read m a

/-- The array with byte `a` set to `v`, in canonical form: writing 0 removes the entry. -/
def Memory.write : Memory → Nat → Byte → Memory
  | [], a, v => if v = 0 then [] else [(a, v)]
  | (b, u) :: m, a, v =>
    if a < b then (if v = 0 then (b, u) :: m else (a, v) :: (b, u) :: m)
    else if a = b then (if v = 0 then m else (a, v) :: m)
    else (b, u) :: Memory.write m a v

/-- `MemWrite(A, off, n, v)` (R12, R69): the bytes of `vs` at `off`, `off + 1`, ... -/
def Memory.writeBytes : Memory → Nat → List Byte → Memory
  | m, _, [] => m
  | m, a, v :: vs => Memory.writeBytes (Memory.write m a v) (a + 1) vs

/-- `MemRead(A, off, n)` (R12, R69): the bytes `A[off..off+n)`. -/
def Memory.readBytes (m : Memory) (off n : Nat) : Bytes n := Vector.ofFn fun i => m.read (off + i.val)

/-- The canonical form: addresses strictly rising, no entry that an unlisted byte would read as. -/
abbrev Memory.wf (m : Memory) : Prop := m.Pairwise (fun c d => c.1 < d.1) ∧ ∀ c ∈ m, c.2 ≠ 0

/-- Every listed byte lies below `n`, the size of the array. -/
abbrev Memory.within (m : Memory) (n : Nat) : Prop := ∀ c ∈ m, c.1 < n

/-- The bytes `o .. o+3` of an array of fixed size replaced by the four bytes of a port word (R64). -/
@[irreducible] def storeWord {n : Nat} (a : Bytes n) (o : Nat) (w : Word) : Bytes n :=
  Vector.ofFn fun i => if o ≤ i.val ∧ i.val < o + 4 then wordByte w (i.val - o) else a[i]

/-! ## Results and completion -/

/-- The previous result is gone: `DONE`, `ERR`, `OLEN` and every byte of `OBUF` zero (R111, R113). -/
def discardResult (s : State) : State := { s with done := false, err := 0, olen := 0, obuf := [] }

/-- `Wipe()` (R125): every input and every intermediate value zero. -/
def wipe (s : State) : State :=
  { s with
    key := zeroBytes 32, klen := 0, iv := zeroBytes 16, ivlen := 0, ibuf := [], plen := 0,
    cmdw := 0, blk := 0, nblk := 0, chain := zeroBytes 16, rk := zeroSchedule, nr := 0, ks := zeroKeys }

/-- `Complete(success(n))` (R124). -/
def completeSuccess (n : Word) (s : State) : State :=
  { wipe { s with olen := n, done := true, err := 0 } with phase := .idle }

/-- `raise Kind`, that is `Complete(fail(Kind))` (R124, R259): the one way an error is taken. -/
def raise (k : ErrorKind) (s : State) : State :=
  { wipe { s with olen := 0, done := false, err := k.code, obuf := [] } with phase := .idle }

/-! ## Issue, `CLEAR`, reset, the answer of the port -/

/-- Issue of a word that is not `CLEAR` (R111): latched in `cmdw`, the previous result discarded, `phase <- CHECK`. -/
def issueWord (w : Word) (s : State) : State := { discardResult s with cmdw := w, phase := .check }

/-- `Clear()` (R113); with the next issue it is the return from an error (R261). -/
def clearAll (s : State) : State := wipe (discardResult s)

/-- The answer of the port to a host access (R61). -/
def respond (r : Response) (s : State) : State := { s with response := some r }

/-- The reset input (R280 to R282): every element of R21 at its reset value; parameters and environment are no such element. -/
def resetCore (s : State) : State :=
  { State.resetWith s.params with inputs := s.inputs, response := s.response }

end Sys2Proof.Machine
end

