-- ==== Sys2Proof/Machine/Operands.lean ====
section
/-! DEFINITION. The operands: the implicit operands of the commands (30_encoding.md R94) with the parameters that judge them
(00_scope.md R7), and the locations a port address names (20_memory.md R65, R66). -/

namespace Sys2Proof.Machine

/-! ## Parameters -/

/-- `n ∈ AES_KEY_LENS` (R7). -/
def acceptsAesKeyLen (p : Params) (n : Nat) : Bool :=
  (n == 16 && p.aesKey16) || ((n == 24 && p.aesKey24) || (n == 32 && p.aesKey32))

/-- A part of a pattern that is absent agrees with everything. -/
def partAgrees {α : Type} [DecidableEq α] (part : Option α) (a : α) : Bool :=
  match part with
  | none => true
  | some b => a == b

/-- `key_reject(cipher, key)` (R7): some pattern of the parameter agrees. -/
def keyReject (p : Params) (c : Cipher) (k : List Byte) : Bool :=
  p.keyReject.any fun t => partAgrees t.cipher c && partAgrees t.key k

/-- `prim_fail(cipher, key, i, x)` (R7): some pattern of the parameter agrees. -/
def primFail (p : Params) (c : Cipher) (k : List Byte) (i : Nat) (x : List Byte) : Bool :=
  p.primFail.any fun t =>
    partAgrees t.cipher c && (partAgrees t.key k && (partAgrees t.index i && partAgrees t.block x))

/-! ## Operands of the commands -/

/-- `KEY[0..n)` (R29). -/
def keyPrefix (key : Bytes 32) (n : Nat) : List Byte := key.toList.take n

/-- The key of a command, `KEY[0..KLEN)` (R94). -/
def keyOperand (s : State) : List Byte := keyPrefix s.key s.klen.toNat

/-- `KEY[0..8)`, the DES key (R231, R232). -/
def desKey (key : Bytes 32) : Bytes 8 := Vector.ofFn fun i => key[i.val]

/-- `PadLen(PLEN)` (R202), always in 1..16. -/
def padLen (plen : Nat) : Nat := 16 - plen % 16

/-- `In(i)` (R205): the plaintext bytes of block `i`, then pad bytes. -/
def cbcInput (s : State) (i : Nat) : Bytes 16 :=
  Vector.ofFn fun j =>
    if 16 * i + j.val < s.plen.toNat then s.ibuf.read (16 * i + j.val) else BitVec.ofNat 8 (padLen s.plen.toNat)

/-- `MemRead(IBUF, 8i, 8)` (R233). -/
def ecbInput (s : State) (i : Nat) : Bytes 8 := s.ibuf.readBytes (8 * i) 8

/-! ## Port addresses -/

/-- What a mapped address names (R65); a window location carries its byte offset. -/
inductive Location where
  | cmd
  | status
  | klen
  | ivlen
  | plen
  | olen
  | key (o : Nat)
  | iv (o : Nat)
  | ibuf (o : Nat)
  | obuf (o : Nat)
  deriving DecidableEq, Repr

/-- `0x400000`, the start of the `IBUF` window (R65). -/
abbrev ibufBase : Nat := 0x400000

/-- `0x800000`, the start of the `OBUF` window (R65). -/
abbrev obufBase : Nat := 0x800000

/-- The control registers in address order, four bytes each (R65). -/
def registerAt : Nat → Option Location
  | 0 => some .cmd
  | 1 => some .status
  | 2 => some .klen
  | 3 => some .ivlen
  | 4 => some .plen
  | 5 => some .olen
  | _ => none

/-- The windows (R65). -/
def windowAt (p : Params) (a : Nat) : Option Location :=
  if 0x20 ≤ a ∧ a < 0x40 then some (.key (a - 0x20))
  else if 0x40 ≤ a ∧ a < 0x50 then some (.iv (a - 0x40))
  else if ibufBase ≤ a ∧ a < ibufBase + p.ibufBytes then some (.ibuf (a - ibufBase))
  else if obufBase ≤ a ∧ a < obufBase + p.obufBytes then some (.obuf (a - obufBase))
  else none

/-- The map of R65 on byte offsets, `none` where the address is unmapped. -/
def locateOffset (p : Params) (a : Nat) : Option Location := if a < 0x18 then registerAt (a / 4) else windowAt p a

/-- The map of R65. -/
def locate (p : Params) (addr : Addr) : Option Location := locateOffset p addr.toNat

/-- `addr mod 4 = 0` (R62). -/
def aligned (addr : Addr) : Bool := addr.toNat % 4 == 0

/-- The location a port access reaches: aligned (R62) and mapped (R65). -/
def access (p : Params) (addr : Addr) : Option Location := if aligned addr then locate p addr else none

/-- The word of an array at offset `o` (R63, R66). -/
def Memory.readWord (m : Memory) (o : Nat) : Word :=
  packWord (m.read o) (m.read (o + 1)) (m.read (o + 2)) (m.read (o + 3))

end Sys2Proof.Machine
end

