-- ==== Sys2Proof/Machine/Cbc.lean ====
section
/-! DEFINITION. `ENC.AES.CBC.PKCS7` (43_cbc_encryptor.md): its checks, its start, its block step, and its meaning in each
phase. -/

namespace Sys2Proof.Machine

/-- `StartAesCbc()` (R204). -/
def startAesCbc (s : State) : State :=
  { s with
    rk := storeSchedule (aesKeyExpansion (keyOperand s)) s.rk
    nr := BitVec.ofNat 4 (aesRoundCount (keyOperand s))
    chain := s.iv
    nblk := BitVec.ofNat 32 (s.plen.toNat / 16 + 1)
    blk := 0
    phase := .block }

/-- `CheckAndStartAesCbc()` (R201, R258): the first check that fails ends the command. -/
def checkAndStartAesCbc (s : State) : State :=
  if acceptsAesKeyLen s.params s.klen.toNat = false then raise .invalidParameter s
  else if s.ivlen.toNat ≠ Config.ivLen then raise .invalidParameter s
  else if keyReject s.params .aes (keyOperand s) then raise .keyError s
  else if s.params.ibufBytes < s.plen.toNat then raise .capacityError s
  else startAesCbc s

/-- `x` of R206: the block's input combined with the chaining value. -/
def cbcBlockInput (s : State) : Bytes 16 := xorBytes (cbcInput s s.blk.toNat) s.chain

/-- `y` of R206: the ciphertext of block `blk`. -/
def cbcBlockOutput (s : State) : Bytes 16 := aesEncryptBlock s.rk s.nr.toNat (cbcBlockInput s)

/-- The bytes block `blk` reads and writes lie inside `IBUF` and `OBUF` (R69). -/
def cbcInRange (s : State) : Bool :=
  decide (16 * s.blk.toNat + 16 ≤ s.params.obufBytes) &&
    decide (min s.plen.toNat (16 * s.blk.toNat + 16) ≤ s.params.ibufBytes)

/-- `Nr` is a number of rounds, as it is while an AES command is in `BLOCK` (R44). -/
def isRoundCount (n : Nat) : Bool := n == 10 || (n == 12 || n == 14)

/-- `CbcBlockStep()` (R206) on a block whose accesses are in range. -/
def cbcBlockStep (s : State) : State :=
  if primFail s.params .aes (keyOperand s) s.blk.toNat (cbcBlockInput s).toList then raise .primitiveFailure s
  else { s with
    obuf := s.obuf.writeBytes (16 * s.blk.toNat) (cbcBlockOutput s).toList
    chain := cbcBlockOutput s
    blk := s.blk + 1 }

/-- The `BLOCK` step of the command (R116, R206, R207). -/
def blockAesCbc (s : State) : Host.Outcome State Fault Refusal :=
  if s.blk = s.nblk then .next (completeSuccess (BitVec.ofNat 32 (s.nblk.toNat * 16)) s)
  else if isRoundCount s.nr.toNat = false then .fault .noSequencerRule
  else if cbcInRange s = false then .fault .bufferIndexOutOfRange
  else .next (cbcBlockStep s)

/-- `ENC.AES.CBC.PKCS7` (R200): the step the command takes in each phase (R110): issue (R111), `CHECK` (R114), `BLOCK`
(R116). -/
def execEncAesCbcPkcs7 (s : State) : Host.Outcome State Fault Refusal :=
  match s.phase with
  | .idle => .next (issueWord (encode .encAesCbcPkcs7) s)
  | .check => .next (checkAndStartAesCbc s)
  | .block => blockAesCbc s

end Sys2Proof.Machine
end

