-- ==== Sys2Proof/Machine/Des.lean ====
section
/-! DEFINITION. The DES core (42_des_primitive.md): key schedule and block encryption.

A DES value of `n` bits is a `BitVec n` whose DES bit `j` (numbered 1..n from the left, R170) is `getMsbD (j - 1)`. -/

namespace Sys2Proof.Machine

/-- The `n`-bit value whose bit `j` from the left, counted from 0, is `f j`. -/
def bitsOf : (n : Nat) → (Nat → Bool) → BitVec n
  | 0, _ => 0#0
  | n + 1, f => (bitsOf n f).concat (f n)

/-- `bits(x)` (R170): DES bit `8i + j + 1` is bit `7 - j` of byte `x[i]`. -/
def desBits (x : Bytes 8) : BitVec 64 := bitsOf 64 fun p => (x[p / 8]?.getD 0).getMsbD (p % 8)

/-- `bytes(v)`: the mapping of `desBits` turned back (R170). -/
def desBytes (v : BitVec 64) : Bytes 8 := Vector.ofFn fun i => bitsOf 8 fun j => v.getMsbD (8 * i.val + j)

/-- `Permute(T, v)` (R171), for a table of `m` entries: bit `j` of the result is bit `T[j]` of `v`. -/
def permute {n : Nat} (m : Nat) (t : List Nat) (v : BitVec n) : BitVec m :=
  bitsOf m fun j => v.getMsbD (t.getD j 0 - 1)

/-- `RotL28(v, s)` (R171): bit `j` of the result is bit `((j - 1 + s) mod 28) + 1` of `v`. -/
def rotL28 (v : BitVec 28) (s : Nat) : BitVec 28 := bitsOf 28 fun j => v.getMsbD ((j + s) % 28)

/-- `PC1` (R172), the half that gives `C[0]`. -/
def pc1C : List Nat := [
  57, 49, 41, 33, 25, 17,  9,
   1, 58, 50, 42, 34, 26, 18,
  10,  2, 59, 51, 43, 35, 27,
  19, 11,  3, 60, 52, 44, 36]

/-- `PC1` (R172), the half that gives `D[0]`. -/
def pc1D : List Nat := [
  63, 55, 47, 39, 31, 23, 15,
   7, 62, 54, 46, 38, 30, 22,
  14,  6, 61, 53, 45, 37, 29,
  21, 13,  5, 28, 20, 12,  4]

/-- `SHIFT[1..16]` (R173). -/
def desShifts : List Nat := [1, 1, 2, 2, 2, 2, 2, 2, 1, 2, 2, 2, 2, 2, 2, 1]

/-- `PC2` (R174), from `C[n] || D[n]`. -/
def pc2 : List Nat := [
  14, 17, 11, 24,  1,  5,
   3, 28, 15,  6, 21, 10,
  23, 19, 12,  4, 26,  8,
  16,  7, 27, 20, 13,  2,
  41, 52, 31, 37, 47, 55,
  30, 40, 51, 45, 33, 48,
  44, 49, 39, 56, 34, 53,
  46, 42, 50, 36, 29, 32]

/-- `IP` (R177). -/
def ipTable : List Nat := [
  58, 50, 42, 34, 26, 18, 10,  2,
  60, 52, 44, 36, 28, 20, 12,  4,
  62, 54, 46, 38, 30, 22, 14,  6,
  64, 56, 48, 40, 32, 24, 16,  8,
  57, 49, 41, 33, 25, 17,  9,  1,
  59, 51, 43, 35, 27, 19, 11,  3,
  61, 53, 45, 37, 29, 21, 13,  5,
  63, 55, 47, 39, 31, 23, 15,  7]

/-- `FP` (R182). -/
def fpTable : List Nat := [
  40,  8, 48, 16, 56, 24, 64, 32,
  39,  7, 47, 15, 55, 23, 63, 31,
  38,  6, 46, 14, 54, 22, 62, 30,
  37,  5, 45, 13, 53, 21, 61, 29,
  36,  4, 44, 12, 52, 20, 60, 28,
  35,  3, 43, 11, 51, 19, 59, 27,
  34,  2, 42, 10, 50, 18, 58, 26,
  33,  1, 41,  9, 49, 17, 57, 25]

/-- `E` (R178). -/
def eTable : List Nat := [
  32,  1,  2,  3,  4,  5,
   4,  5,  6,  7,  8,  9,
   8,  9, 10, 11, 12, 13,
  12, 13, 14, 15, 16, 17,
  16, 17, 18, 19, 20, 21,
  20, 21, 22, 23, 24, 25,
  24, 25, 26, 27, 28, 29,
  28, 29, 30, 31, 32,  1]

/-- `P` (R180). -/
def pTable : List Nat := [
  16,  7, 20, 21,
  29, 12, 28, 17,
   1, 15, 23, 26,
   5, 18, 31, 10,
   2,  8, 24, 14,
  32, 27,  3,  9,
  19, 13, 30,  6,
  22, 11,  4, 25]

/-- `S1` (R179), rows 0 to 3. -/
def desS1 : List (List Nat) := [
  [14, 4, 13, 1, 2, 15, 11, 8, 3, 10, 6, 12, 5, 9, 0, 7],
  [0, 15, 7, 4, 14, 2, 13, 1, 10, 6, 12, 11, 9, 5, 3, 8],
  [4, 1, 14, 8, 13, 6, 2, 11, 15, 12, 9, 7, 3, 10, 5, 0],
  [15, 12, 8, 2, 4, 9, 1, 7, 5, 11, 3, 14, 10, 0, 6, 13]]

/-- `S2` (R179), rows 0 to 3. -/
def desS2 : List (List Nat) := [
  [15, 1, 8, 14, 6, 11, 3, 4, 9, 7, 2, 13, 12, 0, 5, 10],
  [3, 13, 4, 7, 15, 2, 8, 14, 12, 0, 1, 10, 6, 9, 11, 5],
  [0, 14, 7, 11, 10, 4, 13, 1, 5, 8, 12, 6, 9, 3, 2, 15],
  [13, 8, 10, 1, 3, 15, 4, 2, 11, 6, 7, 12, 0, 5, 14, 9]]

/-- `S3` (R179), rows 0 to 3. -/
def desS3 : List (List Nat) := [
  [10, 0, 9, 14, 6, 3, 15, 5, 1, 13, 12, 7, 11, 4, 2, 8],
  [13, 7, 0, 9, 3, 4, 6, 10, 2, 8, 5, 14, 12, 11, 15, 1],
  [13, 6, 4, 9, 8, 15, 3, 0, 11, 1, 2, 12, 5, 10, 14, 7],
  [1, 10, 13, 0, 6, 9, 8, 7, 4, 15, 14, 3, 11, 5, 2, 12]]

/-- `S4` (R179), rows 0 to 3. -/
def desS4 : List (List Nat) := [
  [7, 13, 14, 3, 0, 6, 9, 10, 1, 2, 8, 5, 11, 12, 4, 15],
  [13, 8, 11, 5, 6, 15, 0, 3, 4, 7, 2, 12, 1, 10, 14, 9],
  [10, 6, 9, 0, 12, 11, 7, 13, 15, 1, 3, 14, 5, 2, 8, 4],
  [3, 15, 0, 6, 10, 1, 13, 8, 9, 4, 5, 11, 12, 7, 2, 14]]

/-- `S5` (R179), rows 0 to 3. -/
def desS5 : List (List Nat) := [
  [2, 12, 4, 1, 7, 10, 11, 6, 8, 5, 3, 15, 13, 0, 14, 9],
  [14, 11, 2, 12, 4, 7, 13, 1, 5, 0, 15, 10, 3, 9, 8, 6],
  [4, 2, 1, 11, 10, 13, 7, 8, 15, 9, 12, 5, 6, 3, 0, 14],
  [11, 8, 12, 7, 1, 14, 2, 13, 6, 15, 0, 9, 10, 4, 5, 3]]

/-- `S6` (R179), rows 0 to 3. -/
def desS6 : List (List Nat) := [
  [12, 1, 10, 15, 9, 2, 6, 8, 0, 13, 3, 4, 14, 7, 5, 11],
  [10, 15, 4, 2, 7, 12, 9, 5, 6, 1, 13, 14, 0, 11, 3, 8],
  [9, 14, 15, 5, 2, 8, 12, 3, 7, 0, 4, 10, 1, 13, 11, 6],
  [4, 3, 2, 12, 9, 5, 15, 10, 11, 14, 1, 7, 6, 0, 8, 13]]

/-- `S7` (R179), rows 0 to 3. -/
def desS7 : List (List Nat) := [
  [4, 11, 2, 14, 15, 0, 8, 13, 3, 12, 9, 7, 5, 10, 6, 1],
  [13, 0, 11, 7, 4, 9, 1, 10, 14, 3, 5, 12, 2, 15, 8, 6],
  [1, 4, 11, 13, 12, 3, 7, 14, 10, 15, 6, 8, 0, 5, 9, 2],
  [6, 11, 13, 8, 1, 4, 10, 7, 9, 5, 0, 15, 14, 2, 3, 12]]

/-- `S8` (R179), rows 0 to 3. -/
def desS8 : List (List Nat) := [
  [13, 2, 8, 4, 6, 15, 11, 1, 10, 9, 3, 14, 5, 0, 12, 7],
  [1, 15, 13, 8, 10, 3, 7, 4, 12, 5, 6, 11, 0, 14, 9, 2],
  [7, 11, 4, 1, 9, 12, 14, 2, 0, 6, 10, 13, 15, 3, 5, 8],
  [2, 1, 14, 7, 4, 10, 8, 13, 15, 12, 9, 0, 3, 5, 6, 11]]

/-- The eight S-boxes (R179), `S1` first. -/
def desSBoxes : List (List (List Nat)) := [desS1, desS2, desS3, desS4, desS5, desS6, desS7, desS8]

/-- `S_j` on six bits `b1..b6` (R179), `j` counted from 0: the row is `b1 b6`, the column `b2 b3 b4 b5`. -/
def desSBox (j : Nat) (b : BitVec 6) : BitVec 4 :=
  let row := 2 * (b.getMsbD 0).toNat + (b.getMsbD 5).toNat
  let col := (b.extractLsb' 1 4).toNat
  BitVec.ofNat 4 (((desSBoxes.getD j []).getD row []).getD col 0)

/-- `B_j` of R181, `j` counted from 0: bits `6j + 1 .. 6j + 6` of `X`. -/
def sixBits (x : BitVec 48) (j : Nat) : BitVec 6 := bitsOf 6 fun k => x.getMsbD (6 * j + k)

/-- `O_1 || ... || O_8` of R181. -/
def desSubstitute (x : BitVec 48) : BitVec 32 :=
  bitsOf 32 fun p => (desSBox (p / 4) (sixBits x (p / 4))).getMsbD (p % 4)

/-- The round function `f(R, K)` (R181). -/
def desF (r : BitVec 32) (k : BitVec 48) : BitVec 32 :=
  permute 32 pTable (desSubstitute (permute 48 eTable r ^^^ k))

/-- The loop of R176 from `(C, D)`: one round key for each shift of the list. -/
def desRoundKeys : List Nat → BitVec 28 → BitVec 28 → List (BitVec 48)
  | [], _, _ => []
  | s :: rest, c, d =>
    permute 48 pc2 (rotL28 c s ++ rotL28 d s) :: desRoundKeys rest (rotL28 c s) (rotL28 d s)

/-- `DesKeySchedule(k)` (R176): `K[n]` is entry `n - 1`, as in `ks` (R45). -/
@[irreducible] def desKeySchedule (k : Bytes 8) : Vector (BitVec 48) 16 :=
  let v := desBits k
  let keys := desRoundKeys desShifts (permute 28 pc1C v) (permute 28 pc1D v)
  Vector.ofFn fun i => keys.getD i.val 0

/-- One round of R183 on `(L, R)`. -/
def desRound (lr : BitVec 32 × BitVec 32) (k : BitVec 48) : BitVec 32 × BitVec 32 :=
  (lr.2, lr.1 ^^^ desF lr.2 k)

/-- `DesEncryptBlock(ks, x)` (R183): 16 rounds, the halves swapped before `FP`. -/
@[irreducible] def desEncryptBlock (ks : Vector (BitVec 48) 16) (x : Bytes 8) : Bytes 8 :=
  let v := permute 64 ipTable (desBits x)
  let lr := ks.toList.foldl desRound (v.extractLsb' 32 32, v.extractLsb' 0 32)
  desBytes (permute 64 fpTable (lr.2 ++ lr.1))

end Sys2Proof.Machine
end

