-- ==== Sys2Proof/Machine/Ecb.lean ====
section
/-! DEFINITION. `ENC.DES.ECB.NONE` (44_ecb_encryptor.md): its checks, its start, its block step, and its meaning in each
phase. -/

namespace Sys2Proof.Machine

/-- `StartDesEcb()` (R232). -/
def startDesEcb (s : State) : State :=
  { s with
    ks := desKeySchedule (desKey s.key)
    nblk := BitVec.ofNat 32 (s.plen.toNat / 8)
    blk := 0
    phase := .block }

/-- `CheckAndStartDesEcb()` (R231, R258): the first check that fails ends the command. -/
def checkAndStartDesEcb (s : State) : State :=
  if s.klen.toNat ≠ Config.desKeyLen then raise .invalidParameter s
  else if keyReject s.params .des (desKey s.key).toList then raise .keyError s
  else if s.plen.toNat % Config.desBlock ≠ 0 then raise .alignmentError s
  else if s.params.ibufBytes < s.plen.toNat then raise .capacityError s
  else startDesEcb s

/-- `y` of R233: the ciphertext of block `blk`. -/
def ecbBlockOutput (s : State) : Bytes 8 := desEncryptBlock s.ks (ecbInput s s.blk.toNat)

/-- The bytes block `blk` reads and writes lie inside `IBUF` and `OBUF` (R69). -/
def ecbInRange (s : State) : Bool := decide (8 * s.blk.toNat + 8 ≤ s.params.ibufBytes)

/-- `EcbBlockStep()` (R233) on a block whose accesses are in range. -/
def ecbBlockStep (s : State) : State :=
  if primFail s.params .des (desKey s.key).toList s.blk.toNat (ecbInput s s.blk.toNat).toList then
    raise .primitiveFailure s
  else { s with
    obuf := s.obuf.writeBytes (8 * s.blk.toNat) (ecbBlockOutput s).toList
    blk := s.blk + 1 }

/-- The `BLOCK` step of the command (R116, R233, R234). -/
def blockDesEcb (s : State) : Host.Outcome State Fault Refusal :=
  if s.blk = s.nblk then .next (completeSuccess (BitVec.ofNat 32 (s.nblk.toNat * 8)) s)
  else if ecbInRange s = false then .fault .bufferIndexOutOfRange
  else .next (ecbBlockStep s)

/-- `ENC.DES.ECB.NONE` (R230): the step the command takes in each phase (R110): issue (R111), `CHECK` (R114), `BLOCK`
(R116). -/
def execEncDesEcbNone (s : State) : Host.Outcome State Fault Refusal :=
  match s.phase with
  | .idle => .next (issueWord (encode .encDesEcbNone) s)
  | .check => .next (checkAndStartDesEcb s)
  | .block => blockDesEcb s

end Sys2Proof.Machine
end

