-- ==== Sys2Proof/Machine/Housekeeping.lean ====
section
/-! DEFINITION. `CLEAR` (40_command_lifecycle.md R113). -/

namespace Sys2Proof.Machine

/-- `CLEAR` (R113) runs whole within the `CMD` write that issues it, in `IDLE`. A `CLEAR` written while a command runs is
dropped at the port (R112) and never comes here; one latched in `cmdw` is "unreachable" (R114) and faults. -/
def execClear (s : State) : Host.Outcome State Fault Refusal :=
  match s.phase with
  | .idle => .next (clearAll s)
  | .check => .fault .noSequencerRule
  | .block => .fault .noSequencerRule

end Sys2Proof.Machine
end

