-- ==== Sys2Proof/Machine/Dispatch.lean ====
section
/-! DEFINITION. One arm for each command. -/

namespace Sys2Proof.Machine

-- The step command `i` takes in the phase `s` is in (40_command_lifecycle.md R110, R129).
def exec (i : Instr) (s : State) : Host.Outcome State Fault Refusal :=
  match i with
  | .encAesCbcPkcs7 => Sys2Proof.Machine.execEncAesCbcPkcs7 s
  | .encDesEcbNone => Sys2Proof.Machine.execEncDesEcbNone s
  | .clear => Sys2Proof.Machine.execClear s

end Sys2Proof.Machine
end

