-- ==== Sys2Proof/Machine/Sequencer.lean ====
section
/-! DEFINITION. A turn of the sequencer (00_scope.md R8; 40_command_lifecycle.md R110, R114, R116). -/

namespace Sys2Proof.Machine

/-- The sequencer's turn: nothing in `IDLE` (R40); otherwise the command held in `cmdw` takes its `CHECK` or `BLOCK` step, and
an illegal word fails in `CHECK` (R96, R114). -/
def sequencerTurn (s : State) : Host.Outcome State Fault Refusal :=
  match s.phase, decode s.cmdw with
  | .idle, _ => .next s
  | .check, .error _ => .next (raise .illegalCommand s)
  | .block, .error _ => .fault .noSequencerRule
  | _, .ok i => exec i s

end Sys2Proof.Machine
end

