-- ==== Sys2Proof/Machine/Port.lean ====
section
/-! DEFINITION. The host port (20_memory.md R60 to R75) and the inputs of the environment. -/

namespace Sys2Proof.Machine

/-- `BusyReadValue` (R75). -/
def busyReadValue (s : State) : Location → Word
  | .status => busyStatus
  | .klen => s.klen.setWidth 32
  | .ivlen => s.ivlen.setWidth 32
  | .plen => s.plen
  | .cmd | .olen | .key _ | .iv _ | .ibuf _ | .obuf _ => 0

/-- The word a read in `IDLE` returns (R63). -/
def idleReadValue (s : State) : Location → Word
  | .status => idleStatus s
  | .klen => s.klen.setWidth 32
  | .ivlen => s.ivlen.setWidth 32
  | .plen => s.plen
  | .olen => s.olen
  | .obuf o => s.obuf.readWord o
  | .cmd | .key _ | .iv _ | .ibuf _ => 0

/-- The answer to `HostRead(addr)` (R63). -/
def hostRead (s : State) (addr : Addr) : Response :=
  match access s.params addr with
  | none => .error
  | some l => .okayData (if busy s then busyReadValue s l else idleReadValue s l)

/-- `CMD` written with `w` in `IDLE` (R111): a command takes its `IDLE` step; an illegal word is issued like any other (R96). -/
def writeCmd (w : Word) (s : State) : Host.Outcome State Fault Refusal :=
  match decode w with
  | .ok i => exec i s
  | .error _ => .next (issueWord w s)

/-- A location other than `CMD` written with `v` in `IDLE` (R64). -/
def writeLocation (s : State) (v : Word) : Location → State
  | .klen => { s with klen := v.setWidth 8 }
  | .ivlen => { s with ivlen := v.setWidth 8 }
  | .plen => { s with plen := v }
  | .key o => { s with key := storeWord s.key o v }
  | .iv o => { s with iv := storeWord s.iv o v }
  | .ibuf o => { s with ibuf := s.ibuf.writeBytes o (wordBytes v) }
  | .cmd | .status | .olen | .obuf _ => s

/-- `HostWrite(addr, v)` (R64, R75, R112). -/
def hostWrite (addr : Addr) (v : Word) (s : State) : Host.Outcome State Fault Refusal :=
  match access s.params addr with
  | none => .next (respond .error s)
  | some l =>
    if busy s then .next (respond .okay s)
    else if l = .cmd then writeCmd v (respond .okay s)
    else .next (writeLocation (respond .okay s) v l)

/-- One input of the environment. -/
def takeInput (x : Input) (s : State) : Host.Outcome State Fault Refusal :=
  match x with
  | .hostRead addr => .next (respond (hostRead s addr) s)
  | .hostWrite addr v => hostWrite addr v s
  | .hostOtherWidth _ _ _ => .next (respond .error s)
  | .sequencer => sequencerTurn s
  | .reset => .next (resetCore s)

end Sys2Proof.Machine
end

