-- ==== Sys2Proof/Machine/Step.lean ====
section
/-! DEFINITION. One step of the machine, and the placing of an instruction where the next step takes it. -/

namespace Sys2Proof.Machine

/-- One step: the next input of the environment takes effect. With no input left the sequencer goes on by itself, since
nothing ever blocks it (R292); in `IDLE` the core then stays as it is (R265). -/
def step (s : State) : Host.Outcome State Fault Refusal :=
  match s.inputs with
  | [] => sequencerTurn s
  | x :: rest => takeInput x { s with inputs := rest }

/-- The core has no program memory: a command runs when the host writes its word to `CMD` in `IDLE` (R40, R111). So the next
input becomes that write, and the core is put in `IDLE` (log entry 7). -/
def State.withFetchWord (s : State) (nbits w : Nat) : State :=
  { s with phase := .idle, inputs := .hostWrite 0 (tableWord nbits w) :: s.inputs }

end Sys2Proof.Machine
end

