-- ==== Sys2Proof/Machine/BigStep.lean ====
section
/-! DEFINITION. A command as one function of the state at its issue: R208, R235 and R128. The machine never calls these; that
its steps compute them is a statement about it. Here the padded plaintext `Pad(P)` is built whole (R202), where the machine
forms each block as it is needed (R205). -/

namespace Sys2Proof.Machine

/-- `success(c)` or `fail(Kind)`. -/
inductive Result where
  | success (c : List Byte)
  | fail (k : ErrorKind)
  deriving DecidableEq, Repr

/-- `IBUF[0..PLEN)`. -/
def plaintext (ibuf : Memory) (plen : Nat) : List Byte := (List.range plen).map ibuf.read

/-- `Pad(P)` (R202). -/
def pad (p : List Byte) : List Byte := p ++ List.replicate (padLen p.length) (BitVec.ofNat 8 (padLen p.length))

/-- `M[n*i .. n*i + n)`. -/
def blockAt (n : Nat) (m : List Byte) (i : Nat) : Bytes n := Vector.ofFn fun j => m.getD (n * i + j.val) 0

/-- The outcome of a block loop: the blocks of ciphertext in order, or the index of the first block whose transform failed. -/
inductive LoopEnd where
  | blocks (out : List Byte)
  | failedAt (i : Nat)
  deriving DecidableEq, Repr

/-- The loop of R208 over `n` blocks from block `i`, with chaining value `c`. -/
def cbcLoop (p : Params) (k : List Byte) (rk : AesSchedule) (r : Nat) (m : List Byte) :
    Nat → Nat → Bytes 16 → List Byte → LoopEnd
  | 0, _, _, out => .blocks out
  | n + 1, i, c, out =>
    let x := xorBytes (blockAt 16 m i) c
    if primFail p .aes k i x.toList then .failedAt i
    else
      let y := aesEncryptBlock rk r x
      cbcLoop p k rk r m n (i + 1) y (out ++ y.toList)

/-- The loop of R235 over `n` blocks from block `i`. -/
def ecbLoop (p : Params) (k : List Byte) (ks : Vector (BitVec 48) 16) (m : List Byte) :
    Nat → Nat → List Byte → LoopEnd
  | 0, _, out => .blocks out
  | n + 1, i, out =>
    let x := blockAt 8 m i
    if primFail p .des k i x.toList then .failedAt i
    else ecbLoop p k ks m n (i + 1) (out ++ (desEncryptBlock ks x).toList)

/-- The result of a block loop and the sequencer steps of the command (R128): `nblk + 2`, or `i + 2`. -/
def LoopEnd.result (nblk : Nat) : LoopEnd → Result × Nat
  | .blocks out => (.success out, nblk + 2)
  | .failedAt i => (.fail .primitiveFailure, i + 2)

/-- `EncAesCbc(KEY, KLEN, IV, IVLEN, IBUF, PLEN)` (R208), with the number of sequencer steps (R128). -/
def encAesCbc (p : Params) (key : Bytes 32) (klen : Nat) (iv : Bytes 16) (ivlen : Nat) (ibuf : Memory) (plen : Nat) :
    Result × Nat :=
  let k := keyPrefix key klen
  let m := pad (plaintext ibuf plen)
  if acceptsAesKeyLen p klen = false then (.fail .invalidParameter, 1)
  else if ivlen ≠ Config.ivLen then (.fail .invalidParameter, 1)
  else if keyReject p .aes k then (.fail .keyError, 1)
  else if p.ibufBytes < plen then (.fail .capacityError, 1)
  else
    (cbcLoop p k (storeSchedule (aesKeyExpansion k) zeroSchedule) (aesRoundCount k) m (m.length / 16) 0 iv []).result
      (m.length / 16)

/-- `EncDesEcb(KEY, KLEN, IBUF, PLEN)` (R235), with the number of sequencer steps (R128). -/
def encDesEcb (p : Params) (key : Bytes 32) (klen : Nat) (ibuf : Memory) (plen : Nat) : Result × Nat :=
  let k := desKey key
  if klen ≠ Config.desKeyLen then (.fail .invalidParameter, 1)
  else if keyReject p .des k.toList then (.fail .keyError, 1)
  else if plen % Config.desBlock ≠ 0 then (.fail .alignmentError, 1)
  else if p.ibufBytes < plen then (.fail .capacityError, 1)
  else (ecbLoop p k.toList (desKeySchedule k) (plaintext ibuf plen) (plen / 8) 0 []).result (plen / 8)

/-- `Run(w)` (R128), on the state at issue, with the number of sequencer steps, for a word that is not `CLEAR`. -/
def runCommand (w : Word) (s : State) : Result × Nat :=
  match decode w with
  | .ok .encAesCbcPkcs7 =>
    encAesCbc s.params s.key s.klen.toNat s.iv s.ivlen.toNat s.ibuf s.plen.toNat
  | .ok .encDesEcbNone => encDesEcb s.params s.key s.klen.toNat s.ibuf s.plen.toNat
  | .ok .clear => (.success [], 0)
  | .error _ => (.fail .illegalCommand, 1)

/-- The state in which a command that ended with `r` leaves the core (R128): the result, and every other element of R21 as
after reset. -/
def resultState (r : Result) (p : Params) : State :=
  match r with
  | .success c =>
    { State.resetWith p with
      done := true, olen := BitVec.ofNat 32 c.length, obuf := Memory.writeBytes [] 0 c }
  | .fail k => { State.resetWith p with err := k.code }

end Sys2Proof.Machine
end

