-- ==== Sys2Proof/Machine/Program.lean ====
section
/-! DEFINITION. The notation for host programs (30_encoding.md R99) and its pseudo-instructions (R100): what accesses they
stand for. They are the host's, not commands of the core. -/

namespace Sys2Proof.Machine

/-- A line of R99. -/
inductive Line where
  | wr (addr : Addr) (word : Word)
  | rd (addr : Addr)
  | cmd (i : Instr)
  | cmdw (word : Word)
  deriving DecidableEq, Repr

/-- A pseudo-instruction of R100; `wait` with the number of polls it took, `getCt` with the `OLEN` it read. -/
inductive Pseudo where
  | setKey (bytes : List Byte)
  | setIv (bytes : List Byte)
  | setPt (bytes : List Byte)
  | wait (polls : Nat)
  | getCt (olen : Nat)
  deriving DecidableEq, Repr

/-- The register names of R99 that stand for their addresses. -/
inductive PortName where
  | cmd
  | status
  | klen
  | ivlen
  | plen
  | olen
  | key
  | iv
  | ibuf
  | obuf
  deriving DecidableEq, Repr

/-- The address a register name stands for (R99). -/
def PortName.addr : PortName → Addr
  | .cmd    => 0x000000
  | .status => 0x000004
  | .klen   => 0x000008
  | .ivlen  => 0x00000C
  | .plen   => 0x000010
  | .olen   => 0x000014
  | .key    => 0x000020
  | .iv     => 0x000040
  | .ibuf   => 0x400000
  | .obuf   => 0x800000

/-- The host access of a line (R99). -/
def Line.input : Line → Input
  | .wr a w => .hostWrite a w
  | .rd a => .hostRead a
  | .cmd i => .hostWrite PortName.cmd.addr (encode i)
  | .cmdw w => .hostWrite PortName.cmd.addr w

/-- `ceil(n/4)` (R100). -/
def wordCount (n : Nat) : Nat := (n + 3) / 4

/-- `Words(bytes)` (R100): the bytes, padded with zero bytes to a multiple of 4, packed as R66 says. -/
def packWords (bytes : List Byte) : List Word :=
  (List.range (wordCount bytes.length)).map fun j =>
    packWord (bytes.getD (4 * j) 0) (bytes.getD (4 * j + 1) 0) (bytes.getD (4 * j + 2) 0) (bytes.getD (4 * j + 3) 0)

/-- The first `n` bytes of the unpacked words (R100, `GETCT`). -/
def unpackWords (n : Nat) (ws : List Word) : List Byte := (ws.flatMap wordBytes).take n

/-- The address `name + 4j` (R99, R100). -/
def PortName.at (name : PortName) (j : Nat) : Addr := name.addr + BitVec.ofNat 24 (4 * j)

/-- `WR name+4j, W[j]` for each word, then the length (R100). -/
def loadLines (window length : PortName) (bytes : List Byte) : List Line :=
  ((packWords bytes).zipIdx.map fun (w, j) => Line.wr (window.at j) w) ++
    [.wr length.addr (BitVec.ofNat 32 bytes.length)]

/-- The expansions of R100. -/
def Pseudo.expand : Pseudo → List Line
  | .setKey bytes => loadLines .key .klen bytes
  | .setIv bytes => loadLines .iv .ivlen bytes
  | .setPt bytes => loadLines .ibuf .plen bytes
  | .wait polls => List.replicate polls (.rd PortName.status.addr)
  | .getCt olen =>
    .rd PortName.olen.addr :: (List.range (wordCount olen)).map fun j => .rd (PortName.obuf.at j)

/-- The side conditions of R100 on the lengths. -/
def Pseudo.wf (p : Params) : Pseudo → Bool
  | .setKey bytes => decide (bytes.length ≤ Config.keyBytes)
  | .setIv bytes => decide (bytes.length ≤ Config.ivLen)
  | .setPt bytes => decide (bytes.length ≤ p.ibufBytes)
  | .wait polls => decide (0 < polls)
  | .getCt olen => decide (olen ≤ p.obufBytes)

/-- `WAIT` ends on this answer to `RD STATUS`: bit 0 is 0 (R100). -/
def waitEnds : Response → Bool
  | .okayData w => !statusBusy w
  | .okay => false
  | .error => false

/-- The accesses of a sequence of lines. -/
def inputsOf (lines : List Line) : List Input := lines.map Line.input

end Sys2Proof.Machine
end

