-- ==== Sys2Proof/Safety.lean ====
section
/-! DEFINITION. What a safe run is: the invariant of the reachable states (10_state.md R24, R41, R44, R47) and how much two
states look alike to the host. -/

namespace Sys2Proof.Safety

open Sys2Proof.Machine

/-- Both arrays are in canonical form and lie inside their windows, and the parameters meet R7. -/
structure Shape (s : State) : Prop where
  params : s.params.wf = true
  ibufWf : Memory.wf s.ibuf
  obufWf : Memory.wf s.obuf
  ibufIn : Memory.within s.ibuf s.params.ibufBytes
  obufIn : Memory.within s.obuf s.params.obufBytes

/-- No command is under way in the registers of the sequencer: R47 (a). -/
def Unstarted (s : State) : Prop :=
  s.blk = 0 ∧ s.nblk = 0 ∧ s.chain = zeroBytes 16 ∧ s.rk = zeroSchedule ∧ s.nr = 0 ∧ s.ks = zeroKeys

/-- There is no result: what R47 (b), (c) and R24 (d) say of `DONE`, `ERR` and `OLEN`. -/
def NoResult (s : State) : Prop := s.done = false ∧ s.err = 0 ∧ s.olen = 0

/-- `OBUF` is zero from byte `n` on. -/
def ZeroFrom (s : State) (n : Nat) : Prop := ∀ a, n ≤ a → s.obuf.read a = 0

/-- What holds in `IDLE`: R47 (a), (d), (e), R24 (b), (c), (d), and the codes of R250. -/
structure IdleInv (s : State) : Prop where
  cmdw : s.cmdw = 0
  unstarted : Unstarted s
  doneErr : s.done = true → s.err = 0
  notDone : s.done = false → s.olen = 0 ∧ s.obuf = []
  errCode : s.err.toNat ≤ 6
  olenFits : s.olen.toNat ≤ s.params.obufBytes
  zeroAfter : ZeroFrom s s.olen.toNat

/-- What holds in `CHECK`: R47 (c), and `CLEAR` is never latched (R114). -/
structure CheckInv (s : State) : Prop where
  notClear : decode s.cmdw ≠ .ok .clear
  unstarted : Unstarted s
  noResult : NoResult s
  obuf : s.obuf = []

/-- An AES command in `BLOCK`: its checks have passed (R201), its schedule and block count are as R204 set them. -/
structure AesBlock (s : State) : Prop where
  word : decode s.cmdw = .ok .encAesCbcPkcs7
  keyLen : acceptsAesKeyLen s.params s.klen.toNat = true
  ivLen : s.ivlen = 16
  fits : s.plen.toNat ≤ s.params.ibufBytes
  schedule : s.rk = storeSchedule (aesKeyExpansion (keyOperand s)) zeroSchedule
  rounds : s.nr = BitVec.ofNat 4 (aesRoundCount (keyOperand s))
  blocks : s.nblk.toNat = s.plen.toNat / 16 + 1
  keys : s.ks = zeroKeys
  first : s.blk = 0 → s.chain = s.iv
  later : 0 < s.blk.toNat → s.chain = s.obuf.readBytes (16 * (s.blk.toNat - 1)) 16
  zeroAfter : ZeroFrom s (16 * s.blk.toNat)

/-- A DES command in `BLOCK`: its checks have passed (R231), its schedule and block count are as R232 set them. -/
structure DesBlock (s : State) : Prop where
  word : decode s.cmdw = .ok .encDesEcbNone
  keyLen : s.klen = 8
  multiple : s.plen.toNat % 8 = 0
  fits : s.plen.toNat ≤ s.params.ibufBytes
  schedule : s.ks = desKeySchedule (desKey s.key)
  blocks : s.nblk.toNat = s.plen.toNat / 8
  chain : s.chain = zeroBytes 16
  rk : s.rk = zeroSchedule
  nr : s.nr = 0
  zeroAfter : ZeroFrom s (8 * s.blk.toNat)

/-- What holds in `BLOCK`: R47 (b), with the command under way. -/
structure BlockInv (s : State) : Prop where
  noResult : NoResult s
  blkLe : s.blk.toNat ≤ s.nblk.toNat
  command : AesBlock s ∨ DesBlock s

/-- The invariant of the reachable states. -/
structure SafeState (s : State) : Prop where
  shape : Shape s
  idle : s.phase = .idle → IdleInv s
  check : s.phase = .check → CheckInv s
  block : s.phase = .block → BlockInv s

/-- The hardware of a state with its environment taken away: what is left is R21 and the parameters. -/
def bare (s : State) : State := { s with inputs := [], response := none }

/-- Two states in which a host that reads sees the same at every address: equal parameters and lengths, equally busy, and, when
both are idle, equal results. They may differ in `KEY`, `IV`, `IBUF` and in how far a running command has come. -/
structure LooksAlike (s t : State) : Prop where
  params : s.params = t.params
  klen : s.klen = t.klen
  ivlen : s.ivlen = t.ivlen
  plen : s.plen = t.plen
  busyBoth : busy s = busy t
  idle : busy s = false → s.done = t.done ∧ s.err = t.err ∧ s.olen = t.olen ∧ ∀ a, s.obuf.read a = t.obuf.read a

/-- `Mapped(addr)` in numbers (R65). -/
def Mapped (p : Params) (a : Nat) : Prop :=
  a < 0x18 ∨ (0x20 ≤ a ∧ a < 0x50) ∨ (0x400000 ≤ a ∧ a < 0x400000 + p.ibufBytes) ∨
    (0x800000 ≤ a ∧ a < 0x800000 + p.obufBytes)

/-- `n` steps of the machine. -/
abbrev runs (n : Nat) (s : State) : Host.Outcome State Fault Refusal := Host.Core.run Sys2Proof.core n s

/-- The command word `w`, written to `CMD` in `s` with no other input after it, has run to its end in `t`. -/
def Completes (w : Word) (s t : State) : Prop :=
  ∃ n, 0 < n ∧ runs n { s with inputs := [.hostWrite 0 w] } = .next t ∧ t.phase = .idle

/-- Block `i` of an AES ciphertext, `OBUF[16i..16i+16)`. -/
def aesCipherBlock (s : State) (i : Nat) : Bytes 16 := s.obuf.readBytes (16 * i) 16

/-- Block `i` of a DES ciphertext, `OBUF[8i..8i+8)`. -/
def desCipherBlock (s : State) (i : Nat) : Bytes 8 := s.obuf.readBytes (8 * i) 8

/-- The operands an AES command succeeds on, whatever the plaintext (R201), with `prim_fail` at its default. -/
structure AesReady (s : State) : Prop where
  idle : s.phase = .idle
  keyLen : acceptsAesKeyLen s.params s.klen.toNat = true
  ivLen : s.ivlen = 16
  keyAccepted : keyReject s.params .aes (keyOperand s) = false
  fits : s.plen.toNat ≤ s.params.ibufBytes
  noPrimFail : s.params.primFail = []

/-- The operands a DES command succeeds on (R231), with `prim_fail` at its default. -/
structure DesReady (s : State) : Prop where
  idle : s.phase = .idle
  keyLen : s.klen = 8
  keyAccepted : keyReject s.params .des (desKey s.key).toList = false
  multiple : s.plen.toNat % 8 = 0
  fits : s.plen.toNat ≤ s.params.ibufBytes
  noPrimFail : s.params.primFail = []

/-- Multiplication in the field of R142, from `xtime`: the terms of `b` from the highest. -/
def gfMul (a b : Byte) : Byte :=
  (List.range 8).foldr (fun i acc => (if b.getLsbD i then a else 0) ^^^ xtime acc) 0

/-- The 16 bytes of a 128-bit number, the first byte the most significant (R11). -/
def aesBytes (v : Nat) : Bytes 16 := Vector.ofFn fun i => BitVec.ofNat 8 (v / 256 ^ (15 - i.val))

/-- The 8 bytes of a 64-bit number, the first byte the most significant (R11). -/
def desWordBytes (v : Nat) : Bytes 8 := Vector.ofFn fun i => BitVec.ofNat 8 (v / 256 ^ (7 - i.val))

end Sys2Proof.Safety
end

