-- ==== Sys2Proof/Certificates/Slice0/Obligations.lean ====
section
/-! DEFINITION. The statements about the model, each taken from the spec. Stated only; nothing is proved here.

Below, `{ s with inputs := x :: rest }` is a state whose next input is `x`; a step takes it and leaves `rest`. Where a statement
is about every state, it holds in states no run reaches too, unless it assumes `SafeState` (an obligation of its own). The fields
`inputs`, `response` and `params` are the model's own (log entries 1, 4 and 5): they say which access or turn a step is, what the
port answers and for which implementation the rule is stated. -/

open Sys2Proof Sys2Proof.Machine Sys2Proof.Safety

/-! ## Encoding (30_encoding.md) -/

/-- R92: the three legal words, each with its fields and its command; the match is on all 32 bits. -/
def Obligations.DecodeMatchesOpcodeMap : Prop :=
  (∀ (w : Word) (i : Instr), decode w = .ok i ↔
    (w = 0x00000141 ∧ i = .encAesCbcPkcs7) ∨ (w = 0x00000011 ∧ i = .encDesEcbNone) ∨ (w = 0x00000002 ∧ i = .clear)) ∧
  fieldsOf 0x00000141 = { op := 1, cipher := 0, mode := 1, pad := 1, zero := 0 } ∧
  fieldsOf 0x00000011 = { op := 1, cipher := 1, mode := 0, pad := 0, zero := 0 } ∧
  fieldsOf 0x00000002 = { op := 2, cipher := 0, mode := 0, pad := 0, zero := 0 }

/-- R95: which words are illegal, by class and by count, and that all are treated alike: in `CHECK`, whatever illegal word is
latched, the sequencer does the same. -/
def Obligations.IllegalWordsFallInFiveClasses : Prop :=
  (∀ w : Word, (∃ e, decode w = .error e) ↔ w ≠ 0x141 ∧ w ≠ 0x011 ∧ w ≠ 0x002) ∧
  (∀ w : Word, (∃ e, decode w = .error e) ↔
    let op := w.extractLsb' 0 4
    let cipher := w.extractLsb' 4 2
    let mode := w.extractLsb' 6 2
    let pad := w.extractLsb' 8 2
    (op = 0 ∨ 3 ≤ op.toNat) ∨
    (op = 1 ∧ (2 ≤ cipher.toNat ∨ 2 ≤ mode.toNat ∨ 2 ≤ pad.toNat)) ∨
    (w.extractLsb' 0 10 = 0x001 ∨ w.extractLsb' 0 10 = 0x101 ∨ w.extractLsb' 0 10 = 0x041 ∨
      w.extractLsb' 0 10 = 0x111 ∨ w.extractLsb' 0 10 = 0x051 ∨ w.extractLsb' 0 10 = 0x151) ∨
    (op = 2 ∧ (cipher ≠ 0 ∨ mode ≠ 0 ∨ pad ≠ 0)) ∨
    w.extractLsb' 10 22 ≠ 0) ∧
  (∀ (s : State) (w w' : Word), s.phase = .check → (∃ e, decode w = .error e) → (∃ e, decode w' = .error e) →
    sequencerTurn { s with cmdw := w } = sequencerTurn { s with cmdw := w' })

/-- The decoder on bytes and the encoder agree, in both directions (R66, R90, R92): the bytes that decode to `i` are exactly
those of its word. -/
def Obligations.DecodeBytesIffEncodeBytes : Prop :=
  ∀ (bytes rest : List Byte) (i : Instr), decodeBytes bytes = .ok (i, rest) ↔ bytes = encodeBytes i ++ rest

/-- The fields that decode are exactly the well-formed ones, and they are those of the instruction (R91, R92). -/
def Obligations.WellFormedFieldsDecode : Prop :=
  ∀ f : CmdFields, (f.wf = true ↔ ∃ i, decodeFields f = .ok i) ∧
    (∀ i, decodeFields f = .ok i ↔ f = instrFields i) ∧ fieldsOf (packFields f) = f

/-- The words of R92, bit by bit, decode to their commands (sanity). -/
def Obligations.OpcodeTableWordsDecode : Prop :=
  decodeTableWord 32 0b00000000000000000000000101000001 = some .encAesCbcPkcs7 ∧
  decodeTableWord 32 0b00000000000000000000000000010001 = some .encDesEcbNone ∧
  decodeTableWord 32 0b00000000000000000000000000000010 = some .clear ∧
  decodeTableWord 32 0b00000000000000000000000000000001 = none ∧
  decodeTableWord 32 0b10000000000000000000000101000001 = none

/-! ## Reset (70_reset_and_hazards.md) and the step -/

/-- R281: the reset state element by element; the reset input reaches it from every state; and it is the state after `CLEAR`. -/
def Obligations.ResetStateIsAllZero : Prop :=
  ∀ s : State, ∃ t, (∀ rest, step { s with inputs := .reset :: rest } = .next { t with inputs := rest }) ∧
    (bare t = bare (State.resetWith s.params)) ∧ (s.phase = .idle → ∃ u, exec .clear s = .next u ∧ bare u = bare t) ∧
    t.phase = .idle ∧ t.done = false ∧ t.err = 0 ∧ t.klen = 0 ∧ t.ivlen = 0 ∧ t.plen = 0 ∧ t.olen = 0 ∧
    (∀ (i : Nat) (h : i < 32), t.key[i] = 0) ∧ (∀ (i : Nat) (h : i < 16), t.iv[i] = 0) ∧
    (∀ a, t.ibuf.read a = 0) ∧ (∀ a, t.obuf.read a = 0) ∧ t.cmdw = 0 ∧ t.blk = 0 ∧ t.nblk = 0 ∧
    (∀ (i : Nat) (h : i < 16), t.chain[i] = 0) ∧
    (∀ (i j : Nat) (h : i < 60) (h' : j < 4), t.rk[i][j] = 0) ∧ t.nr = 0 ∧ (∀ (i : Nat) (h : i < 16), t.ks[i] = 0) ∧
    hostRead t 0x004 = .okayData 0

/-- The next input, or with none left the sequencer, decides what a step runs: a command word written to `CMD` in `IDLE` and a
command word latched in `cmdw` run the command they decode to. A `CMD` write runs it on the state with the port's answer. -/
def Obligations.StepRunsDecodedCommand : Prop :=
  (∀ (s : State) (w : Word) (i : Instr) (rest : List Input), s.phase = .idle → decode w = .ok i →
    step { s with inputs := .hostWrite 0x000000 w :: rest } = exec i { s with inputs := rest, response := some .okay }) ∧
  (∀ (s : State) (i : Instr) (rest : List Input), s.phase ≠ .idle → decode s.cmdw = .ok i →
    step { s with inputs := .sequencer :: rest } = exec i { s with inputs := rest }) ∧
  (∀ (s : State) (i : Instr), s.phase ≠ .idle → decode s.cmdw = .ok i → s.inputs = [] → step s = exec i s)

/-- The model's own choice (log entry 7), no rule of the spec: `withFetchWord` makes the very next step run the instruction, from
every state, with the inputs that were there still to come. -/
def Obligations.FetchWordRunsNext : Prop :=
  ∀ (s : State) (nbits w : Nat) (i : Instr), decodeTableWord nbits w = some i →
    step (s.withFetchWord nbits w) = exec i { s with phase := .idle, response := some .okay }

/-! ## The port (20_memory.md) -/

/-- R65 in numbers: the ranges that are mapped and the element each names. -/
def Obligations.AddressMapNamesElements : Prop :=
  ∀ (p : Params) (a : Addr), p.wf = true →
    ((locate p a).isSome = true ↔ Mapped p a.toNat) ∧
    (a.toNat < 4 → locate p a = some .cmd) ∧ (4 ≤ a.toNat → a.toNat < 8 → locate p a = some .status) ∧
    (8 ≤ a.toNat → a.toNat < 0xC → locate p a = some .klen) ∧
    (0xC ≤ a.toNat → a.toNat < 0x10 → locate p a = some .ivlen) ∧
    (0x10 ≤ a.toNat → a.toNat < 0x14 → locate p a = some .plen) ∧
    (0x14 ≤ a.toNat → a.toNat < 0x18 → locate p a = some .olen) ∧
    (∀ o, o < 32 → a.toNat = 0x20 + o → locate p a = some (.key o)) ∧
    (∀ o, o < 16 → a.toNat = 0x40 + o → locate p a = some (.iv o)) ∧
    (∀ o, o < p.ibufBytes → a.toNat = 0x400000 + o → locate p a = some (.ibuf o)) ∧
    (∀ o, o < p.obufBytes → a.toNat = 0x800000 + o → locate p a = some (.obuf o))

/-- R62 and R257: in every phase, a misaligned access, an access of another width and an access to an unmapped address answer
`ERROR` and change nothing, a running command included. -/
def Obligations.BadAccessAnswersError : Prop :=
  ∀ (s : State) (rest : List Input),
    (∀ a : Addr, a.toNat % 4 ≠ 0 ∨ ¬ Mapped s.params a.toNat →
      step { s with inputs := .hostRead a :: rest } = .next { s with inputs := rest, response := some .error } ∧
      ∀ v, step { s with inputs := .hostWrite a v :: rest } = .next { s with inputs := rest, response := some .error }) ∧
    (∀ (width : OtherWidth) (isWrite : Bool) (a : Addr),
      step { s with inputs := .hostOtherWidth width isWrite a :: rest } =
        .next { s with inputs := rest, response := some .error })

/-- R63: `HostRead` at every address, and a read never changes state. `BusyReadValue` is R75's. -/
def Obligations.HostReadAnswers : Prop :=
  ∀ s : State, s.params.wf = true →
    (∀ (a : Addr) (rest : List Input), step { s with inputs := .hostRead a :: rest } =
      .next { s with inputs := rest, response := some (hostRead s a) }) ∧
    (∀ a : Addr, a.toNat % 4 ≠ 0 ∨ ¬ Mapped s.params a.toNat → hostRead s a = .error) ∧
    (s.phase ≠ .idle → ∀ a : Addr, a.toNat % 4 = 0 → Mapped s.params a.toNat →
      hostRead s a = .okayData
        (if a = 0x004 then 0x00000001 else if a = 0x008 then s.klen.setWidth 32
          else if a = 0x00C then s.ivlen.setWidth 32 else if a = 0x010 then s.plen else 0)) ∧
    (s.phase = .idle →
      hostRead s 0x000 = .okayData 0 ∧
      hostRead s 0x004 = .okayData ((s.err.setWidth 32 <<< 4) ||| (if s.done then 2 else 0)) ∧
      hostRead s 0x008 = .okayData (s.klen.setWidth 32) ∧
      hostRead s 0x00C = .okayData (s.ivlen.setWidth 32) ∧
      hostRead s 0x010 = .okayData s.plen ∧
      hostRead s 0x014 = .okayData s.olen ∧
      (∀ o, o % 4 = 0 → o < 32 → hostRead s (BitVec.ofNat 24 (0x020 + o)) = .okayData 0) ∧
      (∀ o, o % 4 = 0 → o < 16 → hostRead s (BitVec.ofNat 24 (0x040 + o)) = .okayData 0) ∧
      (∀ o, o % 4 = 0 → o < s.params.ibufBytes → hostRead s (BitVec.ofNat 24 (0x400000 + o)) = .okayData 0) ∧
      (∀ o, o % 4 = 0 → o < s.params.obufBytes → hostRead s (BitVec.ofNat 24 (0x800000 + o)) =
        .okayData ((s.obuf.read o).setWidth 32 ||| ((s.obuf.read (o + 1)).setWidth 32 <<< 8) |||
          ((s.obuf.read (o + 2)).setWidth 32 <<< 16) ||| ((s.obuf.read (o + 3)).setWidth 32 <<< 24))))

/-- `HostWrite` in `IDLE` at every address but `CMD` (R64 without its remark on what commands read): the element written, byte by
byte, and nothing else. -/
def Obligations.HostWriteStoresInIdle : Prop :=
  ∀ (s : State) (v : Word) (rest : List Input), s.params.wf = true → s.phase = .idle →
    let ok : State := { s with inputs := rest, response := some .okay }
    let write : Addr → Host.Outcome State Fault Refusal := fun a => step { s with inputs := .hostWrite a v :: rest }
    write 0x004 = .next ok ∧ write 0x014 = .next ok ∧
    (∀ o, o % 4 = 0 → o < s.params.obufBytes → write (BitVec.ofNat 24 (0x800000 + o)) = .next ok) ∧
    write 0x008 = .next { ok with klen := v.extractLsb' 0 8 } ∧
    write 0x00C = .next { ok with ivlen := v.extractLsb' 0 8 } ∧
    write 0x010 = .next { ok with plen := v } ∧
    (∀ o, o % 4 = 0 → o < 32 → ∃ k : Bytes 32,
      write (BitVec.ofNat 24 (0x020 + o)) = .next { ok with key := k } ∧ ∀ (i : Nat) (h : i < 32),
        k[i] = if o ≤ i ∧ i < o + 4 then v.extractLsb' (8 * (i - o)) 8 else s.key[i]) ∧
    (∀ o, o % 4 = 0 → o < 16 → ∃ k : Bytes 16,
      write (BitVec.ofNat 24 (0x040 + o)) = .next { ok with iv := k } ∧ ∀ (i : Nat) (h : i < 16),
        k[i] = if o ≤ i ∧ i < o + 4 then v.extractLsb' (8 * (i - o)) 8 else s.iv[i]) ∧
    (Memory.wf s.ibuf → ∀ o, o % 4 = 0 → o < s.params.ibufBytes → ∃ m : Memory,
      write (BitVec.ofNat 24 (0x400000 + o)) = .next { ok with ibuf := m } ∧ Memory.wf m ∧ ∀ a,
        m.read a = if o ≤ a ∧ a < o + 4 then v.extractLsb' (8 * (a - o)) 8 else s.ibuf.read a)

/-- Writing a length register or an input window twice is writing it once (R68). -/
def Obligations.OperandWritesAreIdempotent : Prop :=
  ∀ (s : State) (a : Addr) (v : Word) (rest : List Input), Memory.wf s.ibuf → a ≠ 0 →
    ∃ t, step { s with inputs := .hostWrite a v :: rest } = .next t ∧ t.inputs = rest ∧
      step { t with inputs := .hostWrite a v :: rest } = .next t

/-- R75 and R112: while a command runs, every mapped aligned write, `CMD` and `CLEAR` among them, answers `OKAY` and changes
nothing; the reads answer `BusyReadValue`; unmapped and misaligned accesses answer `ERROR` as in `IDLE`. -/
def Obligations.RunningCommandIsUndisturbed : Prop :=
  ∀ (s : State) (rest : List Input), s.phase ≠ .idle → s.params.wf = true →
    (∀ (a : Addr) (v : Word), a.toNat % 4 = 0 → Mapped s.params a.toNat →
      step { s with inputs := .hostWrite a v :: rest } = .next { s with inputs := rest, response := some .okay }) ∧
    (∀ w, step { s with inputs := .hostWrite 0x000000 w :: rest } = .next { s with inputs := rest, response := some .okay }) ∧
    step { s with inputs := .hostWrite 0x000000 (encode .clear) :: rest } =
      .next { s with inputs := rest, response := some .okay } ∧
    (∀ a : Addr, a.toNat % 4 = 0 → Mapped s.params a.toNat →
      step { s with inputs := .hostRead a :: rest } = .next { s with inputs := rest, response := some (.okayData
        (if a = 0x004 then 0x00000001 else if a = 0x008 then s.klen.setWidth 32
          else if a = 0x00C then s.ivlen.setWidth 32 else if a = 0x010 then s.plen else 0)) }) ∧
    (∀ a : Addr, a.toNat % 4 ≠ 0 ∨ ¬ Mapped s.params a.toNat →
      step { s with inputs := .hostRead a :: rest } = .next { s with inputs := rest, response := some .error } ∧
      ∀ v, step { s with inputs := .hostWrite a v :: rest } = .next { s with inputs := rest, response := some .error })

/-- No read tells `KEY`, `IV`, `IBUF` or the progress of a running command from other values of them (R29 to R33, R70, R75). -/
def Obligations.ReadsRevealNothingHidden : Prop :=
  ∀ (s t : State), LooksAlike s t → ∀ a, hostRead s a = hostRead t a

/-- R70 (c): host accesses put anywhere between the sequencer's turns change nothing the sequencer does, and no host access can
tell how far it has come, as long as the command runs. -/
def Obligations.InterleavingIsUnobservable : Prop :=
  ∀ (s u : State) (sched : List Input), (∀ x ∈ sched, x ≠ .reset) →
    runs (sched.count .sequencer) { s with inputs := List.replicate (sched.count .sequencer) .sequencer } = .next u →
    busy u = true →
    ∃ v, runs sched.length { s with inputs := sched } = .next v ∧ bare v = bare u ∧ ∀ a, hostRead v a = hostRead s a

/-! ## Issue, `CLEAR`, completion (40_command_lifecycle.md, 60_exceptions.md) -/

/-- R111: issue, at the port and as the first step of each command, with everything it leaves alone. -/
def Obligations.IssueLatchesTheWord : Prop :=
  ∀ (s : State) (w : Word) (rest : List Input), s.phase = .idle →
    let issued : State := { s with cmdw := w, done := false, err := 0, olen := 0, obuf := [], phase := .check }
    (decode w ≠ .ok .clear → step { s with inputs := .hostWrite 0x000000 w :: rest } =
      .next { issued with inputs := rest, response := some .okay }) ∧
    (w = encode .encAesCbcPkcs7 → exec .encAesCbcPkcs7 s = .next issued) ∧
    (w = encode .encDesEcbNone → exec .encDesEcbNone s = .next issued) ∧
    (∀ a, issued.obuf.read a = 0) ∧
    (decode w = .ok .clear → ∃ t, exec .clear { s with inputs := rest, response := some .okay } = .next t ∧
      t.phase = .idle ∧ step { s with inputs := .hostWrite 0x000000 w :: rest } = .next t)

/-- R113: `CLEAR` completes in `IDLE`, within its `CMD` write; every register, array and flag is then at its reset value and only
parameters and environment are left; from the reset state it changes nothing, twice is once, and while a command runs it is
dropped. -/
def Obligations.ClearCompletesInResetState : Prop :=
  (∀ s : State, s.phase = .idle → ∃ t,
    exec .clear s = .next t ∧ t = { State.resetWith s.params with inputs := s.inputs, response := s.response } ∧
    exec .clear t = .next t ∧
    (∀ rest, step { s with inputs := .hostWrite 0x000000 0x00000002 :: rest } =
      .next { t with inputs := rest, response := some .okay }) ∧
    (bare s = bare (State.resetWith s.params) → bare t = bare s)) ∧
  (∀ (s : State) (rest : List Input), s.phase ≠ .idle → step { s with inputs := .hostWrite 0x000000 0x00000002 :: rest } =
    .next { s with inputs := rest, response := some .okay })

/-- R96: an illegal word written in `IDLE` is issued, and fails in its one sequencer step with `IllegalCommand`: nothing is left
of the operands, whatever they were. -/
def Obligations.IllegalWordFailsInOneStep : Prop :=
  ∀ (s : State) (w : Word) (rest : List Input), s.phase = .idle → (∃ e, decode w = .error e) →
    ∃ t, step { s with inputs := .hostWrite 0x000000 w :: .sequencer :: rest } = .next t ∧
      busy t = true ∧ t.done = false ∧ t.err = 0 ∧ t.olen = 0 ∧ (∀ a, t.obuf.read a = 0) ∧
      step t = .next { State.resetWith s.params with err := 5, inputs := rest, response := some .okay }

/-- R259: whenever a sequencer turn ends a running command without success, the state it leaves is the reset state but for the
code of the kind, whatever had been written before. -/
def Obligations.FailureLeavesOnlyItsCode : Prop :=
  ∀ s t : State, s.phase ≠ .idle → sequencerTurn s = .next t → t.phase = .idle → t.done = false →
    ∃ k : ErrorKind, t = { State.resetWith s.params with err := k.code, inputs := s.inputs, response := s.response } ∧
      hostRead t 0x004 = .okayData (k.code.setWidth 32 <<< 4) ∧ ∀ a, t.obuf.read a = 0

/-- R125: every completion, success or failure, and every `CLEAR` wipe every input and every intermediate value. -/
def Obligations.CompletionWipesOperands : Prop :=
  ∀ (s t : State), ((s.phase ≠ .idle ∧ sequencerTurn s = .next t ∧ t.phase = .idle) ∨ exec .clear s = .next t) →
    t.klen = 0 ∧ t.ivlen = 0 ∧ t.plen = 0 ∧ (∀ (i : Nat) (h : i < 32), t.key[i] = 0) ∧
    (∀ (i : Nat) (h : i < 16), t.iv[i] = 0) ∧ (∀ a, t.ibuf.read a = 0) ∧ t.cmdw = 0 ∧ t.blk = 0 ∧ t.nblk = 0 ∧
    (∀ (i : Nat) (h : i < 16), t.chain[i] = 0) ∧ (∀ (i j : Nat) (h : i < 60) (h' : j < 4), t.rk[i][j] = 0) ∧
    t.nr = 0 ∧ ∀ (i : Nat) (h : i < 16), t.ks[i] = 0

/-- R250: the codes, and which command can end with which: from a step of a running command, an AES command fails with 1, 2, 4 or
6, a DES command with 1, 2, 3, 4 or 6, any other word with 5; 2 and 4 come only through `key_reject` and `prim_fail`; nothing but the code
is recorded. -/
def Obligations.ErrorCodesByCommand : Prop :=
  ErrorKind.code .invalidParameter = 1 ∧ ErrorKind.code .keyError = 2 ∧ ErrorKind.code .alignmentError = 3 ∧
  ErrorKind.code .primitiveFailure = 4 ∧ ErrorKind.code .illegalCommand = 5 ∧ ErrorKind.code .capacityError = 6 ∧
  ∀ s t : State, s.phase ≠ .idle → sequencerTurn s = .next t → t.phase = .idle → t.done = false →
    (decode s.cmdw = .ok .encAesCbcPkcs7 → t.err = 1 ∨ t.err = 2 ∨ t.err = 4 ∨ t.err = 6) ∧
    (decode s.cmdw = .ok .encDesEcbNone → t.err = 1 ∨ t.err = 2 ∨ t.err = 3 ∨ t.err = 4 ∨ t.err = 6) ∧
    ((∃ e, decode s.cmdw = .error e) → t.err = 5) ∧
    (t.err = 2 → s.params.keyReject ≠ []) ∧ (t.err = 4 → s.params.primFail ≠ []) ∧
    t = { State.resetWith s.params with err := t.err, inputs := s.inputs, response := s.response }

/-- The transfers of `phase` are those of R129 and no others, with what each does to `blk` and `nblk`. -/
def Obligations.PhaseTransfersAreComplete : Prop :=
  ∀ s t : State, step s = .next t → (∀ rest, s.inputs ≠ .reset :: rest) →
    (s.phase = .idle → t.phase = .idle ∨ (t.phase = .check ∧ t.blk = s.blk ∧ t.nblk = s.nblk ∧
      ∃ w rest, s.inputs = .hostWrite 0 w :: rest ∧ decode w ≠ .ok .clear ∧ t.cmdw = w)) ∧
    (s.phase = .check → (bare t = bare s ∧ t.phase = .check) ∨ (t.phase = .block ∧ t.blk = 0) ∨ t.phase = .idle) ∧
    (s.phase = .block → (bare t = bare s ∧ t.phase = .block) ∨
      (t.phase = .block ∧ s.blk ≠ s.nblk ∧ t.blk = s.blk + 1 ∧ t.nblk = s.nblk) ∨
      (t.phase = .idle ∧ (s.blk = s.nblk ↔ t.done = true)))

/-- A step keeps the parameters, and a turn of the sequencer that does not end its command keeps every operand (R69, R72). -/
def Obligations.SequencerKeepsOperands : Prop :=
  (∀ s t : State, step s = .next t → t.params = s.params) ∧
  (∀ s t : State, sequencerTurn s = .next t → t.phase ≠ .idle →
    t.key = s.key ∧ t.klen = s.klen ∧ t.iv = s.iv ∧ t.ivlen = s.ivlen ∧ t.ibuf = s.ibuf ∧ t.plen = s.plen ∧
    t.cmdw = s.cmdw ∧ t.done = s.done ∧ t.err = s.err ∧ t.olen = s.olen ∧ t.inputs = s.inputs ∧ t.response = s.response)

/-! ## `ENC.AES.CBC.PKCS7` (43_cbc_encryptor.md) -/

/-- R201: the checks of the command in their order; when all pass, R204's start, with all it leaves alone. -/
def Obligations.AesChecksInOrder : Prop :=
  ∀ s : State, s.phase = .check →
    let accepted : Prop := (s.klen = 16 ∧ s.params.aesKey16 = true) ∨ (s.klen = 24 ∧ s.params.aesKey24 = true) ∨
      (s.klen = 32 ∧ s.params.aesKey32 = true)
    let fails : ErrorKind → Prop := fun k => exec .encAesCbcPkcs7 s =
      .next { State.resetWith s.params with err := k.code, inputs := s.inputs, response := s.response }
    let rejected := keyReject s.params .aes (s.key.toList.take s.klen.toNat)
    (¬ accepted → fails .invalidParameter) ∧
    (accepted → s.ivlen ≠ 16 → fails .invalidParameter) ∧
    (accepted → s.ivlen = 16 → rejected = true → fails .keyError) ∧
    (accepted → s.ivlen = 16 → rejected = false → s.params.ibufBytes < s.plen.toNat → fails .capacityError) ∧
    (accepted → s.ivlen = 16 → rejected = false → s.plen.toNat ≤ s.params.ibufBytes →
      ∃ t, exec .encAesCbcPkcs7 s = .next t ∧ t.phase = .block)

/-- R204: the state a command starts its block loop in: the schedule of R147 in the first words of `rk`, the other entries of
`rk` and every other element as they were. -/
def Obligations.AesStartBuildsSchedule : Prop :=
  ∀ s : State, s.phase = .check → acceptsAesKeyLen s.params s.klen.toNat = true → s.ivlen = 16 →
    keyReject s.params .aes (keyOperand s) = false → s.plen.toNat ≤ s.params.ibufBytes →
    ∃ rk : AesSchedule,
      exec .encAesCbcPkcs7 s = .next { s with
        rk := rk, nr := BitVec.ofNat 4 (s.klen.toNat / 4 + 6), chain := s.iv,
        nblk := BitVec.ofNat 32 (s.plen.toNat / 16 + 1), blk := 0, phase := .block } ∧
      (aesKeyExpansion (keyOperand s)).length = 4 * (s.klen.toNat / 4 + 7) ∧
      ∀ (i : Nat) (h : i < 60), rk[i] = (aesKeyExpansion (keyOperand s)).getD i s.rk[i]

/-- R206: a block step: the ciphertext of block `blk` goes to `OBUF[16 blk .. 16 blk + 16)` and to `chain`, every other byte of
`OBUF` and every other element is as it was; where `prim_fail` holds for the block, the command fails with `PrimitiveFailure`. -/
def Obligations.CbcBlockStepEncryptsOneBlock : Prop :=
  ∀ s : State, s.phase = .block → s.blk ≠ s.nblk → Memory.wf s.obuf → (s.nr = 10 ∨ s.nr = 12 ∨ s.nr = 14) →
    16 * s.blk.toNat + 16 ≤ s.params.obufBytes → s.plen.toNat ≤ s.params.ibufBytes →
    let x := xorBytes (cbcInput s s.blk.toNat) s.chain
    let y := aesEncryptBlock s.rk s.nr.toNat x
    (primFail s.params .aes (keyOperand s) s.blk.toNat x.toList = true → exec .encAesCbcPkcs7 s = .next
      { State.resetWith s.params with err := 4, inputs := s.inputs, response := s.response }) ∧
    (primFail s.params .aes (keyOperand s) s.blk.toNat x.toList = false → ∃ m : Memory,
      exec .encAesCbcPkcs7 s = .next { s with obuf := m, chain := y, blk := s.blk + 1 } ∧ Memory.wf m ∧
      (∀ (j : Nat) (h : j < 16), m.read (16 * s.blk.toNat + j) = y[j]) ∧
      ∀ a, a < 16 * s.blk.toNat ∨ 16 * s.blk.toNat + 16 ≤ a → m.read a = s.obuf.read a)

/-- R207: when every block is done the next sequencer step completes the command: `OLEN = 16 nblk`, `DONE`, `OBUF` as it is, and
everything else as after reset. -/
def Obligations.AesFinishReportsLength : Prop :=
  ∀ s : State, s.phase = .block → s.blk = s.nblk →
    exec .encAesCbcPkcs7 s = .next { State.resetWith s.params with
      done := true, olen := BitVec.ofNat 32 (16 * s.nblk.toNat), obuf := s.obuf, inputs := s.inputs, response := s.response }

/-- R202 and R205: the padding, and that the blocks the machine forms are those of the padded plaintext. -/
def Obligations.PaddingFormsTheBlocks : Prop :=
  (∀ p : List Byte, 1 ≤ padLen p.length ∧ padLen p.length ≤ 16 ∧
    padLen p.length = 16 - p.length % 16 ∧
    pad p = p ++ List.replicate (padLen p.length) (BitVec.ofNat 8 (padLen p.length)) ∧
    (pad p).length % 16 = 0 ∧ (pad p).length = 16 * (p.length / 16 + 1)) ∧
  (∀ (s : State) (i : Nat), i < s.plen.toNat / 16 + 1 →
    (∀ (j : Nat) (h : j < 16), (cbcInput s i)[j] =
      if 16 * i + j < s.plen.toNat then s.ibuf.read (16 * i + j) else BitVec.ofNat 8 (padLen s.plen.toNat)) ∧
    cbcInput s i = blockAt 16 (pad (plaintext s.ibuf s.plen.toNat)) i ∧
    (16 * i + 16 ≤ s.plen.toNat → cbcInput s i = s.ibuf.readBytes (16 * i) 16))

/-- The command from its `CMD` write to its end (R200): the ciphertext block by block, its length, and `OBUF` zero after it. -/
def Obligations.AesCommandEncryptsCbc : Prop :=
  ∀ s : State, s.params.wf = true → AesReady s → ∃ t, Completes 0x00000141 s t ∧
    let k := s.key.toList.take s.klen.toNat
    let m := pad (plaintext s.ibuf s.plen.toNat)
    let n := s.plen.toNat / 16 + 1
    let aes := aesEncryptBlock (storeSchedule (aesKeyExpansion k) zeroSchedule) (aesRoundCount k)
    t.done = true ∧ t.err = 0 ∧ t.olen.toNat = 16 * n ∧
    aesCipherBlock t 0 = aes (xorBytes (blockAt 16 m 0) s.iv) ∧
    (∀ i, i + 1 < n → aesCipherBlock t (i + 1) = aes (xorBytes (blockAt 16 m (i + 1)) (aesCipherBlock t i))) ∧
    (∀ a, 16 * n ≤ a → t.obuf.read a = 0)

/-- R209 (c): for one key and plaintext, two IVs that differ give first ciphertext blocks that differ. -/
def Obligations.DifferentIvsDifferentFirstBlock : Prop :=
  ∀ (s : State) (iv : Bytes 16), s.params.wf = true → AesReady s → iv ≠ s.iv → ∃ t t',
    Completes 0x00000141 s t ∧ Completes 0x00000141 { s with iv := iv } t' ∧ t.done = true ∧ t'.done = true ∧
    aesCipherBlock t 0 ≠ aesCipherBlock t' 0

/-- R209 (d): two plaintexts that agree on their first `16m` bytes, and have that many, give ciphertexts that agree on their first
`m` blocks. -/
def Obligations.CbcPrefixProperty : Prop :=
  ∀ (s s' : State) (m : Nat), s.params.wf = true → AesReady s → AesReady s' → s'.params = s.params → s'.klen = s.klen →
    keyOperand s' = keyOperand s → s'.iv = s.iv → 16 * m ≤ s.plen.toNat → 16 * m ≤ s'.plen.toNat →
    (∀ a, a < 16 * m → s'.ibuf.read a = s.ibuf.read a) →
    ∃ t t', Completes 0x00000141 s t ∧ Completes 0x00000141 s' t' ∧ t.done = true ∧ t'.done = true ∧
      ∀ i, i < m → aesCipherBlock t' i = aesCipherBlock t i

/-! ## `ENC.DES.ECB.NONE` (44_ecb_encryptor.md) -/

/-- R231: the checks of the command in their order; `IV` and `IVLEN` are not among them. -/
def Obligations.DesChecksInOrder : Prop :=
  ∀ s : State, s.phase = .check →
    let fails : ErrorKind → Prop := fun k => exec .encDesEcbNone s =
      .next { State.resetWith s.params with err := k.code, inputs := s.inputs, response := s.response }
    let rejected := keyReject s.params .des (s.key.toList.take 8)
    (s.klen ≠ 8 → fails .invalidParameter) ∧
    (s.klen = 8 → rejected = true → fails .keyError) ∧
    (s.klen = 8 → rejected = false → s.plen.toNat % 8 ≠ 0 → fails .alignmentError) ∧
    (s.klen = 8 → rejected = false → s.plen.toNat % 8 = 0 → s.params.ibufBytes < s.plen.toNat → fails .capacityError) ∧
    (s.klen = 8 → rejected = false → s.plen.toNat % 8 = 0 → s.plen.toNat ≤ s.params.ibufBytes →
      ∃ t, exec .encDesEcbNone s = .next t ∧ t.phase = .block)

/-- R232: the state the command starts its block loop in; `chain`, `rk`, `Nr` and every other element stay as they were. -/
def Obligations.DesStartBuildsSchedule : Prop :=
  ∀ s : State, s.phase = .check → s.klen = 8 → keyReject s.params .des (s.key.toList.take 8) = false →
    s.plen.toNat % 8 = 0 → s.plen.toNat ≤ s.params.ibufBytes →
    exec .encDesEcbNone s = .next { s with
      ks := desKeySchedule (desKey s.key), nblk := BitVec.ofNat 32 (s.plen.toNat / 8), blk := 0, phase := .block } ∧
    (desKey s.key).toList = s.key.toList.take 8

/-- R233: a block step: the ciphertext of block `blk` goes to `OBUF[8 blk .. 8 blk + 8)`, every other byte of `OBUF` and every
other element is as it was; where `prim_fail` holds for the block, the command fails with `PrimitiveFailure`. -/
def Obligations.EcbBlockStepEncryptsOneBlock : Prop :=
  ∀ s : State, s.phase = .block → s.blk ≠ s.nblk → Memory.wf s.obuf → 8 * s.blk.toNat + 8 ≤ s.params.ibufBytes →
    let x := s.ibuf.readBytes (8 * s.blk.toNat) 8
    let y := desEncryptBlock s.ks x
    (primFail s.params .des (desKey s.key).toList s.blk.toNat x.toList = true → exec .encDesEcbNone s = .next
      { State.resetWith s.params with err := 4, inputs := s.inputs, response := s.response }) ∧
    (primFail s.params .des (desKey s.key).toList s.blk.toNat x.toList = false → ∃ m : Memory,
      exec .encDesEcbNone s = .next { s with obuf := m, blk := s.blk + 1 } ∧ Memory.wf m ∧
      (∀ (j : Nat) (h : j < 8), m.read (8 * s.blk.toNat + j) = y[j]) ∧
      ∀ a, a < 8 * s.blk.toNat ∨ 8 * s.blk.toNat + 8 ≤ a → m.read a = s.obuf.read a)

/-- R234: when every block is done the next sequencer step completes the command with `OLEN = 8 nblk`, which for a reachable state
is `PLEN`; `OBUF` stays as it is and everything else is as after reset. -/
def Obligations.DesFinishReportsLength : Prop :=
  ∀ s : State, s.phase = .block → s.blk = s.nblk →
    exec .encDesEcbNone s = .next { State.resetWith s.params with
      done := true, olen := BitVec.ofNat 32 (8 * s.nblk.toNat), obuf := s.obuf, inputs := s.inputs, response := s.response } ∧
    (SafeState s → decode s.cmdw = .ok .encDesEcbNone → BitVec.ofNat 32 (8 * s.nblk.toNat) = s.plen)

/-- The command from its `CMD` write to its end (R230, R236): each block of ciphertext depends on the key and on its own block of
plaintext alone, so equal blocks give equal blocks; `IV` and `IVLEN` may hold anything. -/
def Obligations.DesCommandEncryptsEcb : Prop :=
  ∀ s : State, s.params.wf = true → DesReady s → ∃ t, Completes 0x00000011 s t ∧
    t.done = true ∧ t.err = 0 ∧ t.olen = s.plen ∧
    (∀ i, i < s.plen.toNat / 8 → desCipherBlock t i =
      desEncryptBlock (desKeySchedule (desKey s.key)) (s.ibuf.readBytes (8 * i) 8)) ∧
    (∀ i j, i < s.plen.toNat / 8 → j < s.plen.toNat / 8 → s.ibuf.readBytes (8 * i) 8 = s.ibuf.readBytes (8 * j) 8 →
      desCipherBlock t i = desCipherBlock t j) ∧
    (∀ a, s.plen.toNat ≤ a → t.obuf.read a = 0)

/-! ## The cipher cores (41_aes_primitive.md, 42_des_primitive.md) -/

/-- R143: the S-box is a permutation, and each entry is the affine image of the inverse of its index. -/
def Obligations.SboxIsInverseThenAffine : Prop :=
  Function.Bijective sbox ∧
  ∀ a : Byte, ∃ b : Byte, (a = 0 → b = 0) ∧ (a ≠ 0 → gfMul a b = 1) ∧ ∀ i, i < 8 →
    (sbox a).getLsbD i = (b.getLsbD i ^^ b.getLsbD ((i + 4) % 8) ^^ b.getLsbD ((i + 5) % 8) ^^
      b.getLsbD ((i + 6) % 8) ^^ b.getLsbD ((i + 7) % 8) ^^ (0x63#8).getLsbD i)

/-- R147: the recurrence of the key expansion, for keys of 16, 24 and 32 bytes, and where the start of a command stores it. -/
def Obligations.KeyExpansionRecurrence : Prop :=
  ∀ k : List Byte, (k.length = 16 ∨ k.length = 24 ∨ k.length = 32) →
    let nk := k.length / 4
    let nr := nk + 6
    let w := aesKeyExpansion k
    let wordAt : Nat → AesWord := fun i => w.getD i (zeroBytes 4)
    w.length = 4 * (nr + 1) ∧ aesRoundCount k = nr ∧
    (∀ i, i < nk → wordAt i = #v[k.getD (4 * i) 0, k.getD (4 * i + 1) 0, k.getD (4 * i + 2) 0, k.getD (4 * i + 3) 0]) ∧
    (∀ i, nk ≤ i → i < 4 * (nr + 1) → wordAt i = xorBytes (wordAt (i - nk))
      (if i % nk = 0 then xorBytes (subWord (rotWord (wordAt (i - 1)))) (rcon (i / nk))
        else if 6 < nk ∧ i % nk = 4 then subWord (wordAt (i - 1)) else wordAt (i - 1))) ∧
    ∀ s : State, keyOperand s = k → (startAesCbc s).nr.toNat = nr ∧
      ∀ (i : Nat) (h : i < 60), i < 4 * (nr + 1) → (startAesCbc s).rk[i] = wordAt i

/-- R151: for a fixed schedule the AES block transform is a bijection, and so is each of its round transformations. -/
def Obligations.AesBlockIsBijective : Prop :=
  Function.Bijective subBytes ∧ Function.Bijective shiftRows ∧ Function.Bijective mixColumns ∧
  (∀ (rk : AesSchedule) (r : Nat), Function.Bijective fun s => addRoundKey s rk r) ∧
  ∀ (rk : AesSchedule) (nr : Nat), Function.Bijective (aesEncryptBlock rk nr)

/-- The published AES-128 examples of 96_primitive_vectors.md (PA5, PA6) (sanity). -/
def Obligations.AesKnownAnswers : Prop :=
  let enc : Nat → Nat → Bytes 16 := fun k x =>
    aesEncryptBlock (storeSchedule (aesKeyExpansion (aesBytes k).toList) zeroSchedule) 10 (aesBytes x)
  enc 0x2b7e151628aed2a6abf7158809cf4f3c 0x3243f6a8885a308d313198a2e0370734 = aesBytes 0x3925841d02dc09fbdc118597196a0b32 ∧
  enc 0x000102030405060708090a0b0c0d0e0f 0x00112233445566778899aabbccddeeff = aesBytes 0x69c4e0d86a7b0430d8cdb78070b4c55a

/-- `FP` undoes `IP` and `IP` undoes `FP`, on every 64-bit value (R182; PD5 of 96_primitive_vectors.md). -/
def Obligations.FinalPermutationInvertsInitial : Prop :=
  ∀ v : BitVec 64, permute 64 fpTable (permute 64 ipTable v) = v ∧ permute 64 ipTable (permute 64 fpTable v) = v

/-- For a fixed schedule the DES block transform is a bijection (R185 (a)). -/
def Obligations.DesBlockIsBijective : Prop :=
  ∀ ks : Vector (BitVec 48) 16, Function.Bijective (desEncryptBlock ks)

/-- The parity bits of a DES key have no influence on the schedule or on any ciphertext, and with the default `key_reject` no key
of 8 bytes is rejected, whatever its parity (R175, R185 (b)). -/
def Obligations.DesParityBitsIgnored : Prop :=
  (∀ k k' : Bytes 8, (∀ (i : Nat) (h : i < 8) (j : Nat), 1 ≤ j → j < 8 → k[i].getLsbD j = k'[i].getLsbD j) →
    desKeySchedule k = desKeySchedule k' ∧
    ∀ x, desEncryptBlock (desKeySchedule k) x = desEncryptBlock (desKeySchedule k') x) ∧
  (∀ s : State, s.phase = .check → s.params.keyReject = [] → ∀ t, exec .encDesEcbNone s = .next t →
    t.phase = .idle → t.err ≠ ErrorKind.code .keyError)

/-- The published DES examples of 96_primitive_vectors.md (PD1, PD2, PD4) (sanity). -/
def Obligations.DesKnownAnswers : Prop :=
  (desKeySchedule (desWordBytes 0x133457799bbcdff1))[0] = 0x1b02effc7072 ∧
  (desKeySchedule (desWordBytes 0x133457799bbcdff1))[15] = 0xcb3d8b0e17f5 ∧
  desEncryptBlock (desKeySchedule (desWordBytes 0x133457799bbcdff1)) (desWordBytes 0x0123456789abcdef) =
    desWordBytes 0x85e813540f0ab405 ∧
  desEncryptBlock (desKeySchedule (desWordBytes 0x0123456789abcdef)) (desWordBytes 0x4e6f772069732074) =
    desWordBytes 0x3fa40e8a984d4815

/-! ## Whole-machine statements -/

/-- The state after reset meets the invariant, with every choice of the parameters R7 allows. -/
def Obligations.ResetMeetsInvariant : Prop :=
  SafeState State.reset ∧ ∀ p : Params, p.wf = true → SafeState (State.resetWith p)

/-- Every step keeps the invariant (10_state.md section 5): canonical and bounded arrays, and R47 in each phase. -/
def Obligations.EveryStepKeepsInvariant : Prop :=
  ∀ s t : State, SafeState s → step s = .next t → SafeState t

/-- No reachable state faults or is refused: every access and every command word has a defined outcome
(93_implementation_defined.md section 1). -/
def Obligations.ReachableStatesNeverStop : Prop :=
  ∀ s : State, SafeState s → ∃ t, step s = .next t

/-- The model's own stops (log entry 6), which no rule of the spec states: exactly where a command faults. -/
def Obligations.FaultsOnlyWithoutRule : Prop :=
  ∀ s : State,
    (exec .clear s = .fault .noSequencerRule ↔ s.phase ≠ .idle) ∧
    (∀ f, exec .encAesCbcPkcs7 s = .fault f ↔ s.phase = .block ∧ s.blk ≠ s.nblk ∧
      ((f = .noSequencerRule ∧ s.nr ≠ 10 ∧ s.nr ≠ 12 ∧ s.nr ≠ 14) ∨
       (f = .bufferIndexOutOfRange ∧ (s.nr = 10 ∨ s.nr = 12 ∨ s.nr = 14) ∧
        (s.params.obufBytes < 16 * s.blk.toNat + 16 ∨ s.params.ibufBytes < min s.plen.toNat (16 * s.blk.toNat + 16))))) ∧
    (∀ f, exec .encDesEcbNone s = .fault f ↔ s.phase = .block ∧ s.blk ≠ s.nblk ∧
      f = .bufferIndexOutOfRange ∧ s.params.ibufBytes < 8 * s.blk.toNat + 8)

/-- R24: what `STATUS` says of a reachable state: exactly one of running, success, failure and no result, each with its `OLEN` and
`OBUF`. -/
def Obligations.StatusIsTypedResult : Prop :=
  ∀ s : State, SafeState s →
    (hostRead s 0x004 = .okayData 0x00000001 ∧ busy s = true) ∨
    (hostRead s 0x004 = .okayData 0x00000002 ∧ busy s = false ∧ s.done = true ∧ s.err = 0 ∧
      s.olen.toNat ≤ s.params.obufBytes ∧ ∀ a, s.olen.toNat ≤ a → s.obuf.read a = 0) ∨
    (∃ k : ErrorKind, hostRead s 0x004 = .okayData (k.code.setWidth 32 <<< 4) ∧ busy s = false ∧ s.done = false ∧
      s.err = k.code ∧ s.olen = 0 ∧ ∀ a, s.obuf.read a = 0) ∨
    (hostRead s 0x004 = .okayData 0 ∧ busy s = false ∧ s.done = false ∧ s.err = 0 ∧ s.olen = 0 ∧
      ∀ a, s.obuf.read a = 0)

/-- No partial output (R126): in a reachable state that is running, failed or without a result, no read of `OLEN` or of the
`OBUF` window returns anything but zero. -/
def Obligations.NoPartialOutputIsReadable : Prop :=
  ∀ s : State, SafeState s → (busy s = true ∨ s.done = false) →
    hostRead s 0x014 = .okayData 0 ∧
    ∀ o, o % 4 = 0 → o < s.params.obufBytes → hostRead s (BitVec.ofNat 24 (0x800000 + o)) = .okayData 0

/-- R128: a word that is not `CLEAR`, written to `CMD` in `IDLE`, is executed as the function `Run` says, in exactly the number
of sequencer steps R128 gives, and the core is busy at every step before the last. -/
def Obligations.CommandComputesRun : Prop :=
  ∀ (s : State) (w : Word), s.params.wf = true → s.phase = .idle → decode w ≠ .ok .clear →
    let start : State := { s with inputs := [.hostWrite 0x000000 w] }
    runs ((runCommand w s).2 + 1) start =
      .next { resultState (runCommand w s).1 s.params with response := some .okay } ∧
    ∀ j, 1 ≤ j → j ≤ (runCommand w s).2 → ∃ u, runs j start = .next u ∧ busy u = true

/-- R127: the result of a command is a function of the command word, the operands and the parameters: two idle states that agree
on them end in the same state, whatever the earlier result and the bytes beyond the stated lengths. -/
def Obligations.ResultDependsOnOperandsOnly : Prop :=
  ∀ (s s' : State) (w : Word), s.params.wf = true → s.phase = .idle → s'.phase = .idle → decode w ≠ .ok .clear →
    s'.params = s.params → s'.klen = s.klen → s'.ivlen = s.ivlen → s'.plen = s.plen →
    keyOperand s' = keyOperand s → s'.iv = s.iv → (∀ a, a < s.plen.toNat → s'.ibuf.read a = s.ibuf.read a) →
    ∃ t t', Completes w s t ∧ Completes w s' t' ∧ bare t = bare t'

/-- Every command terminates (R129, R292): from a reachable state in which one runs, the sequencer alone reaches `IDLE` within the
bound that the buffer size sets. -/
def Obligations.EveryCommandTerminates : Prop :=
  ∀ s : State, SafeState s → busy s = true → s.inputs = [] →
    ∃ n t, n ≤ s.params.ibufBytes / 8 + 2 ∧ runs n s = .next t ∧ busy t = false

/-! ## Host programs (30_encoding.md section 5) -/

/-- The pseudo-instructions that load an operand (R100): in `IDLE` their accesses put exactly the bytes and the length in place and
leave every other element alone; bytes of the last word after the length become 0. -/
def Obligations.PseudoInstructionsLoadOperands : Prop :=
  ∀ (s : State) (bytes : List Byte), s.params.wf = true → s.phase = .idle →
    let loaded : Pseudo → State → Prop := fun p t =>
      runs (p.expand.length) { s with inputs := inputsOf p.expand } = .next t
    let n := bytes.length
    (n ≤ 32 → ∃ k : Bytes 32, loaded (.setKey bytes)
        { s with key := k, klen := BitVec.ofNat 8 n, inputs := [], response := some .okay } ∧
      ∀ (i : Nat) (h : i < 32), k[i] = if i < 4 * wordCount n then bytes.getD i 0 else s.key[i]) ∧
    (n ≤ 16 → ∃ k : Bytes 16, loaded (.setIv bytes)
        { s with iv := k, ivlen := BitVec.ofNat 8 n, inputs := [], response := some .okay } ∧
      ∀ (i : Nat) (h : i < 16), k[i] = if i < 4 * wordCount n then bytes.getD i 0 else s.iv[i]) ∧
    (Memory.wf s.ibuf → n ≤ s.params.ibufBytes → ∃ m : Memory, loaded (.setPt bytes)
        { s with ibuf := m, plen := BitVec.ofNat 32 n, inputs := [], response := some .okay } ∧
      Memory.wf m ∧ ∀ a, m.read a = if a < 4 * wordCount n then bytes.getD a 0 else s.ibuf.read a)

/-- `GETCT` (R100, R66): the words read from the `OBUF` window, unpacked, are the bytes of `OBUF` in order. -/
def Obligations.GetCtReadsTheCiphertext : Prop :=
  ∀ (s : State) (n : Nat), s.params.wf = true → s.phase = .idle → n ≤ s.params.obufBytes →
    ∃ ws : List Word, ws.length = wordCount n ∧
      (∀ j (h : j < ws.length), hostRead s (PortName.obuf.at j) = .okayData ws[j]) ∧
      unpackWords n ws = (List.range n).map s.obuf.read ∧
      inputsOf (Pseudo.getCt n).expand = .hostRead 0x014 :: (List.range (wordCount n)).map fun j => .hostRead (PortName.obuf.at j)
end

