-- ==== Sys2Proof/Laws/Aes.lean ====
section
/-! SUPPORT. The AES core: which words of a schedule a block depends on, and how long the expanded key is. -/

namespace Sys2Proof.Machine

/-- A round key depends on its four words only. -/
theorem roundKey_congr {rk rk' : AesSchedule} {r n : Nat}
    (h : ∀ (i : Nat) (h : i < 60), i < n → rk[i] = rk'[i]) (hr : 4 * r + 4 ≤ n) :
    roundKey rk r = roundKey rk' r := by
  refine Vector.ext fun i hi => ?_
  simp only [roundKey, Vector.getElem_ofFn]
  have : scheduleWord rk (4 * r + i / 4) = scheduleWord rk' (4 * r + i / 4) := by
    unfold scheduleWord
    by_cases h6 : 4 * r + i / 4 < 60
    · rw [Vector.getElem?_eq_getElem h6, Vector.getElem?_eq_getElem h6, h _ h6 (by omega)]
    · rw [Vector.getElem?_eq_none (by omega), Vector.getElem?_eq_none (by omega)]
  rw [this]

/-- A block depends on the first `4(Nr + 1)` words of the schedule only (R149, R150). -/
theorem aesEncryptBlock_congr {rk rk' : AesSchedule} {nr : Nat}
    (h : ∀ (i : Nat) (h : i < 60), i < 4 * (nr + 1) → rk[i] = rk'[i]) (x : Bytes 16) :
    aesEncryptBlock rk nr x = aesEncryptBlock rk' nr x := by
  unfold aesEncryptBlock addRoundKey
  have key : ∀ r, r ≤ nr → roundKey rk r = roundKey rk' r := fun r hr => roundKey_congr h (by omega)
  have loop : ∀ (l : List Nat) (s : Bytes 16), (∀ r ∈ l, r ≤ nr) →
      l.foldl (aesRound rk) s = l.foldl (aesRound rk') s := by
    intro l
    induction l with
    | nil => intro s _; simp only [List.foldl_nil]
    | cons r l ih =>
      intro s hl
      simp only [List.foldl_cons]
      have : aesRound rk s r = aesRound rk' s r := by
        unfold aesRound addRoundKey
        rw [key r (hl r (by simp))]
      rw [this]
      exact ih _ fun r hr => hl r (by simp [hr])
  rw [key nr (Nat.le_refl _), key 0 (by omega), loop]
  intro r hr
  simp [List.mem_range'] at hr
  omega

theorem expandWords_length (nk n : Nat) : ∀ w, (expandWords nk n w).length = w.length + n := by
  induction n with
  | zero => intro w; rfl
  | succ n ih => intro w; rw [expandWords, ih]; simp; omega

/-- The expanded key has `4(Nr + 1)` words (R147). -/
theorem aesKeyExpansion_length (k : List Byte) : (aesKeyExpansion k).length = 4 * (aesRoundCount k + 1) := by
  unfold aesKeyExpansion
  simp only [expandWords_length, keyWords, List.length_map, List.length_range, aesRoundCount]
  omega

end Sys2Proof.Machine
end

