-- ==== Sys2Proof/Laws/Config.lean ====
section
/-! SUPPORT. The lists of patterns that stand for `key_reject` and `prim_fail` (00_scope.md R7; log entry 2) lose nothing: every
function of their finite domains is one of them. -/

namespace Sys2Proof.Laws

open Sys2Proof.Machine

@[simp] theorem partAgrees_none {α : Type} [DecidableEq α] (a : α) : partAgrees none a = true := rfl

@[simp] theorem partAgrees_some {α : Type} [DecidableEq α] (a b : α) : partAgrees (some b) a = true ↔ a = b := by
  simp [partAgrees]

/-- The bounds of R7 on `IBUF_BYTES`. -/
theorem ibufBytes_of_wf {p : Params} (h : p.wf = true) :
    p.ibufBytes % 16 = 0 ∧ 16 ≤ p.ibufBytes ∧ p.ibufBytes ≤ 0x3FFFF0 := by
  simp only [Params.wf, Bool.and_eq_true, decide_eq_true_eq, beq_iff_eq] at h
  exact h.2

/-- Every finite set is the elements of a list. -/
theorem exists_list_of_finite {α : Type} {s : Set α} (h : s.Finite) : ∃ l : List α, ∀ a, a ∈ l ↔ a ∈ s :=
  ⟨h.toFinset.toList, fun a => by simp⟩

theorem finite_bytes (n : Nat) : {l : List Byte | l.length ≤ n}.Finite := List.finite_length_le Byte n

theorem finite_ciphers (s : Set Cipher) : s.Finite :=
  Set.Finite.subset (Set.toFinite {Cipher.aes, Cipher.des}) fun c _ => by cases c <;> simp

/-- Every `key_reject` on keys of at most `n` bytes is a list of patterns. -/
theorem keyReject_complete (f : Cipher → List Byte → Bool) (n : Nat) :
    ∃ patterns, ∀ p : Params, p.keyReject = patterns → ∀ c k, k.length ≤ n → keyReject p c k = f c k := by
  obtain ⟨l, hl⟩ := exists_list_of_finite
    ((((finite_ciphers Set.univ).prod (finite_bytes n)).subset
      (Set.inter_subset_left (t := {x : Cipher × List Byte | f x.1 x.2 = true}))))
  refine ⟨l.map fun x => { cipher := some x.1, key := some x.2 }, fun p hp c k hk => ?_⟩
  rw [Bool.eq_iff_iff]
  simp only [keyReject, hp, List.any_map, List.any_eq_true, Function.comp, Bool.and_eq_true, partAgrees_some, hl]
  constructor
  · rintro ⟨x, hx, rfl, rfl⟩
    exact hx.2
  · intro h
    exact ⟨(c, k), ⟨⟨trivial, hk⟩, h⟩, rfl, rfl⟩

/-- Every `prim_fail` on keys and blocks of at most `n` bytes and block indices below `m` is a list of patterns. -/
theorem primFail_complete (f : Cipher → List Byte → Nat → List Byte → Bool) (n m : Nat) :
    ∃ patterns, ∀ p : Params, p.primFail = patterns → ∀ c k i x, k.length ≤ n → i < m → x.length ≤ n →
      primFail p c k i x = f c k i x := by
  obtain ⟨l, hl⟩ := exists_list_of_finite
    (((finite_ciphers Set.univ).prod ((finite_bytes n).prod ((Set.finite_lt_nat m).prod (finite_bytes n)))).subset
      (Set.inter_subset_left (t := {x : Cipher × List Byte × Nat × List Byte | f x.1 x.2.1 x.2.2.1 x.2.2.2 = true})))
  refine ⟨l.map fun x =>
    { cipher := some x.1, key := some x.2.1, index := some x.2.2.1, block := some x.2.2.2 }, fun p hp c k i x hk hi hx => ?_⟩
  rw [Bool.eq_iff_iff]
  simp only [primFail, hp, List.any_map, List.any_eq_true, Function.comp, Bool.and_eq_true, partAgrees_some, hl]
  constructor
  · rintro ⟨y, hy, rfl, rfl, rfl, rfl⟩
    exact hy.2
  · intro h
    exact ⟨(c, k, i, x), ⟨⟨trivial, hk, hi, hx⟩, h⟩, rfl, rfl, rfl, rfl⟩

end Sys2Proof.Laws
end

