-- ==== Sys2Proof/Laws/Memory.lean ====
section
/-! SUPPORT. Reading and writing a byte array: read after write, and every write keeps the canonical form and the bounds. -/

namespace Sys2Proof.Machine

namespace Memory

@[simp] theorem read_nil (a : Nat) : Memory.read [] a = 0 := rfl

theorem read_cons (b : Nat) (v : Byte) (m : Memory) (a : Nat) :
    Memory.read ((b, v) :: m) a = if a = b then v else Memory.read m a := rfl

theorem read_eq_zero_of_forall_ne {m : Memory} {a : Nat} (h : ∀ c ∈ m, c.1 ≠ a) : Memory.read m a = 0 := by
  induction m with
  | nil => rfl
  | cons c m ih =>
    obtain ⟨b, v⟩ := c
    have hb : b ≠ a := h (b, v) (by simp)
    rw [read_cons, if_neg (Ne.symm hb), ih fun c hc => h c (by simp [hc])]

theorem read_write_same {m : Memory} (hm : Memory.wf m) (a : Nat) (v : Byte) :
    Memory.read (Memory.write m a v) a = v := by
  induction m with
  | nil =>
    unfold Memory.write
    split
    · rename_i hv; exact hv.symm
    · rw [read_cons, if_pos rfl]
  | cons c m ih =>
    obtain ⟨b, u⟩ := c
    have htail : Memory.wf m := ⟨hm.1.of_cons, fun c hc => hm.2 c (by simp [hc])⟩
    have hrise : ∀ c ∈ m, b < c.1 := fun c hc => List.rel_of_pairwise_cons hm.1 hc
    unfold Memory.write
    split
    · rename_i hab
      by_cases hv : v = 0
      · rw [if_pos hv, read_cons, if_neg (by omega), hv]
        exact read_eq_zero_of_forall_ne fun c hc => by have := hrise c hc; omega
      · rw [if_neg hv, read_cons, if_pos rfl]
    · split
      · rename_i hab
        by_cases hv : v = 0
        · rw [if_pos hv, hv]
          exact read_eq_zero_of_forall_ne fun c hc => by have := hrise c hc; omega
        · rw [if_neg hv, read_cons, if_pos rfl]
      · rename_i hne
        rw [read_cons, if_neg hne, ih htail]

theorem read_write_other (m : Memory) {a b : Nat} (v : Byte) (h : b ≠ a) :
    Memory.read (Memory.write m a v) b = Memory.read m b := by
  induction m with
  | nil =>
    unfold Memory.write
    split
    · rfl
    · rw [read_cons, if_neg h]
  | cons c m ih =>
    obtain ⟨d, u⟩ := c
    unfold Memory.write
    split
    · by_cases hv : v = 0
      · rw [if_pos hv]
      · rw [if_neg hv, read_cons, if_neg h]
    · split
      · rename_i had
        subst had
        by_cases hv : v = 0
        · rw [if_pos hv, read_cons, if_neg h]
        · rw [if_neg hv, read_cons, if_neg h, read_cons, if_neg h]
      · rw [read_cons, read_cons, ih]

/-- Every entry after a write is an old one, or the one written. -/
theorem mem_write {m : Memory} {a : Nat} {v : Byte} {c : Host.Cell} (h : c ∈ Memory.write m a v) :
    c ∈ m ∨ (c = (a, v) ∧ v ≠ 0) := by
  induction m with
  | nil =>
    unfold Memory.write at h
    split at h
    · exact .inl h
    · rename_i hv; exact .inr ⟨List.mem_singleton.1 h, hv⟩
  | cons d m ih =>
    obtain ⟨b, u⟩ := d
    unfold Memory.write at h
    split at h
    · by_cases hv : v = 0
      · rw [if_pos hv] at h; exact .inl h
      · rw [if_neg hv] at h
        rcases List.mem_cons.1 h with h | h
        · exact .inr ⟨h, hv⟩
        · exact .inl h
    · split at h
      · by_cases hv : v = 0
        · rw [if_pos hv] at h; exact .inl (List.mem_cons_of_mem _ h)
        · rw [if_neg hv] at h
          rcases List.mem_cons.1 h with h | h
          · exact .inr ⟨h, hv⟩
          · exact .inl (List.mem_cons_of_mem _ h)
      · rcases List.mem_cons.1 h with h | h
        · exact .inl (by simp [h])
        · rcases ih h with h | h
          · exact .inl (List.mem_cons_of_mem _ h)
          · exact .inr h

theorem write_wf {m : Memory} (hm : Memory.wf m) (a : Nat) (v : Byte) : Memory.wf (Memory.write m a v) := by
  refine ⟨?_, fun c hc => ?_⟩
  · induction m with
    | nil =>
      unfold Memory.write
      split
      · exact .nil
      · exact List.pairwise_singleton _ _
    | cons d m ih =>
      obtain ⟨b, u⟩ := d
      have htail : Memory.wf m := ⟨hm.1.of_cons, fun c hc => hm.2 c (by simp [hc])⟩
      have hrise : ∀ c ∈ m, b < c.1 := fun c hc => List.rel_of_pairwise_cons hm.1 hc
      unfold Memory.write
      split
      · rename_i hab
        by_cases hv : v = 0
        · rw [if_pos hv]; exact hm.1
        · rw [if_neg hv]
          refine List.pairwise_cons.2 ⟨fun c hc => ?_, hm.1⟩
          rcases List.mem_cons.1 hc with hc | hc
          · rw [hc]; exact hab
          · exact Nat.lt_trans hab (hrise c hc)
      · split
        · rename_i hab
          by_cases hv : v = 0
          · rw [if_pos hv]; exact htail.1
          · rw [if_neg hv]
            exact List.pairwise_cons.2 ⟨fun c hc => by rw [hab]; exact hrise c hc, htail.1⟩
        · rename_i hlt hne
          refine List.pairwise_cons.2 ⟨fun c hc => ?_, ih htail⟩
          rcases mem_write hc with hc | ⟨hc, _⟩
          · exact hrise c hc
          · rw [hc]; exact by show b < a; omega
  · rcases mem_write hc with hc | ⟨hc, hv⟩
    · exact hm.2 c hc
    · rw [hc]; exact hv

theorem write_within {m : Memory} {n a : Nat} (hm : Memory.within m n) (ha : a < n) (v : Byte) :
    Memory.within (Memory.write m a v) n := fun c hc => by
  rcases mem_write hc with hc | ⟨hc, _⟩
  · exact hm c hc
  · rw [hc]; exact ha

theorem writeBytes_wf {m : Memory} (hm : Memory.wf m) (a : Nat) (vs : List Byte) :
    Memory.wf (Memory.writeBytes m a vs) := by
  induction vs generalizing m a with
  | nil => rw [Memory.writeBytes]; exact hm
  | cons v vs ih => rw [Memory.writeBytes]; exact ih (write_wf hm a v) (a + 1)

theorem writeBytes_within {m : Memory} {n a : Nat} {vs : List Byte} (hm : Memory.within m n)
    (h : a + vs.length ≤ n) : Memory.within (Memory.writeBytes m a vs) n := by
  induction vs generalizing m a with
  | nil => rw [Memory.writeBytes]; exact hm
  | cons v vs ih =>
    simp only [List.length_cons] at h
    rw [Memory.writeBytes]
    exact ih (write_within hm (by omega) v) (by omega)

theorem writeBytes_append (m : Memory) (a : Nat) (us vs : List Byte) :
    Memory.writeBytes m a (us ++ vs) = Memory.writeBytes (Memory.writeBytes m a us) (a + us.length) vs := by
  induction us generalizing m a with
  | nil => rw [List.nil_append, Memory.writeBytes.eq_def m a []]; rfl
  | cons u us ih =>
    rw [List.cons_append, Memory.writeBytes, ih, Memory.writeBytes]
    simp only [List.length_cons]
    congr 1
    omega

/-- A byte outside the bytes written reads as before. -/
theorem read_writeBytes_outside (m : Memory) {a b : Nat} {vs : List Byte} (h : b < a ∨ a + vs.length ≤ b) :
    Memory.read (Memory.writeBytes m a vs) b = Memory.read m b := by
  induction vs generalizing m a with
  | nil => rw [Memory.writeBytes]
  | cons v vs ih =>
    simp only [List.length_cons] at h
    rw [Memory.writeBytes, ih _ (by omega), read_write_other _ _ (by omega)]

/-- A byte among those written reads as written. -/
theorem read_writeBytes_inside {m : Memory} (hm : Memory.wf m) {a b : Nat} {vs : List Byte} (h : a ≤ b)
    (h' : b < a + vs.length) : Memory.read (Memory.writeBytes m a vs) b = vs[b - a]'(by omega) := by
  induction vs generalizing m a with
  | nil => simp at h'; omega
  | cons v vs ih =>
    simp only [List.length_cons] at h'
    by_cases hab : b = a
    · subst hab
      rw [Memory.writeBytes, read_writeBytes_outside _ (by omega), read_write_same hm]
      simp
    · rw [Memory.writeBytes, ih (write_wf hm a v) (by omega) (by omega)]
      obtain ⟨k, rfl⟩ : ∃ k, b = a + 1 + k := ⟨b - (a + 1), by omega⟩
      simp only [show a + 1 + k - (a + 1) = k by omega, show a + 1 + k - a = k + 1 by omega,
        List.getElem_cons_succ]

/-- In canonical form a byte array is determined by what its bytes read as. -/
theorem eq_of_read_eq {m n : Memory} (hm : Memory.wf m) (hn : Memory.wf n)
    (h : ∀ a, Memory.read m a = Memory.read n a) : m = n := by
  induction m generalizing n with
  | nil =>
    cases n with
    | nil => rfl
    | cons c n =>
      obtain ⟨b, v⟩ := c
      have := h b
      rw [read_cons, if_pos rfl] at this
      exact absurd this.symm (hn.2 (b, v) (by simp))
  | cons c m ih =>
    obtain ⟨b, v⟩ := c
    have hmt : Memory.wf m := ⟨hm.1.of_cons, fun c hc => hm.2 c (by simp [hc])⟩
    have hmr : ∀ c ∈ m, b < c.1 := fun c hc => List.rel_of_pairwise_cons hm.1 hc
    have hv : v ≠ 0 := hm.2 (b, v) (by simp)
    cases n with
    | nil =>
      have := h b
      rw [read_cons, if_pos rfl] at this
      exact absurd this hv
    | cons d n =>
      obtain ⟨e, w⟩ := d
      have hnt : Memory.wf n := ⟨hn.1.of_cons, fun c hc => hn.2 c (by simp [hc])⟩
      have hnr : ∀ c ∈ n, e < c.1 := fun c hc => List.rel_of_pairwise_cons hn.1 hc
      have hw : w ≠ 0 := hn.2 (e, w) (by simp)
      have hbe : b = e := by
        rcases Nat.lt_trichotomy b e with hlt | heq | hgt
        · have := h b
          rw [read_cons, if_pos rfl, read_cons, if_neg (by omega),
            read_eq_zero_of_forall_ne fun c hc => by have := hnr c hc; omega] at this
          exact absurd this hv
        · exact heq
        · have := h e
          rw [read_cons, if_neg (by omega), read_cons, if_pos rfl,
            read_eq_zero_of_forall_ne fun c hc => by have := hmr c hc; omega] at this
          exact absurd this.symm hw
      subst hbe
      have hvw : v = w := by
        have := h b
        rwa [read_cons, if_pos rfl, read_cons, if_pos rfl] at this
      subst hvw
      rw [ih hmt hnt fun a => ?_]
      by_cases hab : a = b
      · subst hab
        rw [read_eq_zero_of_forall_ne fun c hc => by have := hmr c hc; omega,
          read_eq_zero_of_forall_ne fun c hc => by have := hnr c hc; omega]
      · have := h a
        rwa [read_cons, if_neg hab, read_cons, if_neg hab] at this

/-- A byte at or after the size of the array reads 0. -/
theorem read_of_within {m : Memory} {n a : Nat} (hm : Memory.within m n) (h : n ≤ a) : Memory.read m a = 0 :=
  read_eq_zero_of_forall_ne fun c hc => by have := hm c hc; omega

/-- Byte `i` of `MemRead`. -/
@[simp] theorem getElem_readBytes (m : Memory) (off n i : Nat) (h : i < n) :
    (Memory.readBytes m off n)[i] = Memory.read m (off + i) := by
  simp [Memory.readBytes]

end Memory

end Sys2Proof.Machine
end

