-- ==== Sys2Proof/Laws/Decode.lean ====
section
/-! SUPPORT. Laws of the decoder and the encoder of command words. -/

namespace Sys2Proof

/-- The five fields are the whole word (R91). -/
theorem packFields_fieldsOf (w : Word) : packFields (fieldsOf w) = w := by
  unfold packFields fieldsOf
  ext i hi
  simp only [BitVec.getElem_append, BitVec.getElem_extractLsb']
  split
  · simp [BitVec.getLsbD_eq_getElem hi]
  split
  · simp [show 4 + (i - 4) = i by omega, BitVec.getLsbD_eq_getElem hi]
  split
  · simp [show 6 + (i - 4 - 2) = i by omega, BitVec.getLsbD_eq_getElem hi]
  split
  · simp [show 8 + (i - 4 - 2 - 2) = i by omega, BitVec.getLsbD_eq_getElem hi]
  · simp [show 10 + (i - 4 - 2 - 2 - 2) = i by omega, BitVec.getLsbD_eq_getElem hi]

/-- Fields that decode are those of the instruction. -/
theorem fields_of_decodeFields {f : CmdFields} {i : Instr} (h : decodeFields f = .ok i) : f = instrFields i := by
  obtain ⟨op, cipher, mode, pad, zero⟩ := f
  simp only [decodeFields, decodeEnc, ifZeroHeld] at h
  repeat' split at h
  all_goals first
    | cases h; done
    | (obtain rfl := Except.ok.inj h
       simp_all [instrFields])

/-- A word that decodes is the word of the instruction (R92). -/
theorem encode_of_decode {w : Word} {i : Instr} (h : decode w = .ok i) : w = encode i := by
  rw [encode, ← fields_of_decodeFields h, packFields_fieldsOf]

end Sys2Proof
end

