-- ==== Sys2Proof/Laws/State.lean ====
section
/-! SUPPORT. One lemma for each field and each shared update of the state. -/

namespace Sys2Proof.Machine

section discardResult

variable (s : State)

@[simp] theorem discardResult_done : (discardResult s).done = false := rfl
@[simp] theorem discardResult_err : (discardResult s).err = 0 := rfl
@[simp] theorem discardResult_klen : (discardResult s).klen = s.klen := rfl
@[simp] theorem discardResult_ivlen : (discardResult s).ivlen = s.ivlen := rfl
@[simp] theorem discardResult_plen : (discardResult s).plen = s.plen := rfl
@[simp] theorem discardResult_olen : (discardResult s).olen = 0 := rfl
@[simp] theorem discardResult_key : (discardResult s).key = s.key := rfl
@[simp] theorem discardResult_iv : (discardResult s).iv = s.iv := rfl
@[simp] theorem discardResult_ibuf : (discardResult s).ibuf = s.ibuf := rfl
@[simp] theorem discardResult_obuf : (discardResult s).obuf = [] := rfl
@[simp] theorem discardResult_phase : (discardResult s).phase = s.phase := rfl
@[simp] theorem discardResult_cmdw : (discardResult s).cmdw = s.cmdw := rfl
@[simp] theorem discardResult_blk : (discardResult s).blk = s.blk := rfl
@[simp] theorem discardResult_nblk : (discardResult s).nblk = s.nblk := rfl
@[simp] theorem discardResult_chain : (discardResult s).chain = s.chain := rfl
@[simp] theorem discardResult_rk : (discardResult s).rk = s.rk := rfl
@[simp] theorem discardResult_nr : (discardResult s).nr = s.nr := rfl
@[simp] theorem discardResult_ks : (discardResult s).ks = s.ks := rfl
@[simp] theorem discardResult_params : (discardResult s).params = s.params := rfl
@[simp] theorem discardResult_inputs : (discardResult s).inputs = s.inputs := rfl
@[simp] theorem discardResult_response : (discardResult s).response = s.response := rfl

end discardResult

section wipe

variable (s : State)

@[simp] theorem wipe_done : (wipe s).done = s.done := rfl
@[simp] theorem wipe_err : (wipe s).err = s.err := rfl
@[simp] theorem wipe_klen : (wipe s).klen = 0 := rfl
@[simp] theorem wipe_ivlen : (wipe s).ivlen = 0 := rfl
@[simp] theorem wipe_plen : (wipe s).plen = 0 := rfl
@[simp] theorem wipe_olen : (wipe s).olen = s.olen := rfl
@[simp] theorem wipe_key : (wipe s).key = zeroBytes 32 := rfl
@[simp] theorem wipe_iv : (wipe s).iv = zeroBytes 16 := rfl
@[simp] theorem wipe_ibuf : (wipe s).ibuf = [] := rfl
@[simp] theorem wipe_obuf : (wipe s).obuf = s.obuf := rfl
@[simp] theorem wipe_phase : (wipe s).phase = s.phase := rfl
@[simp] theorem wipe_cmdw : (wipe s).cmdw = 0 := rfl
@[simp] theorem wipe_blk : (wipe s).blk = 0 := rfl
@[simp] theorem wipe_nblk : (wipe s).nblk = 0 := rfl
@[simp] theorem wipe_chain : (wipe s).chain = zeroBytes 16 := rfl
@[simp] theorem wipe_rk : (wipe s).rk = zeroSchedule := rfl
@[simp] theorem wipe_nr : (wipe s).nr = 0 := rfl
@[simp] theorem wipe_ks : (wipe s).ks = zeroKeys := rfl
@[simp] theorem wipe_params : (wipe s).params = s.params := rfl
@[simp] theorem wipe_inputs : (wipe s).inputs = s.inputs := rfl
@[simp] theorem wipe_response : (wipe s).response = s.response := rfl

end wipe

section completeSuccess

variable (n : Word) (s : State)

@[simp] theorem completeSuccess_done : (completeSuccess n s).done = true := rfl
@[simp] theorem completeSuccess_err : (completeSuccess n s).err = 0 := rfl
@[simp] theorem completeSuccess_klen : (completeSuccess n s).klen = 0 := rfl
@[simp] theorem completeSuccess_ivlen : (completeSuccess n s).ivlen = 0 := rfl
@[simp] theorem completeSuccess_plen : (completeSuccess n s).plen = 0 := rfl
@[simp] theorem completeSuccess_olen : (completeSuccess n s).olen = n := rfl
@[simp] theorem completeSuccess_key : (completeSuccess n s).key = zeroBytes 32 := rfl
@[simp] theorem completeSuccess_iv : (completeSuccess n s).iv = zeroBytes 16 := rfl
@[simp] theorem completeSuccess_ibuf : (completeSuccess n s).ibuf = [] := rfl
@[simp] theorem completeSuccess_obuf : (completeSuccess n s).obuf = s.obuf := rfl
@[simp] theorem completeSuccess_phase : (completeSuccess n s).phase = .idle := rfl
@[simp] theorem completeSuccess_cmdw : (completeSuccess n s).cmdw = 0 := rfl
@[simp] theorem completeSuccess_blk : (completeSuccess n s).blk = 0 := rfl
@[simp] theorem completeSuccess_nblk : (completeSuccess n s).nblk = 0 := rfl
@[simp] theorem completeSuccess_chain : (completeSuccess n s).chain = zeroBytes 16 := rfl
@[simp] theorem completeSuccess_rk : (completeSuccess n s).rk = zeroSchedule := rfl
@[simp] theorem completeSuccess_nr : (completeSuccess n s).nr = 0 := rfl
@[simp] theorem completeSuccess_ks : (completeSuccess n s).ks = zeroKeys := rfl
@[simp] theorem completeSuccess_params : (completeSuccess n s).params = s.params := rfl
@[simp] theorem completeSuccess_inputs : (completeSuccess n s).inputs = s.inputs := rfl
@[simp] theorem completeSuccess_response : (completeSuccess n s).response = s.response := rfl

end completeSuccess

section raise

variable (k : ErrorKind) (s : State)

@[simp] theorem raise_done : (raise k s).done = false := rfl
@[simp] theorem raise_err : (raise k s).err = k.code := rfl
@[simp] theorem raise_klen : (raise k s).klen = 0 := rfl
@[simp] theorem raise_ivlen : (raise k s).ivlen = 0 := rfl
@[simp] theorem raise_plen : (raise k s).plen = 0 := rfl
@[simp] theorem raise_olen : (raise k s).olen = 0 := rfl
@[simp] theorem raise_key : (raise k s).key = zeroBytes 32 := rfl
@[simp] theorem raise_iv : (raise k s).iv = zeroBytes 16 := rfl
@[simp] theorem raise_ibuf : (raise k s).ibuf = [] := rfl
@[simp] theorem raise_obuf : (raise k s).obuf = [] := rfl
@[simp] theorem raise_phase : (raise k s).phase = .idle := rfl
@[simp] theorem raise_cmdw : (raise k s).cmdw = 0 := rfl
@[simp] theorem raise_blk : (raise k s).blk = 0 := rfl
@[simp] theorem raise_nblk : (raise k s).nblk = 0 := rfl
@[simp] theorem raise_chain : (raise k s).chain = zeroBytes 16 := rfl
@[simp] theorem raise_rk : (raise k s).rk = zeroSchedule := rfl
@[simp] theorem raise_nr : (raise k s).nr = 0 := rfl
@[simp] theorem raise_ks : (raise k s).ks = zeroKeys := rfl
@[simp] theorem raise_params : (raise k s).params = s.params := rfl
@[simp] theorem raise_inputs : (raise k s).inputs = s.inputs := rfl
@[simp] theorem raise_response : (raise k s).response = s.response := rfl

end raise

section issueWord

variable (w : Word) (s : State)

@[simp] theorem issueWord_done : (issueWord w s).done = false := rfl
@[simp] theorem issueWord_err : (issueWord w s).err = 0 := rfl
@[simp] theorem issueWord_klen : (issueWord w s).klen = s.klen := rfl
@[simp] theorem issueWord_ivlen : (issueWord w s).ivlen = s.ivlen := rfl
@[simp] theorem issueWord_plen : (issueWord w s).plen = s.plen := rfl
@[simp] theorem issueWord_olen : (issueWord w s).olen = 0 := rfl
@[simp] theorem issueWord_key : (issueWord w s).key = s.key := rfl
@[simp] theorem issueWord_iv : (issueWord w s).iv = s.iv := rfl
@[simp] theorem issueWord_ibuf : (issueWord w s).ibuf = s.ibuf := rfl
@[simp] theorem issueWord_obuf : (issueWord w s).obuf = [] := rfl
@[simp] theorem issueWord_phase : (issueWord w s).phase = .check := rfl
@[simp] theorem issueWord_cmdw : (issueWord w s).cmdw = w := rfl
@[simp] theorem issueWord_blk : (issueWord w s).blk = s.blk := rfl
@[simp] theorem issueWord_nblk : (issueWord w s).nblk = s.nblk := rfl
@[simp] theorem issueWord_chain : (issueWord w s).chain = s.chain := rfl
@[simp] theorem issueWord_rk : (issueWord w s).rk = s.rk := rfl
@[simp] theorem issueWord_nr : (issueWord w s).nr = s.nr := rfl
@[simp] theorem issueWord_ks : (issueWord w s).ks = s.ks := rfl
@[simp] theorem issueWord_params : (issueWord w s).params = s.params := rfl
@[simp] theorem issueWord_inputs : (issueWord w s).inputs = s.inputs := rfl
@[simp] theorem issueWord_response : (issueWord w s).response = s.response := rfl

end issueWord

section clearAll

variable (s : State)

@[simp] theorem clearAll_done : (clearAll s).done = false := rfl
@[simp] theorem clearAll_err : (clearAll s).err = 0 := rfl
@[simp] theorem clearAll_klen : (clearAll s).klen = 0 := rfl
@[simp] theorem clearAll_ivlen : (clearAll s).ivlen = 0 := rfl
@[simp] theorem clearAll_plen : (clearAll s).plen = 0 := rfl
@[simp] theorem clearAll_olen : (clearAll s).olen = 0 := rfl
@[simp] theorem clearAll_key : (clearAll s).key = zeroBytes 32 := rfl
@[simp] theorem clearAll_iv : (clearAll s).iv = zeroBytes 16 := rfl
@[simp] theorem clearAll_ibuf : (clearAll s).ibuf = [] := rfl
@[simp] theorem clearAll_obuf : (clearAll s).obuf = [] := rfl
@[simp] theorem clearAll_phase : (clearAll s).phase = s.phase := rfl
@[simp] theorem clearAll_cmdw : (clearAll s).cmdw = 0 := rfl
@[simp] theorem clearAll_blk : (clearAll s).blk = 0 := rfl
@[simp] theorem clearAll_nblk : (clearAll s).nblk = 0 := rfl
@[simp] theorem clearAll_chain : (clearAll s).chain = zeroBytes 16 := rfl
@[simp] theorem clearAll_rk : (clearAll s).rk = zeroSchedule := rfl
@[simp] theorem clearAll_nr : (clearAll s).nr = 0 := rfl
@[simp] theorem clearAll_ks : (clearAll s).ks = zeroKeys := rfl
@[simp] theorem clearAll_params : (clearAll s).params = s.params := rfl
@[simp] theorem clearAll_inputs : (clearAll s).inputs = s.inputs := rfl
@[simp] theorem clearAll_response : (clearAll s).response = s.response := rfl

end clearAll

section respond

variable (r : Response) (s : State)

@[simp] theorem respond_done : (respond r s).done = s.done := rfl
@[simp] theorem respond_err : (respond r s).err = s.err := rfl
@[simp] theorem respond_klen : (respond r s).klen = s.klen := rfl
@[simp] theorem respond_ivlen : (respond r s).ivlen = s.ivlen := rfl
@[simp] theorem respond_plen : (respond r s).plen = s.plen := rfl
@[simp] theorem respond_olen : (respond r s).olen = s.olen := rfl
@[simp] theorem respond_key : (respond r s).key = s.key := rfl
@[simp] theorem respond_iv : (respond r s).iv = s.iv := rfl
@[simp] theorem respond_ibuf : (respond r s).ibuf = s.ibuf := rfl
@[simp] theorem respond_obuf : (respond r s).obuf = s.obuf := rfl
@[simp] theorem respond_phase : (respond r s).phase = s.phase := rfl
@[simp] theorem respond_cmdw : (respond r s).cmdw = s.cmdw := rfl
@[simp] theorem respond_blk : (respond r s).blk = s.blk := rfl
@[simp] theorem respond_nblk : (respond r s).nblk = s.nblk := rfl
@[simp] theorem respond_chain : (respond r s).chain = s.chain := rfl
@[simp] theorem respond_rk : (respond r s).rk = s.rk := rfl
@[simp] theorem respond_nr : (respond r s).nr = s.nr := rfl
@[simp] theorem respond_ks : (respond r s).ks = s.ks := rfl
@[simp] theorem respond_params : (respond r s).params = s.params := rfl
@[simp] theorem respond_inputs : (respond r s).inputs = s.inputs := rfl
@[simp] theorem respond_response : (respond r s).response = some r := rfl

end respond

section resetCore

variable (s : State)

@[simp] theorem resetCore_done : (resetCore s).done = false := rfl
@[simp] theorem resetCore_err : (resetCore s).err = 0 := rfl
@[simp] theorem resetCore_klen : (resetCore s).klen = 0 := rfl
@[simp] theorem resetCore_ivlen : (resetCore s).ivlen = 0 := rfl
@[simp] theorem resetCore_plen : (resetCore s).plen = 0 := rfl
@[simp] theorem resetCore_olen : (resetCore s).olen = 0 := rfl
@[simp] theorem resetCore_key : (resetCore s).key = zeroBytes 32 := rfl
@[simp] theorem resetCore_iv : (resetCore s).iv = zeroBytes 16 := rfl
@[simp] theorem resetCore_ibuf : (resetCore s).ibuf = [] := rfl
@[simp] theorem resetCore_obuf : (resetCore s).obuf = [] := rfl
@[simp] theorem resetCore_phase : (resetCore s).phase = .idle := rfl
@[simp] theorem resetCore_cmdw : (resetCore s).cmdw = 0 := rfl
@[simp] theorem resetCore_blk : (resetCore s).blk = 0 := rfl
@[simp] theorem resetCore_nblk : (resetCore s).nblk = 0 := rfl
@[simp] theorem resetCore_chain : (resetCore s).chain = zeroBytes 16 := rfl
@[simp] theorem resetCore_rk : (resetCore s).rk = zeroSchedule := rfl
@[simp] theorem resetCore_nr : (resetCore s).nr = 0 := rfl
@[simp] theorem resetCore_ks : (resetCore s).ks = zeroKeys := rfl
@[simp] theorem resetCore_params : (resetCore s).params = s.params := rfl
@[simp] theorem resetCore_inputs : (resetCore s).inputs = s.inputs := rfl
@[simp] theorem resetCore_response : (resetCore s).response = s.response := rfl

end resetCore

section startAesCbc

variable (s : State)

@[simp] theorem startAesCbc_done : (startAesCbc s).done = s.done := rfl
@[simp] theorem startAesCbc_err : (startAesCbc s).err = s.err := rfl
@[simp] theorem startAesCbc_klen : (startAesCbc s).klen = s.klen := rfl
@[simp] theorem startAesCbc_ivlen : (startAesCbc s).ivlen = s.ivlen := rfl
@[simp] theorem startAesCbc_plen : (startAesCbc s).plen = s.plen := rfl
@[simp] theorem startAesCbc_olen : (startAesCbc s).olen = s.olen := rfl
@[simp] theorem startAesCbc_key : (startAesCbc s).key = s.key := rfl
@[simp] theorem startAesCbc_iv : (startAesCbc s).iv = s.iv := rfl
@[simp] theorem startAesCbc_ibuf : (startAesCbc s).ibuf = s.ibuf := rfl
@[simp] theorem startAesCbc_obuf : (startAesCbc s).obuf = s.obuf := rfl
@[simp] theorem startAesCbc_phase : (startAesCbc s).phase = .block := rfl
@[simp] theorem startAesCbc_cmdw : (startAesCbc s).cmdw = s.cmdw := rfl
@[simp] theorem startAesCbc_blk : (startAesCbc s).blk = 0 := rfl
@[simp] theorem startAesCbc_nblk : (startAesCbc s).nblk = BitVec.ofNat 32 (s.plen.toNat / 16 + 1) := rfl
@[simp] theorem startAesCbc_chain : (startAesCbc s).chain = s.iv := rfl
@[simp] theorem startAesCbc_rk : (startAesCbc s).rk = storeSchedule (aesKeyExpansion (keyOperand s)) s.rk := rfl
@[simp] theorem startAesCbc_nr : (startAesCbc s).nr = BitVec.ofNat 4 (aesRoundCount (keyOperand s)) := rfl
@[simp] theorem startAesCbc_ks : (startAesCbc s).ks = s.ks := rfl
@[simp] theorem startAesCbc_params : (startAesCbc s).params = s.params := rfl
@[simp] theorem startAesCbc_inputs : (startAesCbc s).inputs = s.inputs := rfl
@[simp] theorem startAesCbc_response : (startAesCbc s).response = s.response := rfl

end startAesCbc

section startDesEcb

variable (s : State)

@[simp] theorem startDesEcb_done : (startDesEcb s).done = s.done := rfl
@[simp] theorem startDesEcb_err : (startDesEcb s).err = s.err := rfl
@[simp] theorem startDesEcb_klen : (startDesEcb s).klen = s.klen := rfl
@[simp] theorem startDesEcb_ivlen : (startDesEcb s).ivlen = s.ivlen := rfl
@[simp] theorem startDesEcb_plen : (startDesEcb s).plen = s.plen := rfl
@[simp] theorem startDesEcb_olen : (startDesEcb s).olen = s.olen := rfl
@[simp] theorem startDesEcb_key : (startDesEcb s).key = s.key := rfl
@[simp] theorem startDesEcb_iv : (startDesEcb s).iv = s.iv := rfl
@[simp] theorem startDesEcb_ibuf : (startDesEcb s).ibuf = s.ibuf := rfl
@[simp] theorem startDesEcb_obuf : (startDesEcb s).obuf = s.obuf := rfl
@[simp] theorem startDesEcb_phase : (startDesEcb s).phase = .block := rfl
@[simp] theorem startDesEcb_cmdw : (startDesEcb s).cmdw = s.cmdw := rfl
@[simp] theorem startDesEcb_blk : (startDesEcb s).blk = 0 := rfl
@[simp] theorem startDesEcb_nblk : (startDesEcb s).nblk = BitVec.ofNat 32 (s.plen.toNat / 8) := rfl
@[simp] theorem startDesEcb_chain : (startDesEcb s).chain = s.chain := rfl
@[simp] theorem startDesEcb_rk : (startDesEcb s).rk = s.rk := rfl
@[simp] theorem startDesEcb_nr : (startDesEcb s).nr = s.nr := rfl
@[simp] theorem startDesEcb_ks : (startDesEcb s).ks = desKeySchedule (desKey s.key) := rfl
@[simp] theorem startDesEcb_params : (startDesEcb s).params = s.params := rfl
@[simp] theorem startDesEcb_inputs : (startDesEcb s).inputs = s.inputs := rfl
@[simp] theorem startDesEcb_response : (startDesEcb s).response = s.response := rfl

end startDesEcb

section withFetchWord

variable (s : State) (nbits w : Nat)

@[simp] theorem withFetchWord_done : (s.withFetchWord nbits w).done = s.done := rfl
@[simp] theorem withFetchWord_err : (s.withFetchWord nbits w).err = s.err := rfl
@[simp] theorem withFetchWord_klen : (s.withFetchWord nbits w).klen = s.klen := rfl
@[simp] theorem withFetchWord_ivlen : (s.withFetchWord nbits w).ivlen = s.ivlen := rfl
@[simp] theorem withFetchWord_plen : (s.withFetchWord nbits w).plen = s.plen := rfl
@[simp] theorem withFetchWord_olen : (s.withFetchWord nbits w).olen = s.olen := rfl
@[simp] theorem withFetchWord_key : (s.withFetchWord nbits w).key = s.key := rfl
@[simp] theorem withFetchWord_iv : (s.withFetchWord nbits w).iv = s.iv := rfl
@[simp] theorem withFetchWord_ibuf : (s.withFetchWord nbits w).ibuf = s.ibuf := rfl
@[simp] theorem withFetchWord_obuf : (s.withFetchWord nbits w).obuf = s.obuf := rfl
@[simp] theorem withFetchWord_phase : (s.withFetchWord nbits w).phase = .idle := rfl
@[simp] theorem withFetchWord_cmdw : (s.withFetchWord nbits w).cmdw = s.cmdw := rfl
@[simp] theorem withFetchWord_blk : (s.withFetchWord nbits w).blk = s.blk := rfl
@[simp] theorem withFetchWord_nblk : (s.withFetchWord nbits w).nblk = s.nblk := rfl
@[simp] theorem withFetchWord_chain : (s.withFetchWord nbits w).chain = s.chain := rfl
@[simp] theorem withFetchWord_rk : (s.withFetchWord nbits w).rk = s.rk := rfl
@[simp] theorem withFetchWord_nr : (s.withFetchWord nbits w).nr = s.nr := rfl
@[simp] theorem withFetchWord_ks : (s.withFetchWord nbits w).ks = s.ks := rfl
@[simp] theorem withFetchWord_params : (s.withFetchWord nbits w).params = s.params := rfl
@[simp] theorem withFetchWord_inputs : (s.withFetchWord nbits w).inputs = .hostWrite 0 (tableWord nbits w) :: s.inputs := rfl
@[simp] theorem withFetchWord_response : (s.withFetchWord nbits w).response = s.response := rfl

end withFetchWord

section resetWith

variable (p : Params)

@[simp] theorem resetWith_done : (State.resetWith p).done = false := rfl
@[simp] theorem resetWith_err : (State.resetWith p).err = 0 := rfl
@[simp] theorem resetWith_klen : (State.resetWith p).klen = 0 := rfl
@[simp] theorem resetWith_ivlen : (State.resetWith p).ivlen = 0 := rfl
@[simp] theorem resetWith_plen : (State.resetWith p).plen = 0 := rfl
@[simp] theorem resetWith_olen : (State.resetWith p).olen = 0 := rfl
@[simp] theorem resetWith_key : (State.resetWith p).key = zeroBytes 32 := rfl
@[simp] theorem resetWith_iv : (State.resetWith p).iv = zeroBytes 16 := rfl
@[simp] theorem resetWith_ibuf : (State.resetWith p).ibuf = [] := rfl
@[simp] theorem resetWith_obuf : (State.resetWith p).obuf = [] := rfl
@[simp] theorem resetWith_phase : (State.resetWith p).phase = .idle := rfl
@[simp] theorem resetWith_cmdw : (State.resetWith p).cmdw = 0 := rfl
@[simp] theorem resetWith_blk : (State.resetWith p).blk = 0 := rfl
@[simp] theorem resetWith_nblk : (State.resetWith p).nblk = 0 := rfl
@[simp] theorem resetWith_chain : (State.resetWith p).chain = zeroBytes 16 := rfl
@[simp] theorem resetWith_rk : (State.resetWith p).rk = zeroSchedule := rfl
@[simp] theorem resetWith_nr : (State.resetWith p).nr = 0 := rfl
@[simp] theorem resetWith_ks : (State.resetWith p).ks = zeroKeys := rfl
@[simp] theorem resetWith_params : (State.resetWith p).params = p := rfl
@[simp] theorem resetWith_inputs : (State.resetWith p).inputs = [] := rfl
@[simp] theorem resetWith_response : (State.resetWith p).response = none := rfl

end resetWith

@[simp] theorem bare_bare (s : State) : Safety.bare (Safety.bare s) = Safety.bare s := rfl

@[simp] theorem bare_respond (r : Response) (s : State) : Safety.bare (respond r s) = Safety.bare s := rfl

@[simp] theorem busy_respond (r : Response) (s : State) : busy (respond r s) = busy s := rfl

theorem busy_eq_false {s : State} : busy s = false ↔ s.phase = .idle := by
  unfold busy
  cases s.phase <;> decide

theorem busy_eq_true {s : State} : busy s = true ↔ s.phase ≠ .idle := by
  unfold busy
  cases s.phase <;> decide

/-- After `CLEAR` the hardware is in the reset state (R113). -/
theorem clearAll_eq_resetCore {s : State} (h : s.phase = .idle) : clearAll s = resetCore s := by
  cases s
  simp only at h
  subst h
  rfl

end Sys2Proof.Machine
end

