-- ==== Sys2Proof/Laws/Command.lean ====
section
/-! SUPPORT. What a command, a turn of the sequencer and a host access can do, said once: later proofs cite these cases and do
not unfold the meanings. -/

namespace Sys2Proof.Machine

/-- What the `CHECK` step of the AES command leaves: a failure of one of its kinds, or the start of the block loop with every check
passed. -/
theorem checkAndStartAesCbc_cases (s : State) :
    (∃ k, (k = .invalidParameter ∨ k = .keyError ∨ k = .capacityError) ∧ checkAndStartAesCbc s = raise k s) ∨
    (acceptsAesKeyLen s.params s.klen.toNat = true ∧ s.ivlen.toNat = 16 ∧
      keyReject s.params .aes (keyOperand s) = false ∧ s.plen.toNat ≤ s.params.ibufBytes ∧
      checkAndStartAesCbc s = startAesCbc s) := by
  unfold checkAndStartAesCbc
  split
  · exact .inl ⟨_, .inl rfl, rfl⟩
  split
  · exact .inl ⟨_, .inl rfl, rfl⟩
  split
  · exact .inl ⟨_, .inr (.inl rfl), rfl⟩
  split
  · exact .inl ⟨_, .inr (.inr rfl), rfl⟩
  rename_i hk hi hr hp
  exact .inr ⟨by simpa using hk, Decidable.not_not.1 hi, by simpa using hr, by omega, rfl⟩

/-- What the `CHECK` step of the DES command leaves. -/
theorem checkAndStartDesEcb_cases (s : State) :
    (∃ k, (k = .invalidParameter ∨ k = .keyError ∨ k = .alignmentError ∨ k = .capacityError) ∧
      checkAndStartDesEcb s = raise k s) ∨
    (s.klen.toNat = 8 ∧ keyReject s.params .des (desKey s.key).toList = false ∧ s.plen.toNat % 8 = 0 ∧
      s.plen.toNat ≤ s.params.ibufBytes ∧ checkAndStartDesEcb s = startDesEcb s) := by
  unfold checkAndStartDesEcb
  split
  · exact .inl ⟨_, .inl rfl, rfl⟩
  split
  · exact .inl ⟨_, .inr (.inl rfl), rfl⟩
  split
  · exact .inl ⟨_, .inr (.inr (.inl rfl)), rfl⟩
  split
  · exact .inl ⟨_, .inr (.inr (.inr rfl)), rfl⟩
  rename_i hk hr hm hp
  exact .inr ⟨Decidable.not_not.1 hk, by simpa using hr, Decidable.not_not.1 hm, by omega, rfl⟩

/-- The state after an AES block step that does not fail. -/
def cbcStepped (s : State) : State :=
  { s with
    obuf := s.obuf.writeBytes (16 * s.blk.toNat) (cbcBlockOutput s).toList
    chain := cbcBlockOutput s
    blk := s.blk + 1 }

/-- The state after a DES block step that does not fail. -/
def ecbStepped (s : State) : State :=
  { s with
    obuf := s.obuf.writeBytes (8 * s.blk.toNat) (ecbBlockOutput s).toList
    blk := s.blk + 1 }

section cbcStepped

variable (s : State)

@[simp] theorem cbcStepped_done : (cbcStepped s).done = s.done := rfl
@[simp] theorem cbcStepped_err : (cbcStepped s).err = s.err := rfl
@[simp] theorem cbcStepped_klen : (cbcStepped s).klen = s.klen := rfl
@[simp] theorem cbcStepped_ivlen : (cbcStepped s).ivlen = s.ivlen := rfl
@[simp] theorem cbcStepped_plen : (cbcStepped s).plen = s.plen := rfl
@[simp] theorem cbcStepped_olen : (cbcStepped s).olen = s.olen := rfl
@[simp] theorem cbcStepped_key : (cbcStepped s).key = s.key := rfl
@[simp] theorem cbcStepped_iv : (cbcStepped s).iv = s.iv := rfl
@[simp] theorem cbcStepped_ibuf : (cbcStepped s).ibuf = s.ibuf := rfl
@[simp] theorem cbcStepped_obuf : (cbcStepped s).obuf = s.obuf.writeBytes (16 * s.blk.toNat) (cbcBlockOutput s).toList := rfl
@[simp] theorem cbcStepped_phase : (cbcStepped s).phase = s.phase := rfl
@[simp] theorem cbcStepped_cmdw : (cbcStepped s).cmdw = s.cmdw := rfl
@[simp] theorem cbcStepped_blk : (cbcStepped s).blk = s.blk + 1 := rfl
@[simp] theorem cbcStepped_nblk : (cbcStepped s).nblk = s.nblk := rfl
@[simp] theorem cbcStepped_chain : (cbcStepped s).chain = cbcBlockOutput s := rfl
@[simp] theorem cbcStepped_rk : (cbcStepped s).rk = s.rk := rfl
@[simp] theorem cbcStepped_nr : (cbcStepped s).nr = s.nr := rfl
@[simp] theorem cbcStepped_ks : (cbcStepped s).ks = s.ks := rfl
@[simp] theorem cbcStepped_params : (cbcStepped s).params = s.params := rfl
@[simp] theorem cbcStepped_inputs : (cbcStepped s).inputs = s.inputs := rfl
@[simp] theorem cbcStepped_response : (cbcStepped s).response = s.response := rfl

end cbcStepped

section ecbStepped

variable (s : State)

@[simp] theorem ecbStepped_done : (ecbStepped s).done = s.done := rfl
@[simp] theorem ecbStepped_err : (ecbStepped s).err = s.err := rfl
@[simp] theorem ecbStepped_klen : (ecbStepped s).klen = s.klen := rfl
@[simp] theorem ecbStepped_ivlen : (ecbStepped s).ivlen = s.ivlen := rfl
@[simp] theorem ecbStepped_plen : (ecbStepped s).plen = s.plen := rfl
@[simp] theorem ecbStepped_olen : (ecbStepped s).olen = s.olen := rfl
@[simp] theorem ecbStepped_key : (ecbStepped s).key = s.key := rfl
@[simp] theorem ecbStepped_iv : (ecbStepped s).iv = s.iv := rfl
@[simp] theorem ecbStepped_ibuf : (ecbStepped s).ibuf = s.ibuf := rfl
@[simp] theorem ecbStepped_obuf : (ecbStepped s).obuf = s.obuf.writeBytes (8 * s.blk.toNat) (ecbBlockOutput s).toList := rfl
@[simp] theorem ecbStepped_phase : (ecbStepped s).phase = s.phase := rfl
@[simp] theorem ecbStepped_cmdw : (ecbStepped s).cmdw = s.cmdw := rfl
@[simp] theorem ecbStepped_blk : (ecbStepped s).blk = s.blk + 1 := rfl
@[simp] theorem ecbStepped_nblk : (ecbStepped s).nblk = s.nblk := rfl
@[simp] theorem ecbStepped_chain : (ecbStepped s).chain = s.chain := rfl
@[simp] theorem ecbStepped_rk : (ecbStepped s).rk = s.rk := rfl
@[simp] theorem ecbStepped_nr : (ecbStepped s).nr = s.nr := rfl
@[simp] theorem ecbStepped_ks : (ecbStepped s).ks = s.ks := rfl
@[simp] theorem ecbStepped_params : (ecbStepped s).params = s.params := rfl
@[simp] theorem ecbStepped_inputs : (ecbStepped s).inputs = s.inputs := rfl
@[simp] theorem ecbStepped_response : (ecbStepped s).response = s.response := rfl

end ecbStepped

/-- What a turn of the sequencer that answers a next state can be. -/
inductive Turn (s : State) : State → Prop where
  | rest : s.phase = .idle → Turn s s
  | illegal (e : Illegal) : s.phase = .check → decode s.cmdw = .error e → Turn s (raise .illegalCommand s)
  | aesFails (k : ErrorKind) : s.phase = .check → decode s.cmdw = .ok .encAesCbcPkcs7 →
      k = .invalidParameter ∨ k = .keyError ∨ k = .capacityError → Turn s (raise k s)
  | desFails (k : ErrorKind) : s.phase = .check → decode s.cmdw = .ok .encDesEcbNone →
      k = .invalidParameter ∨ k = .keyError ∨ k = .alignmentError ∨ k = .capacityError → Turn s (raise k s)
  | aesStarts : s.phase = .check → decode s.cmdw = .ok .encAesCbcPkcs7 →
      acceptsAesKeyLen s.params s.klen.toNat = true → s.ivlen.toNat = 16 →
      keyReject s.params .aes (keyOperand s) = false → s.plen.toNat ≤ s.params.ibufBytes → Turn s (startAesCbc s)
  | desStarts : s.phase = .check → decode s.cmdw = .ok .encDesEcbNone → s.klen.toNat = 8 →
      keyReject s.params .des (desKey s.key).toList = false → s.plen.toNat % 8 = 0 →
      s.plen.toNat ≤ s.params.ibufBytes → Turn s (startDesEcb s)
  | aesFinishes : s.phase = .block → decode s.cmdw = .ok .encAesCbcPkcs7 → s.blk = s.nblk →
      Turn s (completeSuccess (BitVec.ofNat 32 (s.nblk.toNat * 16)) s)
  | desFinishes : s.phase = .block → decode s.cmdw = .ok .encDesEcbNone → s.blk = s.nblk →
      Turn s (completeSuccess (BitVec.ofNat 32 (s.nblk.toNat * 8)) s)
  | aesPrimFails : s.phase = .block → decode s.cmdw = .ok .encAesCbcPkcs7 → s.blk ≠ s.nblk →
      primFail s.params .aes (keyOperand s) s.blk.toNat (cbcBlockInput s).toList = true →
      Turn s (raise .primitiveFailure s)
  | desPrimFails : s.phase = .block → decode s.cmdw = .ok .encDesEcbNone → s.blk ≠ s.nblk →
      primFail s.params .des (desKey s.key).toList s.blk.toNat (ecbInput s s.blk.toNat).toList = true →
      Turn s (raise .primitiveFailure s)
  | aesBlock : s.phase = .block → decode s.cmdw = .ok .encAesCbcPkcs7 → s.blk ≠ s.nblk →
      isRoundCount s.nr.toNat = true → cbcInRange s = true →
      primFail s.params .aes (keyOperand s) s.blk.toNat (cbcBlockInput s).toList = false → Turn s (cbcStepped s)
  | desBlock : s.phase = .block → decode s.cmdw = .ok .encDesEcbNone → s.blk ≠ s.nblk → ecbInRange s = true →
      primFail s.params .des (desKey s.key).toList s.blk.toNat (ecbInput s s.blk.toNat).toList = false →
      Turn s (ecbStepped s)

theorem sequencerTurn_idle {s : State} (h : s.phase = .idle) : sequencerTurn s = .next s := by
  unfold sequencerTurn
  rw [h]

theorem sequencerTurn_exec {s : State} {i : Instr} (h : s.phase ≠ .idle) (hd : decode s.cmdw = .ok i) :
    sequencerTurn s = exec i s := by
  unfold sequencerTurn
  rw [hd]
  cases hp : s.phase
  · exact absurd hp h
  · rfl
  · rfl

theorem sequencerTurn_illegal {s : State} {e : Illegal} (h : s.phase = .check) (hd : decode s.cmdw = .error e) :
    sequencerTurn s = .next (raise .illegalCommand s) := by
  unfold sequencerTurn
  rw [hd, h]

theorem turn_of_exec_aes {s t : State} (h : s.phase ≠ .idle) (hd : decode s.cmdw = .ok .encAesCbcPkcs7)
    (hx : exec .encAesCbcPkcs7 s = .next t) : Turn s t := by
  simp only [exec, execEncAesCbcPkcs7] at hx
  cases hp : s.phase with
  | idle => exact absurd hp h
  | check =>
    rw [hp] at hx
    obtain rfl : checkAndStartAesCbc s = t := by injection hx
    rcases checkAndStartAesCbc_cases s with ⟨k, hk, e⟩ | ⟨h1, h2, h3, h4, e⟩ <;> rw [e]
    · exact .aesFails k hp hd hk
    · exact .aesStarts hp hd h1 h2 h3 h4
  | block =>
    rw [hp] at hx
    simp only [blockAesCbc] at hx
    split at hx
    · rename_i hb
      obtain rfl := Host.Outcome.next.inj hx
      exact .aesFinishes hp hd hb
    split at hx
    · cases hx
    split at hx
    · cases hx
    rename_i hb hn hr
    obtain rfl := Host.Outcome.next.inj hx
    unfold cbcBlockStep
    split
    · rename_i hf; exact .aesPrimFails hp hd hb hf
    · rename_i hf
      exact .aesBlock hp hd hb (by simpa using hn) (by simpa using hr) (by simpa using hf)

theorem turn_of_exec_des {s t : State} (h : s.phase ≠ .idle) (hd : decode s.cmdw = .ok .encDesEcbNone)
    (hx : exec .encDesEcbNone s = .next t) : Turn s t := by
  simp only [exec, execEncDesEcbNone] at hx
  cases hp : s.phase with
  | idle => exact absurd hp h
  | check =>
    rw [hp] at hx
    obtain rfl : checkAndStartDesEcb s = t := by injection hx
    rcases checkAndStartDesEcb_cases s with ⟨k, hk, e⟩ | ⟨h1, h2, h3, h4, e⟩ <;> rw [e]
    · exact .desFails k hp hd hk
    · exact .desStarts hp hd h1 h2 h3 h4
  | block =>
    rw [hp] at hx
    simp only [blockDesEcb] at hx
    split at hx
    · rename_i hb
      obtain rfl := Host.Outcome.next.inj hx
      exact .desFinishes hp hd hb
    split at hx
    · cases hx
    rename_i hb hr
    obtain rfl := Host.Outcome.next.inj hx
    unfold ecbBlockStep
    split
    · rename_i hf; exact .desPrimFails hp hd hb hf
    · rename_i hf
      exact .desBlock hp hd hb (by simpa using hr) (by simpa using hf)

/-- The cases of a turn of the sequencer. -/
theorem turn_of_sequencerTurn {s t : State} (h : sequencerTurn s = .next t) : Turn s t := by
  cases hp : s.phase with
  | idle =>
    rw [sequencerTurn_idle hp] at h
    obtain rfl := Host.Outcome.next.inj h
    exact .rest hp
  | check =>
    cases hd : decode s.cmdw with
    | error e =>
      rw [sequencerTurn_illegal hp hd] at h
      obtain rfl := Host.Outcome.next.inj h
      exact .illegal e hp hd
    | ok i =>
      have hne : s.phase ≠ .idle := by rw [hp]; decide
      rw [sequencerTurn_exec hne hd] at h
      cases i with
      | encAesCbcPkcs7 => exact turn_of_exec_aes hne hd h
      | encDesEcbNone => exact turn_of_exec_des hne hd h
      | clear => simp only [exec, execClear, hp] at h; cases h
  | block =>
    cases hd : decode s.cmdw with
    | error e => unfold sequencerTurn at h; rw [hd, hp] at h; cases h
    | ok i =>
      have hne : s.phase ≠ .idle := by rw [hp]; decide
      rw [sequencerTurn_exec hne hd] at h
      cases i with
      | encAesCbcPkcs7 => exact turn_of_exec_aes hne hd h
      | encDesEcbNone => exact turn_of_exec_des hne hd h
      | clear => simp only [exec, execClear, hp] at h; cases h

/-- What an input of the environment that answers a next state can be. -/
inductive Taken (s : State) : Input → State → Prop where
  | answered (x : Input) (r : Response) : x ≠ .sequencer → x ≠ .reset → Taken s x (respond r s)
  | turn (t : State) : sequencerTurn s = .next t → Taken s .sequencer t
  | reset : Taken s .reset (resetCore s)
  | issued (w : Word) : s.phase = .idle → decode w ≠ .ok .clear →
      Taken s (.hostWrite 0 w) (issueWord w (respond .okay s))
  | cleared (w : Word) : s.phase = .idle → decode w = .ok .clear → Taken s (.hostWrite 0 w) (clearAll (respond .okay s))
  | stored (a : Addr) (v : Word) (l : Location) : s.phase = .idle → access s.params a = some l → l ≠ .cmd →
      Taken s (.hostWrite a v) (writeLocation (respond .okay s) v l)

theorem window_ne_cmd (p : Params) (a : Nat) : windowAt p a ≠ some .cmd := by
  unfold windowAt
  split
  · simp
  split
  · simp
  split
  · simp
  split
  · simp
  · simp

theorem offset_of_locate_cmd {p : Params} {a : Nat} (h : locateOffset p a = some .cmd) : a < 4 := by
  unfold locateOffset at h
  split at h
  · unfold registerAt at h
    split at h <;> first | omega | cases h
  · exact absurd h (window_ne_cmd p a)

theorem access_cmd {p : Params} {a : Addr} (h : access p a = some .cmd) : a = 0 := by
  unfold access aligned at h
  split at h
  · rename_i hal
    have h4 : a.toNat % 4 = 0 := by simpa using hal
    have hlt := offset_of_locate_cmd h
    exact BitVec.eq_of_toNat_eq (by show a.toNat = 0; omega)
  · cases h

theorem writeCmd_cases {w : Word} {s t : State} (hp : s.phase = .idle) (h : writeCmd w s = .next t) :
    (decode w ≠ .ok .clear ∧ t = issueWord w s) ∨ (decode w = .ok .clear ∧ t = clearAll s) := by
  unfold writeCmd at h
  cases hd : decode w with
  | error e =>
    rw [hd] at h
    exact .inl ⟨by simp, (Host.Outcome.next.inj h).symm⟩
  | ok i =>
    rw [hd] at h
    cases i with
    | encAesCbcPkcs7 =>
      simp only [exec, execEncAesCbcPkcs7, hp] at h
      rw [← encode_of_decode hd] at h
      exact .inl ⟨by simp, (Host.Outcome.next.inj h).symm⟩
    | encDesEcbNone =>
      simp only [exec, execEncDesEcbNone, hp] at h
      rw [← encode_of_decode hd] at h
      exact .inl ⟨by simp, (Host.Outcome.next.inj h).symm⟩
    | clear =>
      simp only [exec, execClear, hp] at h
      exact .inr ⟨rfl, (Host.Outcome.next.inj h).symm⟩

/-- The cases of an input of the environment. -/
theorem taken_of_takeInput {x : Input} {s t : State} (h : takeInput x s = .next t) : Taken s x t := by
  cases x with
  | hostRead a =>
    obtain rfl := Host.Outcome.next.inj h
    exact .answered _ _ (by simp) (by simp)
  | hostOtherWidth w i a =>
    obtain rfl := Host.Outcome.next.inj h
    exact .answered _ _ (by simp) (by simp)
  | sequencer => exact .turn t h
  | reset =>
    obtain rfl := Host.Outcome.next.inj h
    exact .reset
  | hostWrite a v =>
    simp only [takeInput, hostWrite] at h
    cases ha : access s.params a with
    | none =>
      rw [ha] at h
      obtain rfl := Host.Outcome.next.inj h
      exact .answered _ _ (by simp) (by simp)
    | some l =>
      rw [ha] at h
      simp only at h
      split at h
      · obtain rfl := Host.Outcome.next.inj h
        exact .answered _ _ (by simp) (by simp)
      rename_i hb
      have hp : s.phase = .idle := busy_eq_false.1 (by simpa using hb)
      split at h
      · rename_i hl
        subst hl
        obtain rfl := access_cmd ha
        rcases writeCmd_cases (by simpa using hp) h with ⟨hd, rfl⟩ | ⟨hd, rfl⟩
        · exact .issued v hp hd
        · exact .cleared v hp hd
      · rename_i hl
        obtain rfl := Host.Outcome.next.inj h
        exact .stored a v l hp ha hl

/-- The cases of a step: the head of the inputs is taken, or with none left the sequencer has its turn. -/
theorem step_cases {s t : State} (h : step s = .next t) :
    (s.inputs = [] ∧ Turn s t) ∨
    ∃ x rest, s.inputs = x :: rest ∧ Taken { s with inputs := rest } x t := by
  unfold step at h
  cases hi : s.inputs with
  | nil => rw [hi] at h; exact .inl ⟨rfl, turn_of_sequencerTurn h⟩
  | cons x rest => rw [hi] at h; exact .inr ⟨x, rest, rfl, taken_of_takeInput h⟩

end Sys2Proof.Machine
end

