-- ==== Sys2Proof/Laws/Run.lean ====
section
/-! SUPPORT. Runs of several steps: how they compose, and that with no input left each step is a turn of the sequencer. -/

namespace Sys2Proof.Machine

open Sys2Proof.Safety

@[simp] theorem runs_zero (s : State) : runs 0 s = .next s := rfl

theorem run_succ_of_step (M : Host.Core) {s t : M.State} (h : M.step s = .next t) (n : Nat) :
    M.run (n + 1) s = M.run n t := by
  rw [Host.Core.run, h]

theorem step_of_run_succ (M : Host.Core) {n : Nat} {s t : M.State} (h : M.run (n + 1) s = .next t) :
    ∃ u, M.step s = .next u ∧ M.run n u = .next t := by
  rw [Host.Core.run] at h
  cases hs : M.step s with
  | next u => rw [hs] at h; exact ⟨u, rfl, h⟩
  | fault f => rw [hs] at h; cases h
  | refused f => rw [hs] at h; cases h

theorem runs_succ_of_step {s t : State} (h : step s = .next t) (n : Nat) : runs (n + 1) s = runs n t :=
  run_succ_of_step Sys2Proof.core h n

/-- A run of at least one step that answers a next state begins with a step that does. -/
theorem step_of_runs_succ {n : Nat} {s t : State} (h : runs (n + 1) s = .next t) :
    ∃ u, step s = .next u ∧ runs n u = .next t :=
  step_of_run_succ Sys2Proof.core h

theorem runs_add {m : Nat} {s t : State} (h : runs m s = .next t) (n : Nat) : runs (m + n) s = runs n t := by
  induction m generalizing s with
  | zero =>
    obtain rfl : s = t := Host.Outcome.next.inj h
    rw [Nat.zero_add]
  | succ m ih =>
    obtain ⟨u, hu, hr⟩ := step_of_runs_succ h
    rw [show m + 1 + n = m + n + 1 by omega, runs_succ_of_step hu]
    exact ih hr

theorem step_of_no_inputs {s : State} (h : s.inputs = []) : step s = sequencerTurn s := by
  unfold step
  rw [h]

theorem step_of_input {s : State} {x : Input} {rest : List Input} (h : s.inputs = x :: rest) :
    step s = takeInput x { s with inputs := rest } := by
  unfold step
  rw [h]

/-- A turn of the sequencer leaves the inputs and the last response alone. -/
theorem turn_env {s t : State} (h : Turn s t) : t.inputs = s.inputs ∧ t.response = s.response ∧ t.params = s.params := by
  cases h <;> exact ⟨rfl, rfl, rfl⟩

/-- A command word written to `CMD` in `IDLE` and not `CLEAR` is issued (R111). -/
theorem takeInput_cmd {s : State} {w : Word} (hp : s.phase = .idle) (hd : decode w ≠ .ok .clear) :
    takeInput (.hostWrite 0 w) s = .next (issueWord w (respond .okay s)) := by
  have ha : access s.params 0 = some .cmd := by
    unfold access aligned locate locateOffset
    rfl
  have hb : busy s = false := busy_eq_false.2 hp
  simp only [takeInput, hostWrite, ha, hb, if_true, Bool.false_eq_true, if_false]
  unfold writeCmd
  cases hw : decode w with
  | error e => rfl
  | ok i =>
    cases i with
    | clear => exact absurd hw hd
    | encAesCbcPkcs7 =>
      simp only [exec, execEncAesCbcPkcs7, respond, hp]
      rw [← encode_of_decode hw]
    | encDesEcbNone =>
      simp only [exec, execEncDesEcbNone, respond, hp]
      rw [← encode_of_decode hw]

end Sys2Proof.Machine
end

