-- ==== Sys2Proof/Laws/BigStep.lean ====
section
/-! SUPPORT. The block loops of the machine against the loops of R208 and R235: the blocks the machine forms are those of the
padded plaintext, and from any state of a loop the steps left are the loop left. -/

namespace Sys2Proof.Machine

open Sys2Proof.Safety Sys2Proof.Laws

@[simp] theorem plaintext_length (m : Memory) (n : Nat) : (plaintext m n).length = n := by simp [plaintext]

theorem plaintext_getD (m : Memory) {n i : Nat} (h : i < n) : (plaintext m n).getD i 0 = m.read i := by
  simp [plaintext, List.getD_eq_getElem?_getD, h]

theorem pad_length (p : List Byte) : (pad p).length = 16 * (p.length / 16 + 1) := by
  simp [pad, padLen]; omega

theorem pad_getD (p : List Byte) (i : Nat) (h : i < (pad p).length) :
    (pad p).getD i 0 = if i < p.length then p.getD i 0 else BitVec.ofNat 8 (padLen p.length) := by
  unfold pad at h ⊢
  simp only [List.length_append, List.length_replicate] at h
  split
  · rename_i hi
    simp [List.getD_eq_getElem?_getD, List.getElem?_append_left hi]
  · rename_i hi
    simp only [List.getD_eq_getElem?_getD]
    rw [List.getElem?_append_right (by omega)]
    simp [show i - p.length < padLen p.length by omega]

/-- `In(i)` is `Pad(P)[16i..16i+16)` (R205). -/
theorem cbcInput_eq (s : State) {i : Nat} (h : i < s.plen.toNat / 16 + 1) :
    cbcInput s i = blockAt 16 (pad (plaintext s.ibuf s.plen.toNat)) i := by
  refine Vector.ext fun j hj => ?_
  simp only [cbcInput, blockAt, Vector.getElem_ofFn]
  rw [pad_getD _ _ (by rw [pad_length, plaintext_length]; omega), plaintext_length]
  split
  · rename_i h'; rw [plaintext_getD _ h']
  · rfl

/-- The DES input of block `i` is `P[8i..8i+8)` (R233). -/
theorem ecbInput_eq (s : State) {i : Nat} (h : 8 * i + 8 ≤ s.plen.toNat) :
    ecbInput s i = blockAt 8 (plaintext s.ibuf s.plen.toNat) i := by
  refine Vector.ext fun j hj => ?_
  simp only [ecbInput, blockAt, Vector.getElem_ofFn, Memory.getElem_readBytes]
  rw [plaintext_getD _ (by omega)]

theorem step_of_exec {s t : State} {i : Instr} (hi : s.inputs = []) (hp : s.phase ≠ .idle) (hd : decode s.cmdw = .ok i)
    (h : exec i s = .next t) : step s = .next t := by
  rw [step_of_no_inputs hi, sequencerTurn_exec hp hd, h]

theorem raise_eq {s : State} (hi : s.inputs = []) (k : ErrorKind) :
    raise k s = { resultState (.fail k) s.params with response := s.response } := by
  cases s; simp only at hi; subst hi; rfl

/-- From a state of the AES block loop the machine does what the loop of R208 does, in as many steps, busy until the last. -/
theorem aes_loop (n : Nat) : ∀ (s : State) (out : List Byte), s.inputs = [] → s.phase = .block →
    decode s.cmdw = .ok .encAesCbcPkcs7 → isRoundCount s.nr.toNat = true →
    s.plen.toNat ≤ s.params.ibufBytes → s.params.wf = true →
    s.nblk.toNat = s.plen.toNat / 16 + 1 → s.blk.toNat + n = s.nblk.toNat → s.obuf = Memory.writeBytes [] 0 out →
    out.length = 16 * s.blk.toNat →
    let e := cbcLoop s.params (keyOperand s) s.rk s.nr.toNat (pad (plaintext s.ibuf s.plen.toNat)) n s.blk.toNat s.chain out
    let r := e.result s.nblk.toNat
    s.blk.toNat + 2 ≤ r.2 ∧
    runs (r.2 - 1 - s.blk.toNat) s = .next { resultState r.1 s.params with response := s.response } ∧
    ∀ j, j < r.2 - 1 - s.blk.toNat → ∃ u, runs j s = .next u ∧ busy u = true := by
  induction n with
  | zero =>
    intro s out hi hp hd hn hf hw hb hbn ho hl
    have hpw := ibufBytes_of_wf hw
    have hbe : s.blk = s.nblk := BitVec.eq_of_toNat_eq (by omega)
    have hs : step s = .next (completeSuccess (BitVec.ofNat 32 (s.nblk.toNat * 16)) s) := by
      refine step_of_exec hi (by rw [hp]; decide) hd ?_
      simp only [exec, execEncAesCbcPkcs7, hp, blockAesCbc, if_pos hbe]
    simp only [cbcLoop, LoopEnd.result]
    refine ⟨by omega, ?_, ?_⟩
    · rw [show s.nblk.toNat + 2 - 1 - s.blk.toNat = 0 + 1 by omega, runs_succ_of_step hs, runs_zero]
      cases s
      simp only at hi ho hl hbe
      subst hi ho hbe
      simp only [resultState, completeSuccess, wipe, State.resetWith, hl]
      rw [Nat.mul_comm]
    · intro j hj
      have : j = 0 := by omega
      subst this
      exact ⟨s, rfl, busy_eq_true.2 (by rw [hp]; decide)⟩
  | succ n ih =>
    intro s out hi hp hd hn hf hw hb hbn ho hl
    have hpw := ibufBytes_of_wf hw
    have hne : s.blk ≠ s.nblk := fun h => by rw [h] at hbn; omega
    have hr : cbcInRange s = true := by
      simp only [cbcInRange, Params.obufBytes, Bool.and_eq_true, decide_eq_true_eq]
      exact ⟨by omega, by omega⟩
    have hex : exec .encAesCbcPkcs7 s = .next (cbcBlockStep s) := by
      simp only [exec, execEncAesCbcPkcs7, hp, blockAesCbc]
      rw [if_neg hne, if_neg (by simp [hn]), if_neg (by simp [hr])]
    have hs := step_of_exec hi (by rw [hp]; decide) hd hex
    have hx : cbcBlockInput s = xorBytes (blockAt 16 (pad (plaintext s.ibuf s.plen.toNat)) s.blk.toNat) s.chain := by
      rw [cbcBlockInput, cbcInput_eq s (by omega)]
    have hnb := s.nblk.isLt
    simp only [cbcLoop, ← hx]
    by_cases hfail : primFail s.params .aes (keyOperand s) s.blk.toNat (cbcBlockInput s).toList = true
    · rw [if_pos hfail]
      simp only [LoopEnd.result]
      rw [cbcBlockStep, if_pos hfail] at hs
      refine ⟨by omega, ?_, ?_⟩
      · rw [show s.blk.toNat + 2 - 1 - s.blk.toNat = 0 + 1 by omega, runs_succ_of_step hs, runs_zero, raise_eq hi]
      · intro j hj
        have : j = 0 := by omega
        subst this
        exact ⟨s, rfl, busy_eq_true.2 (by rw [hp]; decide)⟩
    · rw [if_neg hfail]
      rw [cbcBlockStep, if_neg hfail] at hs
      change step s = .next (cbcStepped s) at hs
      have e1 : (cbcStepped s).blk.toNat = s.blk.toNat + 1 := by simp; omega
      have := ih (cbcStepped s) (out ++ (cbcBlockOutput s).toList) hi hp hd hn hf hw hb
        (by rw [e1]; simp only [cbcStepped_nblk]; omega)
        (by rw [cbcStepped_obuf, ho, Memory.writeBytes_append, hl]; simp) (by rw [e1]; simp [hl]; omega)
      rw [e1] at this
      obtain ⟨h1, h2, h3⟩ := this
      simp only [cbcStepped_params, cbcStepped_rk, cbcStepped_nr, cbcStepped_plen, cbcStepped_ibuf,
        cbcStepped_chain, cbcStepped_nblk, cbcStepped_response] at h1 h2 h3
      have hk : keyOperand (cbcStepped s) = keyOperand s := rfl
      rw [hk] at h1 h2 h3
      rw [show cbcBlockOutput s = aesEncryptBlock s.rk s.nr.toNat (cbcBlockInput s) from rfl] at h1 h2 h3
      generalize (cbcLoop s.params (keyOperand s) s.rk s.nr.toNat (pad (plaintext s.ibuf s.plen.toNat)) n (s.blk.toNat + 1)
        (aesEncryptBlock s.rk s.nr.toNat (cbcBlockInput s)) 
          (out ++ (aesEncryptBlock s.rk s.nr.toNat (cbcBlockInput s)).toList)).result s.nblk.toNat = r at h1 h2 h3 ⊢
      refine ⟨by omega, ?_, ?_⟩
      · rw [show r.2 - 1 - s.blk.toNat = (r.2 - 1 - (s.blk.toNat + 1)) + 1 by omega, runs_succ_of_step hs]
        exact h2
      · intro j hj
        cases j with
        | zero => exact ⟨s, rfl, busy_eq_true.2 (by rw [hp]; decide)⟩
        | succ j => rw [runs_succ_of_step hs]; exact h3 j (by omega)

/-- From a state of the DES block loop the machine does what the loop of R235 does, in as many steps, busy until the last. -/
theorem des_loop (n : Nat) : ∀ (s : State) (out : List Byte), s.inputs = [] → s.phase = .block →
    decode s.cmdw = .ok .encDesEcbNone → s.plen.toNat ≤ s.params.ibufBytes →
    s.params.wf = true → s.plen.toNat % 8 = 0 →
    s.nblk.toNat = s.plen.toNat / 8 → s.blk.toNat + n = s.nblk.toNat → s.obuf = Memory.writeBytes [] 0 out →
    out.length = 8 * s.blk.toNat →
    let e := ecbLoop s.params (desKey s.key).toList s.ks (plaintext s.ibuf s.plen.toNat) n s.blk.toNat out
    let r := e.result s.nblk.toNat
    s.blk.toNat + 2 ≤ r.2 ∧
    runs (r.2 - 1 - s.blk.toNat) s = .next { resultState r.1 s.params with response := s.response } ∧
    ∀ j, j < r.2 - 1 - s.blk.toNat → ∃ u, runs j s = .next u ∧ busy u = true := by
  induction n with
  | zero =>
    intro s out hi hp hd hf hw hm hb hbn ho hl
    have hbe : s.blk = s.nblk := BitVec.eq_of_toNat_eq (by omega)
    have hs : step s = .next (completeSuccess (BitVec.ofNat 32 (s.nblk.toNat * 8)) s) := by
      refine step_of_exec hi (by rw [hp]; decide) hd ?_
      simp only [exec, execEncDesEcbNone, hp, blockDesEcb, if_pos hbe]
    simp only [ecbLoop, LoopEnd.result]
    refine ⟨by omega, ?_, ?_⟩
    · rw [show s.nblk.toNat + 2 - 1 - s.blk.toNat = 0 + 1 by omega, runs_succ_of_step hs, runs_zero]
      cases s
      simp only at hi ho hl hbe
      subst hi ho hbe
      simp only [resultState, completeSuccess, wipe, State.resetWith, hl]
      rw [Nat.mul_comm]
    · intro j hj
      have : j = 0 := by omega
      subst this
      exact ⟨s, rfl, busy_eq_true.2 (by rw [hp]; decide)⟩
  | succ n ih =>
    intro s out hi hp hd hf hw hm hb hbn ho hl
    have hne : s.blk ≠ s.nblk := fun h => by rw [h] at hbn; omega
    have hr : ecbInRange s = true := by
      simp only [ecbInRange, decide_eq_true_eq]; omega
    have hex : exec .encDesEcbNone s = .next (ecbBlockStep s) := by
      simp only [exec, execEncDesEcbNone, hp, blockDesEcb]
      rw [if_neg hne, if_neg (by simp [hr])]
    have hs := step_of_exec hi (by rw [hp]; decide) hd hex
    have hx : ecbInput s s.blk.toNat = blockAt 8 (plaintext s.ibuf s.plen.toNat) s.blk.toNat := ecbInput_eq s (by omega)
    have hnb := s.nblk.isLt
    simp only [ecbLoop, ← hx]
    by_cases hfail : primFail s.params .des (desKey s.key).toList s.blk.toNat (ecbInput s s.blk.toNat).toList = true
    · rw [if_pos hfail]
      simp only [LoopEnd.result]
      rw [ecbBlockStep, if_pos hfail] at hs
      refine ⟨by omega, ?_, ?_⟩
      · rw [show s.blk.toNat + 2 - 1 - s.blk.toNat = 0 + 1 by omega, runs_succ_of_step hs, runs_zero, raise_eq hi]
      · intro j hj
        have : j = 0 := by omega
        subst this
        exact ⟨s, rfl, busy_eq_true.2 (by rw [hp]; decide)⟩
    · rw [if_neg hfail]
      rw [ecbBlockStep, if_neg hfail] at hs
      change step s = .next (ecbStepped s) at hs
      have e1 : (ecbStepped s).blk.toNat = s.blk.toNat + 1 := by simp; omega
      have := ih (ecbStepped s) (out ++ (ecbBlockOutput s).toList) hi hp hd hf hw hm hb
        (by rw [e1]; simp only [ecbStepped_nblk]; omega)
        (by rw [ecbStepped_obuf, ho, Memory.writeBytes_append, hl]; simp) (by rw [e1]; simp [hl]; omega)
      rw [e1] at this
      obtain ⟨h1, h2, h3⟩ := this
      simp only [ecbStepped_params, ecbStepped_key, ecbStepped_ks, ecbStepped_plen,
        ecbStepped_ibuf, ecbStepped_nblk, ecbStepped_response] at h1 h2 h3
      rw [show ecbBlockOutput s = desEncryptBlock s.ks (ecbInput s s.blk.toNat) from rfl] at h1 h2 h3
      generalize (ecbLoop s.params (desKey s.key).toList s.ks (plaintext s.ibuf s.plen.toNat) n (s.blk.toNat + 1)
        (out ++ (desEncryptBlock s.ks (ecbInput s s.blk.toNat)).toList)).result s.nblk.toNat = r at h1 h2 h3 ⊢
      refine ⟨by omega, ?_, ?_⟩
      · rw [show r.2 - 1 - s.blk.toNat = (r.2 - 1 - (s.blk.toNat + 1)) + 1 by omega, runs_succ_of_step hs]
        exact h2
      · intro j hj
        cases j with
        | zero => exact ⟨s, rfl, busy_eq_true.2 (by rw [hp]; decide)⟩
        | succ j => rw [runs_succ_of_step hs]; exact h3 j (by omega)

/-- Storing a schedule depends on the old one only where the new one does not reach. -/
theorem storeSchedule_cong (w : List AesWord) (rk rk' : AesSchedule)
    (h : ∀ (i : Nat) (h : i < 60), w.length ≤ i → rk[i] = rk'[i]) :
    storeSchedule w rk = storeSchedule w rk' := by
  unfold storeSchedule
  refine Vector.ext fun i hi => ?_
  simp only [Vector.getElem_ofFn]
  rcases Nat.lt_or_ge i w.length with h' | h'
  · rw [List.getElem?_eq_getElem h']; rfl
  · rw [List.getElem?_eq_none h']; exact h i hi h'

/-- The loop of R208 depends on the words of the schedule that the blocks read. -/
theorem cbcLoop_congr {p : Params} {k : List Byte} {rk rk' : AesSchedule} {nr : Nat} {m : List Byte}
    (h : ∀ (i : Nat) (h : i < 60), i < 4 * (nr + 1) → rk[i] = rk'[i]) (n : Nat) :
    ∀ i c out,
    cbcLoop p k rk nr m n i c out = cbcLoop p k rk' nr m n i c out := by
  induction n with
  | zero => intros; rfl
  | succ n ih =>
    intro i c out
    simp only [cbcLoop]
    split
    · rfl
    · rw [aesEncryptBlock_congr h, ih]

theorem plaintext_congr {m m' : Memory} {n : Nat} (h : ∀ a, a < n → m'.read a = m.read a) :
    plaintext m' n = plaintext m n := by
  unfold plaintext
  refine List.map_congr_left fun a ha => h a (by simpa using ha)

/-- The DES key is `KEY[0..8)` (R231). -/
theorem desKey_toList (k : Bytes 32) : (desKey k).toList = keyPrefix k 8 := by
  apply List.ext_getElem
  · simp [keyPrefix]
  · intro i h1 h2
    simp [desKey, keyPrefix] at h1 h2 ⊢

end Sys2Proof.Machine
end

