-- ==== Sys2Proof/Laws/Bits.lean ====
section
/-! SUPPORT. The bits of a DES value: what `bitsOf`, and with it every DES permutation, puts at each position. -/

namespace Sys2Proof.Machine

@[simp] theorem getMsbD_bitsOf {n i : Nat} (f : Nat → Bool) (h : i < n) : (bitsOf n f).getMsbD i = f i := by
  induction n with
  | zero => omega
  | succ n ih =>
    rw [bitsOf, BitVec.getMsbD_concat]
    by_cases hi : i < n
    · simp [hi, ih hi]
    · have : i = n := by omega
      subst this
      simp

/-- Two DES values are equal when all their bits are. -/
theorem eq_of_getMsbD {n : Nat} {x y : BitVec n} (h : ∀ i, i < n → x.getMsbD i = y.getMsbD i) : x = y :=
  BitVec.eq_of_getMsbD_eq fun i hi => h i hi

theorem getMsbD_permute {n m i : Nat} (t : List Nat) (v : BitVec n) (h : i < m) :
    (permute m t v).getMsbD i = v.getMsbD (t.getD i 0 - 1) := getMsbD_bitsOf _ h

theorem getMsbD_rotL28 {i : Nat} (v : BitVec 28) (s : Nat) (h : i < 28) :
    (rotL28 v s).getMsbD i = v.getMsbD ((i + s) % 28) := getMsbD_bitsOf _ h

theorem getMsbD_desBits {i : Nat} (x : Bytes 8) (h : i < 64) :
    (desBits x).getMsbD i = (x[i / 8]'(by omega)).getMsbD (i % 8) := by
  rw [desBits, getMsbD_bitsOf _ h, Vector.getElem?_eq_getElem (by omega)]
  rfl

/-- `desBits` and `desBytes` are inverse (R170). -/
theorem desBytes_desBits (x : Bytes 8) : desBytes (desBits x) = x := by
  refine Vector.ext fun i hi => eq_of_getMsbD fun j hj => ?_
  simp only [desBytes, Vector.getElem_ofFn]
  rw [getMsbD_bitsOf _ hj, getMsbD_desBits _ (by omega)]
  simp only [show (8 * i + j) / 8 = i by omega, show (8 * i + j) % 8 = j by omega]

theorem desBits_desBytes (v : BitVec 64) : desBits (desBytes v) = v := by
  refine eq_of_getMsbD fun i hi => ?_
  rw [getMsbD_desBits _ hi]
  simp only [desBytes, Vector.getElem_ofFn]
  rw [getMsbD_bitsOf _ (by omega), show 8 * (i / 8) + i % 8 = i by omega]

end Sys2Proof.Machine
end

