-- ==== Sys2Proof/Laws/Invariant.lean ====
section
/-! SUPPORT. How the shared operations and each case of a step bear on `SafeState`: completing, failing, the range of a block's
accesses, one turn of the sequencer, one input. -/

namespace Sys2Proof.Safety

open Sys2Proof.Machine Sys2Proof.Laws

/-- The hardware part of the reset state meets what holds in `IDLE`. -/
theorem idleInv_resetCore (s : State) : IdleInv (resetCore s) := by
  refine ⟨rfl, ⟨rfl, rfl, rfl, rfl, rfl, rfl⟩, ?_, ?_, ?_, ?_, ?_⟩
  · intro; rfl
  · intro; exact ⟨rfl, rfl⟩
  · show (0#4).toNat ≤ 6; decide
  · simp
  · intro a _; rfl

/-- A state in `IDLE` is safe when its shape and what holds in `IDLE` are. -/
theorem safeState_of_idleInv {s : State} (hs : Shape s) (hp : s.phase = .idle) (hi : IdleInv s) : SafeState s :=
  ⟨hs, fun _ => hi, fun h => by simp [hp] at h, fun h => by simp [hp] at h⟩

theorem shape_of_empty {s : State} (hp : s.params.wf = true) (h1 : s.ibuf = []) (h2 : s.obuf = []) : Shape s := by
  refine ⟨hp, ?_, ?_, ?_, ?_⟩ <;> simp [h1, h2, Memory.wf, Memory.within]

/-- A failure leaves a safe state (R259). -/
theorem safeState_raise {s : State} (hs : Shape s) (k : ErrorKind) : SafeState (raise k s) := by
  refine safeState_of_idleInv (shape_of_empty hs.params rfl rfl) rfl ⟨rfl, ⟨rfl, rfl, rfl, rfl, rfl, rfl⟩, ?_, ?_, ?_, ?_, ?_⟩
  · intro h; simp at h
  · intro; exact ⟨rfl, rfl⟩
  · show k.code.toNat ≤ 6; cases k <;> decide
  · simp
  · intro a _; rfl

/-- Inputs and response have no part in `SafeState`. -/
theorem safeState_of_bare_eq {s t : State} (h : SafeState s) (e : bare s = bare t) : SafeState t := by
  obtain ⟨⟩ := s
  obtain ⟨⟩ := t
  simp only [bare, State.mk.injEq] at e
  obtain ⟨rfl, rfl, rfl, rfl, rfl, rfl, rfl, rfl, rfl, rfl, rfl, rfl, rfl, rfl, rfl, rfl, rfl, rfl, rfl, -, -⟩ := e
  obtain ⟨⟨a1,a2,a3,a4,a5⟩, b, c, d⟩ := h
  refine ⟨⟨a1,a2,a3,a4,a5⟩, fun hp => ?_, fun hp => ?_, fun hp => ?_⟩
  · obtain ⟨a1,a2,a3,a4,a5,a6,a7⟩ := b hp; exact ⟨a1,a2,a3,a4,a5,a6,a7⟩
  · obtain ⟨a1,a2,a3,a4⟩ := c hp; exact ⟨a1,a2,a3,a4⟩
  · obtain ⟨a1,a2,a3⟩ := d hp
    refine ⟨a1, a2, ?_⟩
    rcases a3 with ⟨a1,a2,a3,a4,a5,a6,a7,a8,a9,a10,a11⟩ | ⟨a1,a2,a3,a4,a5,a6,a7,a8,a9,a10⟩
    · exact .inl ⟨a1,a2,a3,a4,a5,a6,a7,a8,a9,a10,a11⟩
    · exact .inr ⟨a1,a2,a3,a4,a5,a6,a7,a8,a9,a10⟩

/-- A success of a length that covers the bytes written leaves a safe state (R124). -/
theorem safeState_completeSuccess {s : State} (hs : Shape s) (n : Word) (hn : n.toNat ≤ s.params.obufBytes)
    (hz : ZeroFrom s n.toNat) :
    SafeState (completeSuccess n s) := by
  refine safeState_of_idleInv ⟨hs.params, by simp [Memory.wf], hs.obufWf, by simp [Memory.within], hs.obufIn⟩ rfl
    ⟨rfl, ⟨rfl, rfl, rfl, rfl, rfl, rfl⟩, ?_, ?_, ?_, ?_, ?_⟩
  · intro; rfl
  · intro h; simp at h
  · show (0#4).toNat ≤ 6; decide
  · exact hn
  · exact hz

/-- The round count of an AES command in `BLOCK` is one (R44). -/
theorem isRoundCount_of_aesBlock {s : State} (h : AesBlock s) : isRoundCount s.nr.toNat = true := by
  have hk := h.keyLen
  have hl : (keyOperand s).length = min s.klen.toNat 32 := by simp [keyOperand, keyPrefix]
  have h2 := h.rounds
  simp only [acceptsAesKeyLen, Bool.or_eq_true, Bool.and_eq_true, beq_iff_eq] at hk
  rw [h2]
  unfold aesRoundCount
  rw [hl]
  rcases hk with ⟨e, _⟩ | ⟨e, _⟩ | ⟨e, _⟩ <;> rw [e] <;> rfl

/-- The accesses of an AES block step are in range (R69). -/
theorem cbcInRange_of_aesBlock {s : State} (hs : Shape s) (hle : s.blk.toNat ≤ s.nblk.toNat) (hne : s.blk ≠ s.nblk)
    (h : AesBlock s) :
    cbcInRange s = true := by
  have hpw := ibufBytes_of_wf hs.params
  have hlt : s.blk.toNat < s.nblk.toNat := by
    rcases Nat.lt_or_eq_of_le hle with h | h
    · exact h
    · exact absurd (BitVec.eq_of_toNat_eq h) hne
  have := h.blocks
  have := h.fits
  simp only [cbcInRange, Bool.and_eq_true, decide_eq_true_eq, Params.obufBytes]
  exact ⟨by omega, by omega⟩

/-- The accesses of a DES block step are in range (R69). -/
theorem ecbInRange_of_desBlock {s : State} (hs : Shape s) (hle : s.blk.toNat ≤ s.nblk.toNat) (hne : s.blk ≠ s.nblk)
    (h : DesBlock s) :
    ecbInRange s = true := by
  have hpw := ibufBytes_of_wf hs.params
  have hlt : s.blk.toNat < s.nblk.toNat := by
    rcases Nat.lt_or_eq_of_le hle with h | h
    · exact h
    · exact absurd (BitVec.eq_of_toNat_eq h) hne
  have := h.blocks
  have := h.fits
  simp only [ecbInRange, decide_eq_true_eq]
  omega

/-- A turn of the sequencer keeps `SafeState`. -/
theorem safeState_of_turn {s t : State} (h : SafeState s) (ht : Turn s t) : SafeState t := by
  have hs := h.shape
  have hpw := ibufBytes_of_wf hs.params
  have hplen := s.plen.isLt
  cases ht with
  | rest _ => exact h
  | illegal e hp hd => exact safeState_raise hs _
  | aesFails k hp hd _ => exact safeState_raise hs _
  | desFails k hp hd _ => exact safeState_raise hs _
  | aesPrimFails => exact safeState_raise hs _
  | desPrimFails => exact safeState_raise hs _
  | aesStarts hp hd hk hi hr hf =>
    have hc := h.check hp
    obtain ⟨u1, u2, u3, u4, u5, u6⟩ := hc.unstarted
    refine ⟨⟨hs.params, hs.ibufWf, hs.obufWf, hs.ibufIn, hs.obufIn⟩, fun q => by simp at q, fun q => by simp at q, fun _ =>
      ⟨⟨hc.noResult.1, hc.noResult.2.1, hc.noResult.2.2⟩, by simp,
        .inl ⟨hd, hk, BitVec.eq_of_toNat_eq hi, hf, ?_, rfl, ?_, u6, fun _ => rfl, ?_, ?_⟩⟩⟩
    · simp [u4, keyOperand]
    · simp; omega
    · intro q; simp at q
    · intro a _; simp [hc.obuf]
  | desStarts hp hd hk hr hm hf =>
    have hc := h.check hp
    obtain ⟨u1, u2, u3, u4, u5, u6⟩ := hc.unstarted
    refine ⟨⟨hs.params, hs.ibufWf, hs.obufWf, hs.ibufIn, hs.obufIn⟩, fun q => by simp at q, fun q => by simp at q, fun _ =>
      ⟨⟨hc.noResult.1, hc.noResult.2.1, hc.noResult.2.2⟩, by simp,
        .inr ⟨hd, BitVec.eq_of_toNat_eq hk, hm, hf, rfl, ?_, u3, u4, u5, ?_⟩⟩⟩
    · simp; omega
    · intro a _; simp [hc.obuf]
  | aesFinishes hp hd hb =>
    have hB := h.block hp
    rcases hB.command with ha | ha
    · have := ha.blocks
      have := ha.fits
      have e : (BitVec.ofNat 32 (s.nblk.toNat * 16)).toNat = 16 * s.nblk.toNat := by
        simp; omega
      refine safeState_completeSuccess hs _ ?_ ?_
      · rw [e]; simp only [Params.obufBytes]; omega
      · rw [e, ← hb]; exact ha.zeroAfter
    · exact absurd (hd.symm.trans ha.word) (by simp)
  | desFinishes hp hd hb =>
    have hB := h.block hp
    rcases hB.command with ha | ha
    · exact absurd (hd.symm.trans ha.word) (by simp)
    · have := ha.blocks
      have := ha.fits
      have e : (BitVec.ofNat 32 (s.nblk.toNat * 8)).toNat = 8 * s.nblk.toNat := by
        simp; omega
      refine safeState_completeSuccess hs _ ?_ ?_
      · rw [e]; simp only [Params.obufBytes]; omega
      · rw [e, ← hb]; exact ha.zeroAfter
  | aesBlock hp hd hb hn hr hf =>
    have hB := h.block hp
    rcases hB.command with ha | ha
    · have hlt : s.blk.toNat < s.nblk.toNat := by
        rcases Nat.lt_or_eq_of_le hB.blkLe with h | h
        · exact h
        · exact absurd (BitVec.eq_of_toNat_eq h) hb
      have hbl := ha.blocks
      have hfi := ha.fits
      have hnb := s.nblk.isLt
      have e1 : (s.blk + 1).toNat = s.blk.toNat + 1 := by simp; omega
      have hrange : 16 * s.blk.toNat + (cbcBlockOutput s).toList.length ≤ s.params.obufBytes := by
        simp only [Vector.length_toList, Params.obufBytes]; omega
      refine ⟨⟨hs.params, hs.ibufWf, Memory.writeBytes_wf hs.obufWf _ _, hs.ibufIn, Memory.writeBytes_within hs.obufIn hrange⟩,
        fun q => by simp [cbcStepped, hp] at q, fun q => by simp [cbcStepped, hp] at q, fun _ =>
        ⟨⟨hB.noResult.1, hB.noResult.2.1, hB.noResult.2.2⟩, ?_,
          .inl ⟨hd, ha.keyLen, ha.ivLen, hfi, ha.schedule, ha.rounds, hbl, ha.keys, ?_, ?_, ?_⟩⟩⟩
      · show (s.blk + 1).toNat ≤ _; rw [e1]; exact hlt
      · intro q
        have : (s.blk + 1).toNat = 0 := by rw [show s.blk + 1 = 0 from q]; rfl
        omega
      · intro _
        show cbcBlockOutput s = Memory.readBytes (Memory.writeBytes _ _ _) (16 * ((s.blk + 1).toNat - 1)) 16
        refine Vector.ext fun i hi => ?_
        rw [Memory.getElem_readBytes, e1, Memory.read_writeBytes_inside hs.obufWf (by omega) (by simp; omega)]
        simp [Vector.getElem_toList]
      · intro a hle
        have hle' : 16 * (s.blk + 1).toNat ≤ a := hle
        show Memory.read (Memory.writeBytes _ _ _) a = 0
        rw [Memory.read_writeBytes_outside _ (by simp; omega)]
        exact ha.zeroAfter a (by omega)
    · exact absurd (hd.symm.trans ha.word) (by simp)
  | desBlock hp hd hb hr hf =>
    have hB := h.block hp
    rcases hB.command with ha | ha
    · exact absurd (hd.symm.trans ha.word) (by simp)
    · have hlt : s.blk.toNat < s.nblk.toNat := by
        rcases Nat.lt_or_eq_of_le hB.blkLe with h | h
        · exact h
        · exact absurd (BitVec.eq_of_toNat_eq h) hb
      have hbl := ha.blocks
      have hfi := ha.fits
      have hnb := s.nblk.isLt
      have e1 : (s.blk + 1).toNat = s.blk.toNat + 1 := by simp; omega
      have hrange : 8 * s.blk.toNat + (ecbBlockOutput s).toList.length ≤ s.params.obufBytes := by
        simp only [Vector.length_toList, Params.obufBytes]; omega
      refine ⟨⟨hs.params, hs.ibufWf, Memory.writeBytes_wf hs.obufWf _ _, hs.ibufIn, Memory.writeBytes_within hs.obufIn hrange⟩,
        fun q => by simp [ecbStepped, hp] at q, fun q => by simp [ecbStepped, hp] at q, fun _ =>
        ⟨⟨hB.noResult.1, hB.noResult.2.1, hB.noResult.2.2⟩, ?_,
          .inr ⟨hd, ha.keyLen, ha.multiple, hfi, ha.schedule, hbl, ha.chain, ha.rk, ha.nr, ?_⟩⟩⟩
      · show (s.blk + 1).toNat ≤ _; rw [e1]; exact hlt
      · intro a hle
        have hle' : 8 * (s.blk + 1).toNat ≤ a := hle
        show Memory.read (Memory.writeBytes _ _ _) a = 0
        rw [Memory.read_writeBytes_outside _ (by simp; omega)]
        exact ha.zeroAfter a (by omega)

/-- A word of `IBUF` that the port reaches lies inside `IBUF` (R65). -/
theorem ibuf_word_fits {p : Params} {a : Addr} {o : Nat} (hp : p.wf = true) (h : access p a = some (.ibuf o)) :
    o + 4 ≤ p.ibufBytes := by
  have := ibufBytes_of_wf hp
  unfold access aligned at h
  split at h
  · rename_i hal
    have h4 : a.toNat % 4 = 0 := by simpa using hal
    unfold locate locateOffset at h
    split at h
    · unfold registerAt at h
      split at h <;> cases h
    · unfold windowAt at h
      split at h
      · cases h
      split at h
      · cases h
      split at h
      · have := Option.some.inj h
        injection this
        simp only [ibufBase] at *
        omega
      split at h <;> cases h
  · cases h

/-- An input keeps `SafeState`. -/
theorem safeState_of_taken {s t : State} {x : Input} (h : SafeState s) (ht : Taken s x t) : SafeState t := by
  have hs := h.shape
  cases ht with
  | answered r h1 h2 => exact safeState_of_bare_eq h rfl
  | turn _ ht => exact safeState_of_turn h (turn_of_sequencerTurn ht)
  | reset => exact safeState_of_idleInv (shape_of_empty hs.params rfl rfl) rfl (idleInv_resetCore s)
  | issued w hp hd =>
    have hi := h.idle hp
    refine ⟨⟨hs.params, hs.ibufWf, by simp [Memory.wf], hs.ibufIn, by simp [Memory.within]⟩, fun q => by simp at q, fun _ =>
      ⟨hd, ?_, ⟨rfl, rfl, rfl⟩, rfl⟩, fun q => by simp at q⟩
    exact hi.unstarted
  | cleared w hp hd =>
    rw [clearAll_eq_resetCore (by simpa using hp)]
    exact safeState_of_idleInv (shape_of_empty hs.params rfl rfl) rfl (idleInv_resetCore _)
  | stored a v l hp ha hl =>
    have hi := h.idle hp
    have key : ∀ u : State, u.phase = s.phase → u.params = s.params → Memory.wf u.ibuf →
        Memory.within u.ibuf u.params.ibufBytes → u.obuf = s.obuf →
        u.cmdw = s.cmdw → u.blk = s.blk → u.nblk = s.nblk → u.chain = s.chain →
        u.rk = s.rk → u.nr = s.nr → u.ks = s.ks → u.done = s.done →
        u.err = s.err → u.olen = s.olen → SafeState u := by
      intro u e1 e2 e3 e3' e4 e5 e6 e7 e8 e9 e10 e11 e12 e13 e14
      refine safeState_of_idleInv
        ⟨by rw [e2]; exact hs.params, e3, by rw [e4]; exact hs.obufWf, e3', by rw [e4, e2]; exact hs.obufIn⟩
        (e1.trans hp) ⟨e5.trans hi.cmdw, ?_, ?_, ?_, ?_, ?_, ?_⟩
      · unfold Unstarted; rw [e6, e7, e8, e9, e10, e11]; exact hi.unstarted
      · rw [e12, e13]; exact hi.doneErr
      · rw [e12, e14, e4]; exact hi.notDone
      · rw [e13]; exact hi.errCode
      · rw [e14, e2]; exact hi.olenFits
      · unfold ZeroFrom; rw [e14, e4]; exact hi.zeroAfter
    cases l with
    | ibuf o =>
      have := ibuf_word_fits hs.params ha
      refine key _ ?_ rfl (Memory.writeBytes_wf hs.ibufWf _ _) 
        (Memory.writeBytes_within hs.ibufIn (by simpa [wordBytes, writeLocation] using this)) rfl rfl rfl rfl rfl rfl rfl rfl rfl rfl rfl
      rfl
    | _ => exact key _ rfl rfl hs.ibufWf hs.ibufIn rfl rfl rfl rfl rfl rfl rfl rfl rfl rfl rfl

end Sys2Proof.Safety
end

