-- ==== Sys2Proof/Laws/PerInstr.lean ====
section
/-! SUPPORT. Facts about an instruction as syntax, one lemma for each constructor. -/

namespace Sys2Proof.Laws

namespace EncodeRoundTrip

/-- The word of an instruction decodes to it, as a word, as bytes and in the opcode table's numbering; it is well formed, and its
fields are those of its word. -/
def Statement (i : Instr) : Prop :=
  decode (encode i) = .ok i ∧ decodeBytes (encodeBytes i) = .ok (i, []) ∧ decodeTableWord 32 (encode i).toNat = some i ∧
    i.wf = true ∧ (instrFields i).wf = true ∧ fieldsOf (encode i) = instrFields i

theorem encAesCbcPkcs7 : Statement .encAesCbcPkcs7 := by
  unfold Statement
  refine ⟨?_, ?_, ?_, ?_, ?_, ?_⟩ <;> rfl

theorem encDesEcbNone : Statement .encDesEcbNone := by
  unfold Statement
  refine ⟨?_, ?_, ?_, ?_, ?_, ?_⟩ <;> rfl

theorem clear : Statement .clear := by
  unfold Statement
  refine ⟨?_, ?_, ?_, ?_, ?_, ?_⟩ <;> rfl

end EncodeRoundTrip

end Sys2Proof.Laws
end

