-- ==== Sys2Proof/Laws/Port.lean ====
section
/-! SUPPORT. What a host access does, by the location it reaches: an access that reaches none, one while a command runs, one in
`IDLE`. -/

namespace Sys2Proof.Machine

variable {s : State} {a : Addr} {v : Word} {l : Location}

theorem hostRead_of_none (h : access s.params a = none) : hostRead s a = .error := by
  simp only [hostRead, h]

theorem hostRead_of_busy (h : access s.params a = some l) (hp : s.phase ≠ .idle) :
    hostRead s a = .okayData (busyReadValue s l) := by
  simp only [hostRead, h, busy_eq_true.2 hp, if_true]

theorem hostRead_of_idle (h : access s.params a = some l) (hp : s.phase = .idle) :
    hostRead s a = .okayData (idleReadValue s l) := by
  simp only [hostRead, h, busy_eq_false.2 hp, Bool.false_eq_true, if_false]

theorem hostWrite_of_none (h : access s.params a = none) : hostWrite a v s = .next (respond .error s) := by
  simp only [hostWrite, h]

theorem hostWrite_of_busy (h : access s.params a = some l) (hp : s.phase ≠ .idle) :
    hostWrite a v s = .next (respond .okay s) := by
  simp only [hostWrite, h, busy_eq_true.2 hp, if_true]

theorem hostWrite_of_idle (h : access s.params a = some l) (hp : s.phase = .idle) (hl : l ≠ .cmd) :
    hostWrite a v s = .next (writeLocation (respond .okay s) v l) := by
  simp only [hostWrite, h, busy_eq_false.2 hp, Bool.false_eq_true, if_false, if_neg hl]

theorem hostWrite_cmd (h : access s.params a = some .cmd) (hp : s.phase = .idle) :
    hostWrite a v s = writeCmd v (respond .okay s) := by
  simp only [hostWrite, h, busy_eq_false.2 hp, Bool.false_eq_true, if_false, if_true]

/-- An access reaches a location exactly when it is aligned and the address names it (R62, R65). -/
theorem access_eq_some (p : Params) : access p a = some l ↔ a.toNat % 4 = 0 ∧ locate p a = some l := by
  unfold access aligned
  by_cases h : a.toNat % 4 = 0 <;> simp [h]

theorem access_eq_none (p : Params) : access p a = none ↔ a.toNat % 4 ≠ 0 ∨ locate p a = none := by
  unfold access aligned
  by_cases h : a.toNat % 4 = 0 <;> simp [h]

end Sys2Proof.Machine
end

