-- ==== Sys2Proof/Tests/Slice0.lean ====
section
/-! SUPPORT. Tests of the model, and for each statement with hypotheses a witness that meets them.

Expected values are the spec's: 95_test_vectors.md (V), 96_primitive_vectors.md (PA, PD), the table of R92, the map of R65. -/

namespace Sys2Proof.Tests

open Sys2Proof Sys2Proof.Machine Sys2Proof.Safety

/-! ## `WellFormed` refuses, one setting of the fields for each check -/

theorem test_opDefined_refuses :
    ({ op := 3, cipher := 0, mode := 1, pad := 1, zero := 0 } : CmdFields).opDefined = false ∧
    ({ op := 3, cipher := 0, mode := 1, pad := 1, zero := 0 } : CmdFields).wf = false := by decide

theorem test_fieldsDefined_refuses :
    ({ op := 1, cipher := 2, mode := 0, pad := 1, zero := 0 } : CmdFields).fieldsDefined = false ∧
    ({ op := 1, cipher := 0, mode := 2, pad := 1, zero := 0 } : CmdFields).fieldsDefined = false ∧
    ({ op := 1, cipher := 0, mode := 1, pad := 3, zero := 0 } : CmdFields).fieldsDefined = false ∧
    ({ op := 1, cipher := 2, mode := 0, pad := 1, zero := 0 } : CmdFields).wf = false := by decide

theorem test_combinationOffered_refuses :
    ({ op := 1, cipher := 0, mode := 0, pad := 0, zero := 0 } : CmdFields).combinationOffered = false ∧
    ({ op := 1, cipher := 0, mode := 0, pad := 0, zero := 0 } : CmdFields).wf = false := by decide

theorem test_clearBare_refuses :
    ({ op := 2, cipher := 1, mode := 0, pad := 0, zero := 0 } : CmdFields).clearBare = false ∧
    ({ op := 2, cipher := 1, mode := 0, pad := 0, zero := 0 } : CmdFields).wf = false := by decide

theorem test_zeroHeld_refuses :
    ({ op := 1, cipher := 0, mode := 1, pad := 1, zero := 1 } : CmdFields).zeroHeld = false ∧
    ({ op := 1, cipher := 0, mode := 1, pad := 1, zero := 1 } : CmdFields).wf = false := by decide

/-! ## Decoding: the words of R92 from their fields, `ZERO PAD MODE CIPHER OP`; illegal words of V section 3.1 -/

theorem test_decode_encAesCbcPkcs7 : decode 0b0000000000000000000000_01_01_00_0001 = .ok .encAesCbcPkcs7 := by decide

theorem test_decode_encDesEcbNone : decode 0b0000000000000000000000_00_00_01_0001 = .ok .encDesEcbNone := by decide

theorem test_decode_clear : decode 0b0000000000000000000000_00_00_00_0010 = .ok .clear := by decide

theorem test_decode_illegal :
    decode 0x00000000 = .error .noSuchOperation ∧ decode 0x00000143 = .error .noSuchOperation ∧
    decode 0x00000121 = .error .reservedField ∧ decode 0x000001C1 = .error .reservedField ∧
    decode 0x00000241 = .error .reservedField ∧ decode 0x00000001 = .error .combinationNotOffered ∧
    decode 0x00000151 = .error .combinationNotOffered ∧ decode 0x00000012 = .error .clearWithFields ∧
    decode 0x00000541 = .error .zeroFieldSet ∧ decode 0x80000141 = .error .zeroFieldSet ∧
    decodeBytes [0x41, 0x01, 0x00] = .error .truncated := by decide

/-! ## The states of the tests -/

/-- The operands of V1: zero key and IV of 16 bytes, sixteen bytes 0x41. -/
def aesLoaded (p : Params) : State :=
  { State.resetWith p with klen := 16, ivlen := 16, plen := 16, ibuf := Memory.writeBytes [] 0 (List.replicate 16 0x41) }

/-- The key of V20, in the first 8 bytes of `KEY`. -/
def key20 : Bytes 32 := Vector.ofFn fun i => if i.val < 8 then BitVec.ofNat 8 (i.val + 1) else 0

/-- The operands of V20: key `0102030405060708`, eight zero bytes. -/
def desLoaded (p : Params) : State := { State.resetWith p with key := key20, klen := 8, plen := 8 }

/-- The AES command issued, and then started. -/
def aesCheck (p : Params) : State := issueWord (encode .encAesCbcPkcs7) (aesLoaded p)
def aesBlock (p : Params) : State := startAesCbc (aesCheck p)

/-- The DES command issued, and then started. -/
def desCheck (p : Params) : State := issueWord (encode .encDesEcbNone) (desLoaded p)
def desBlock (p : Params) : State := startDesEcb (desCheck p)

/-- The DES command on the empty plaintext, started: it has no block. -/
def desEmpty : State :=
  startDesEcb (issueWord (encode .encDesEcbNone) { desLoaded Params.default with plen := 0 })

/-- An illegal word, issued. -/
def illegalCheck : State := issueWord 0x001 (aesLoaded Params.default)

/-- A `key_reject` that is constant true. -/
def rejecting : Params := { Params.default with keyReject := [{ cipher := none, key := none }] }

/-- A `prim_fail` that is constant true. -/
def failing : Params := { Params.default with primFail := [{ cipher := none, key := none, index := none, block := none }] }

/-- The smallest input buffer. -/
def smallest : Params := { Params.default with ibufBytes := 16 }

abbrev dflt : Params := Params.default

/-- The next state of an outcome; a stop gives the reset state with a code no command produces. -/
def after (o : Host.Outcome State Fault Refusal) : State :=
  match o with
  | .next s => s
  | .fault _ => { State.reset with err := 15 }
  | .refused _ => { State.reset with err := 15 }

/-! ## One step of each command -/

/-- V1: the first block of ciphertext. -/
theorem test_encAesCbcPkcs7_block :
    aesCipherBlock (after (exec .encAesCbcPkcs7 (aesBlock dflt))) 0 = aesBytes 0xb49cbf19d357e6e1f6845c30fd5b63e3 := by
  decide +kernel

/-- V40: a key of 15 bytes is `InvalidParameterError`, and the operands are gone. -/
theorem test_encAesCbcPkcs7_key15 :
    let t := after (exec .encAesCbcPkcs7 { aesCheck dflt with klen := 15 })
    hostRead t 0x004 = .okayData 0x00000010 ∧ hostRead t 0x008 = .okayData 0 ∧ hostRead t 0x010 = .okayData 0 := by decide +kernel

/-- V20: the block of ciphertext. -/
theorem test_encDesEcbNone_block :
    desCipherBlock (after (exec .encDesEcbNone (desBlock dflt))) 0 = desWordBytes 0xb073dc3fb209536d := by decide +kernel

/-- V49: `AlignmentError` comes before `CapacityError`. -/
theorem test_encDesEcbNone_alignment_first :
    hostRead (after (exec .encDesEcbNone { desCheck dflt with plen := 0xFFFFFFFF })) 0x004 = .okayData 0x00000030 := by
  decide +kernel

/-- V62: `CLEAR` discards loaded operands, and the state is the reset state. -/
theorem test_clear_discards : after (exec .clear (desLoaded dflt)) = State.reset := by decide +kernel

/-- Row 21 of V section 3.2: `CLEAR` written while a command runs is answered `OKAY` and dropped. -/
theorem test_clear_dropped :
    after (step { desCheck dflt with inputs := [.hostWrite 0x000000 0x00000002] }) =
      { desCheck dflt with response := some .okay } := by decide +kernel

/-! ## The port (V section 3.2) -/

/-- Rows 25 and 27: little-endian packing, and bits 31:8 of a length dropped. -/
theorem test_write_key_and_klen :
    ((after (step { State.reset with inputs := [.hostWrite 0x020 0x16157E2B] })).key.toList.take 4 = [0x2b, 0x7e, 0x15, 0x16]) ∧
    (after (step { State.reset with inputs := [.hostWrite 0x008 0xFFFFFF10] })).klen = 0x10 := by decide +kernel

/-- Rows 32 to 34: the last word of `IBUF`, the word past it, a misaligned `CMD`. -/
theorem test_write_ibuf_end :
    ((after (step { State.reset with inputs := [.hostWrite 0x400FFC 0x44434241] })).ibuf =
      [(4092, 0x41), (4093, 0x42), (4094, 0x43), (4095, 0x44)]) ∧
    (after (step { State.reset with inputs := [.hostWrite 0x401000 0] })).response = some .error ∧
    (after (step { State.reset with inputs := [.hostWrite 0x000002 0x141] })) =
      { State.reset with response := some .error } := by decide +kernel

/-! ## The cipher cores -/

/-- PA6, the key of 24 bytes. -/
theorem test_aes192 :
    let k := (List.range 24).map (BitVec.ofNat 8)
    aesEncryptBlock (storeSchedule (aesKeyExpansion k) zeroSchedule) (aesRoundCount k)
      (aesBytes 0x00112233445566778899aabbccddeeff) = aesBytes 0xdda97ca4864cdfe06eaf70a0ec0d7191 := by decide +kernel

/-- PA6, the key of 32 bytes. -/
theorem test_aes256 :
    let k := (List.range 32).map (BitVec.ofNat 8)
    aesEncryptBlock (storeSchedule (aesKeyExpansion k) zeroSchedule) (aesRoundCount k)
      (aesBytes 0x00112233445566778899aabbccddeeff) = aesBytes 0x8ea2b7ca516745bfeafc49904b496089 := by decide +kernel

/-- PA8: single operations. -/
theorem test_aes_operations :
    xtime 0x57 = 0xae ∧ xtime 0x8e = 0x07 ∧ mul3 0x80 = 0x9b ∧ sbox 0x53 = 0xed ∧ sbox 0xff = 0x16 ∧
    mixColumn #v[0xdb, 0x13, 0x53, 0x45] = #v[0x8e, 0x4d, 0xa1, 0xbc] ∧
    shiftRows (aesBytes 0x000102030405060708090a0b0c0d0e0f) = aesBytes 0x00050a0f04090e03080d02070c01060b := by decide +kernel

/-- PD2: the round function on the first round of the worked example. -/
theorem test_des_round : desF 0xf0aaf0aa 0x1b02effc7072 = 0x234aa9bb := by decide +kernel

/-! ## Safe states -/

theorem aesLoaded_safe : SafeState (aesLoaded dflt) := by
  refine safeState_of_idleInv ⟨by decide, by decide +kernel, by decide +kernel, by decide +kernel, by decide +kernel⟩ rfl
    ⟨rfl, ⟨rfl, rfl, rfl, rfl, rfl, rfl⟩, fun _ => rfl, fun _ => ⟨rfl, rfl⟩, by decide, by decide, fun _ _ => rfl⟩

theorem desLoaded_safe (n : Word) : SafeState { desLoaded dflt with plen := n } := by
  refine safeState_of_idleInv (shape_of_empty (show dflt.wf = true by decide) rfl rfl) rfl
    ⟨rfl, ⟨rfl, rfl, rfl, rfl, rfl, rfl⟩, fun _ => rfl, fun _ => ⟨rfl, rfl⟩, ?_, Nat.zero_le _, fun _ _ => rfl⟩
  show (0#4).toNat ≤ 6
  decide

theorem issued_safe {s : State} (h : SafeState s) (hp : s.phase = .idle) {w : Word} (hw : decode w ≠ .ok .clear) :
    SafeState (issueWord w s) :=
  safeState_of_bare_eq (safeState_of_taken h (.issued w hp hw)) rfl

theorem aesCheck_safe : SafeState (aesCheck dflt) := issued_safe aesLoaded_safe rfl (by decide)

theorem desCheck_safe (n : Word) : SafeState (issueWord (encode .encDesEcbNone) { desLoaded dflt with plen := n }) :=
  issued_safe (desLoaded_safe n) rfl (by decide)

theorem aesBlock_safe : SafeState (aesBlock dflt) :=
  safeState_of_turn aesCheck_safe (.aesStarts rfl (by decide) (by decide) (by decide) (by decide) (by decide))

theorem desBlock_safe : SafeState (desBlock dflt) :=
  safeState_of_turn (desCheck_safe 8) (.desStarts rfl (by decide) (by decide) (by decide) (by decide) (by decide))

theorem desEmpty_safe : SafeState desEmpty :=
  safeState_of_turn (desCheck_safe 0) (.desStarts rfl (by decide) (by decide) (by decide) (by decide) (by decide))

/-- A state after a success, and one after a failure. -/
theorem success_safe : SafeState (completeSuccess 0 desEmpty) :=
  safeState_of_turn desEmpty_safe (.desFinishes rfl (by decide) (by decide))

theorem failure_safe : SafeState (raise .illegalCommand illegalCheck) :=
  safeState_of_turn (issued_safe aesLoaded_safe rfl (by decide)) (.illegal .combinationNotOffered rfl (by decide))

/-! ## Witnesses: the hypotheses of each statement hold together, clause by clause -/

theorem witness_IllegalWordsFallInFiveClasses :
    illegalCheck.phase = .check ∧ (∃ e, decode 0x001 = .error e) ∧ (∃ e, decode 0xFFFFFFFF = .error e) :=
  ⟨rfl, ⟨.combinationNotOffered, by decide⟩, ⟨.noSuchOperation, by decide⟩⟩

theorem witness_ResetStateIsAllZero : State.reset.phase = .idle := rfl

theorem witness_StepRunsDecodedCommand :
    ((aesLoaded dflt).phase = .idle ∧ decode 0x141 = .ok .encAesCbcPkcs7) ∧
    ((desBlock dflt).phase ≠ .idle ∧ decode (desBlock dflt).cmdw = .ok .encDesEcbNone) ∧
    ((aesCheck dflt).phase ≠ .idle ∧ decode (aesCheck dflt).cmdw = .ok .encAesCbcPkcs7 ∧ (aesCheck dflt).inputs = []) := by
  refine ⟨⟨rfl, by decide⟩, ⟨by decide, by decide⟩, by decide, by decide, rfl⟩

theorem witness_FetchWordRunsNext : decodeTableWord 32 0x002 = some .clear := by decide

/-- The ends of every range of R65 under the default parameters, in and out. -/
theorem witness_AddressMapNamesElements :
    dflt.wf = true ∧
    (∀ a ∈ [0x0, 0x17, 0x20, 0x3F, 0x40, 0x4F, 0x400000, 0x400FFF, 0x800000, 0x80100F], Mapped dflt a) ∧
    (∀ a ∈ [0x18, 0x1F, 0x50, 0x3FFFFF, 0x401000, 0x7FFFFF, 0x801010, 0xFFFFFF], ¬ Mapped dflt a) := by
  unfold Mapped
  decide

theorem witness_BadAccessAnswersError :
    (0x000002 : Addr).toNat % 4 ≠ 0 ∧ ¬ Mapped State.reset.params (0x000018 : Addr).toNat := by
  unfold Mapped
  decide

theorem witness_HostReadAnswers :
    (State.reset.params.wf = true ∧ State.reset.phase = .idle) ∧
    (aesCheck dflt).params.wf = true ∧ (aesCheck dflt).phase ≠ .idle ∧
    ∀ a ∈ [0x000, 0x004, 0x008, 0x00C, 0x010, 0x014, 0x80100C], a % 4 = 0 ∧ Mapped (aesCheck dflt).params a := by
  refine ⟨⟨by decide, rfl⟩, by decide, by decide, ?_⟩
  show ∀ a ∈ _, _ ∧ Mapped dflt a
  unfold Mapped
  decide

theorem witness_HostReadAnswers_offsets :
    (28 % 4 = 0 ∧ 28 < 32) ∧ (12 % 4 = 0 ∧ 12 < 16) ∧ (4092 % 4 = 0 ∧ 4092 < dflt.ibufBytes) ∧
    (4108 % 4 = 0 ∧ 4108 < dflt.obufBytes) := by decide

theorem witness_HostWriteStoresInIdle :
    (aesLoaded dflt).params.wf = true ∧ (aesLoaded dflt).phase = .idle ∧ Memory.wf (aesLoaded dflt).ibuf ∧
    4092 < (aesLoaded dflt).params.ibufBytes ∧ 4108 < (aesLoaded dflt).params.obufBytes := by decide +kernel

theorem witness_OperandWritesAreIdempotent : Memory.wf (aesLoaded dflt).ibuf ∧ (0x400000 : Addr) ≠ 0 := by decide +kernel

theorem witness_RunningCommandIsUndisturbed :
    (aesBlock dflt).phase ≠ .idle ∧ (aesBlock dflt).params.wf = true ∧ Mapped (aesBlock dflt).params (0x000008 : Addr).toNat ∧
    ¬ Mapped (aesBlock dflt).params (0x801010 : Addr).toNat := by
  unfold Mapped
  refine ⟨by decide, by decide, by decide, by decide⟩

/-- Two idle states that differ in `KEY`, and two busy ones that differ in the phase. -/
theorem witness_ReadsRevealNothingHidden :
    LooksAlike State.reset { State.reset with key := key20 } ∧ LooksAlike (aesCheck dflt) (aesBlock dflt) :=
  ⟨⟨rfl, rfl, rfl, rfl, rfl, fun _ => ⟨rfl, rfl, rfl, fun _ => rfl⟩⟩, ⟨rfl, rfl, rfl, rfl, rfl, fun h => by cases h⟩⟩

theorem witness_InterleavingIsUnobservable :
    let sched : List Input := [.hostRead 0x004, .sequencer, .hostWrite 0x000000 0x00000002]
    (∀ x ∈ sched, x ≠ .reset) ∧
    runs (sched.count .sequencer) { desCheck dflt with inputs := List.replicate (sched.count .sequencer) .sequencer } =
      .next (desBlock dflt) ∧ busy (desBlock dflt) = true := by
  refine ⟨by decide, rfl, rfl⟩

theorem witness_IssueLatchesTheWord :
    (aesLoaded dflt).phase = .idle ∧ decode 0x001 ≠ .ok .clear ∧ decode 0x002 = .ok .clear := by decide

theorem witness_ClearCompletesInResetState :
    (desLoaded dflt).phase = .idle ∧ (desBlock dflt).phase ≠ .idle ∧
    bare State.reset = bare (State.resetWith State.reset.params) := ⟨rfl, by decide, rfl⟩

theorem witness_IllegalWordFailsInOneStep : (aesLoaded dflt).phase = .idle ∧ ∃ e, decode 0x001 = .error e :=
  ⟨rfl, .combinationNotOffered, by decide⟩

theorem witness_FailureLeavesOnlyItsCode :
    illegalCheck.phase ≠ .idle ∧ sequencerTurn illegalCheck = .next (raise .illegalCommand illegalCheck) ∧
    (raise .illegalCommand illegalCheck).phase = .idle ∧ (raise .illegalCommand illegalCheck).done = false :=
  ⟨by decide, sequencerTurn_illegal (e := .combinationNotOffered) rfl (by decide), rfl, rfl⟩

theorem witness_CompletionWipesOperands :
    (desEmpty.phase ≠ .idle ∧ sequencerTurn desEmpty = .next (completeSuccess 0 desEmpty) ∧
      (completeSuccess 0 desEmpty).phase = .idle) ∧
    exec .clear (aesLoaded dflt) = .next (clearAll (aesLoaded dflt)) := by
  refine ⟨⟨by decide, ?_, rfl⟩, rfl⟩
  rw [sequencerTurn_exec (i := .encDesEcbNone) (by decide) (by decide)]
  rfl

/-- One failing state for each of the three kinds of word: V40, V26, V46. -/
theorem witness_ErrorCodesByCommand :
    (∃ t, exec .encAesCbcPkcs7 { aesCheck dflt with klen := 15 } = .next t ∧ t.phase = .idle ∧ t.done = false) ∧
    (∃ t, exec .encDesEcbNone { desCheck dflt with plen := 10 } = .next t ∧ t.phase = .idle ∧ t.done = false) ∧
    (∃ e, decode illegalCheck.cmdw = .error e) ∧
    (∃ t, exec .encAesCbcPkcs7 (aesCheck rejecting) = .next t ∧ t.err = 2) ∧
    (∃ t, exec .encDesEcbNone (desBlock failing) = .next t ∧ t.err = 4) :=
  ⟨⟨_, rfl, rfl, rfl⟩, ⟨_, rfl, rfl, rfl⟩, ⟨.combinationNotOffered, by decide⟩, ⟨_, rfl, by decide⟩, _, rfl, by decide +kernel⟩

theorem witness_PhaseTransfersAreComplete :
    (step State.reset = .next State.reset ∧ State.reset.phase = .idle) ∧
    ((∃ t, step (desCheck dflt) = .next t) ∧ (desCheck dflt).phase = .check) ∧
    ((∃ t, step desEmpty = .next t) ∧ desEmpty.phase = .block) :=
  ⟨⟨rfl, rfl⟩, ⟨⟨_, rfl⟩, rfl⟩, ⟨_, rfl⟩, rfl⟩

theorem witness_SequencerKeepsOperands :
    sequencerTurn (desCheck dflt) = .next (desBlock dflt) ∧ (desBlock dflt).phase ≠ .idle := ⟨rfl, by decide⟩

/-- The five clauses of R201: a key of 15 bytes, an IV of 8, a rejected key, one byte too many, all in order. -/
theorem witness_AesChecksInOrder :
    (aesCheck dflt).phase = .check ∧
    ({ aesCheck dflt with klen := 15 }.klen ≠ 16 ∧ (15 : BitVec 8) ≠ 24 ∧ (15 : BitVec 8) ≠ 32) ∧
    ((aesCheck dflt).klen = 16 ∧ dflt.aesKey16 = true) ∧
    ({ aesCheck dflt with ivlen := 8 }.ivlen ≠ 16) ∧
    (keyReject rejecting .aes ((aesCheck rejecting).key.toList.take 16) = true ∧ (aesCheck rejecting).ivlen = 16) ∧
    (keyReject dflt .aes ((aesCheck dflt).key.toList.take 16) = false ∧ dflt.ibufBytes < (4097 : Word).toNat ∧
      (4096 : Word).toNat ≤ dflt.ibufBytes) := by
  refine ⟨rfl, by decide, by decide, by decide, by decide, by decide⟩

theorem witness_AesStartBuildsSchedule :
    (aesCheck dflt).phase = .check ∧ acceptsAesKeyLen dflt (aesCheck dflt).klen.toNat = true ∧ (aesCheck dflt).ivlen = 16 ∧
    keyReject dflt .aes (keyOperand (aesCheck dflt)) = false ∧ (aesCheck dflt).plen.toNat ≤ dflt.ibufBytes := by
  refine ⟨rfl, by decide, rfl, by decide, by decide⟩

/-- Both clauses of R206, the second in the smallest buffer: its last block ends where `OBUF` ends. -/
theorem witness_CbcBlockStepEncryptsOneBlock :
    ∀ s ∈ [aesBlock failing, { aesBlock smallest with blk := 1 }],
      s.phase = .block ∧ s.blk ≠ s.nblk ∧ Memory.wf s.obuf ∧ s.nr = 10 ∧ 16 * s.blk.toNat + 16 ≤ s.params.obufBytes ∧
      s.plen.toNat ≤ s.params.ibufBytes := by
  decide +kernel

theorem witness_CbcBlockStepEncryptsOneBlock_primFail :
    primFail failing .aes [] 0 [] = true ∧ primFail smallest .aes [] 1 [] = false := by decide

theorem witness_AesFinishReportsLength :
    { aesBlock dflt with blk := 2 }.phase = .block ∧ { aesBlock dflt with blk := 2 }.blk = { aesBlock dflt with blk := 2 }.nblk := by
  refine ⟨rfl, by decide⟩

/-- The last block, and the last block of data, of V1's plaintext. -/
theorem witness_PaddingFormsTheBlocks :
    1 < (aesLoaded dflt).plen.toNat / 16 + 1 ∧ 16 * 0 + 16 ≤ (aesLoaded dflt).plen.toNat := by decide

theorem aesLoaded_ready : AesReady (aesLoaded dflt) := ⟨rfl, by decide, rfl, by decide, by decide, rfl⟩

theorem witness_AesCommandEncryptsCbc : (aesLoaded dflt).params.wf = true ∧ AesReady (aesLoaded dflt) :=
  ⟨by decide, aesLoaded_ready⟩

theorem witness_DifferentIvsDifferentFirstBlock :
    (aesLoaded dflt).params.wf = true ∧ AesReady (aesLoaded dflt) ∧ Vector.replicate 16 1 ≠ (aesLoaded dflt).iv :=
  ⟨by decide, aesLoaded_ready, by decide⟩

/-- V1 and V5: the plaintexts agree on their first block. -/
theorem witness_CbcPrefixProperty :
    let s := aesLoaded dflt
    let s' := { s with plen := 17, ibuf := Memory.writeBytes [] 0 (List.replicate 17 0x41) }
    AesReady s ∧ AesReady s' ∧ keyOperand s' = keyOperand s ∧ 16 * 1 ≤ s.plen.toNat ∧ 16 * 1 ≤ s'.plen.toNat ∧
    ∀ a, a < 16 * 1 → s'.ibuf.read a = s.ibuf.read a :=
  ⟨aesLoaded_ready, ⟨rfl, by decide, rfl, by decide, by decide, rfl⟩, rfl, by decide, by decide, by decide +kernel⟩

/-- The five clauses of R231: keys of 7 bytes, a rejected key, 10 bytes, 4104 bytes, 4096 bytes. -/
theorem witness_DesChecksInOrder :
    (desCheck dflt).phase = .check ∧ { desCheck dflt with klen := 7 }.klen ≠ 8 ∧ (desCheck dflt).klen = 8 ∧
    keyReject rejecting .des ((desCheck rejecting).key.toList.take 8) = true ∧
    keyReject dflt .des ((desCheck dflt).key.toList.take 8) = false ∧ (10 : Word).toNat % 8 ≠ 0 ∧
    ((4104 : Word).toNat % 8 = 0 ∧ dflt.ibufBytes < (4104 : Word).toNat) ∧
    ((4096 : Word).toNat % 8 = 0 ∧ (4096 : Word).toNat ≤ dflt.ibufBytes) := by
  refine ⟨rfl, by decide, rfl, by decide, by decide, by decide, by decide, by decide⟩

theorem witness_DesStartBuildsSchedule :
    (desCheck dflt).phase = .check ∧ (desCheck dflt).klen = 8 ∧
    keyReject dflt .des ((desCheck dflt).key.toList.take 8) = false ∧ (desCheck dflt).plen.toNat % 8 = 0 ∧
    (desCheck dflt).plen.toNat ≤ dflt.ibufBytes := by
  refine ⟨rfl, rfl, by decide, by decide, by decide⟩

/-- Both clauses of R233, the second at the last block of the smallest buffer. -/
theorem witness_EcbBlockStepEncryptsOneBlock :
    (∀ s ∈ [desBlock failing, { desBlock smallest with blk := 1, nblk := 2 }],
      s.phase = .block ∧ s.blk ≠ s.nblk ∧ Memory.wf s.obuf ∧ 8 * s.blk.toNat + 8 ≤ s.params.ibufBytes) ∧
    primFail failing .des [] 0 [] = true ∧ primFail smallest .des [] 1 [] = false := by decide +kernel

theorem witness_DesFinishReportsLength :
    desEmpty.phase = .block ∧ desEmpty.blk = desEmpty.nblk ∧ SafeState desEmpty ∧ decode desEmpty.cmdw = .ok .encDesEcbNone :=
  ⟨rfl, rfl, desEmpty_safe, by decide⟩

theorem witness_DesCommandEncryptsEcb :
    (desLoaded dflt).params.wf = true ∧ DesReady (desLoaded dflt) ∧ 0 < (desLoaded dflt).plen.toNat / 8 :=
  ⟨by decide, ⟨rfl, rfl, by decide, by decide, by decide, rfl⟩, by decide⟩

theorem witness_KeyExpansionRecurrence :
    (List.replicate 16 (0 : Byte)).length = 16 ∧ (List.replicate 24 (0 : Byte)).length = 24 ∧
    (List.replicate 32 (0 : Byte)).length = 32 ∧ keyOperand (aesCheck dflt) = List.replicate 16 0 := by
  refine ⟨by decide, by decide, by decide, by decide⟩

/-- The keys of rows 7 and 8 of PD4 differ in parity bits only; and a failing DES command, V26. -/
theorem witness_DesParityBitsIgnored :
    (∀ (i : Nat) (h : i < 8) (j : Nat), 1 ≤ j → j < 8 →
      (desWordBytes 0x0102030405060708)[i].getLsbD j = (desWordBytes 0x0003020504070609)[i].getLsbD j) ∧
    ((desCheck dflt).phase = .check ∧ (desCheck dflt).params.keyReject = [] ∧
      ∃ t, exec .encDesEcbNone { desCheck dflt with plen := 10 } = .next t ∧ t.phase = .idle) := by
  have h : ∀ i : Fin 8, ∀ j : Fin 8, 1 ≤ j.val →
      (desWordBytes 0x0102030405060708)[i.val].getLsbD j.val = (desWordBytes 0x0003020504070609)[i.val].getLsbD j.val := by
    decide +kernel
  exact ⟨fun i hi j h1 h2 => h ⟨i, hi⟩ ⟨j, h2⟩ h1, rfl, rfl, _, rfl, rfl⟩

theorem witness_ResetMeetsInvariant : smallest.wf = true ∧ rejecting.wf = true ∧ failing.wf = true := by decide

theorem witness_EveryStepKeepsInvariant : SafeState (desCheck dflt) ∧ ∃ t, step (desCheck dflt) = .next t :=
  ⟨desCheck_safe 8, _, rfl⟩

theorem witness_ReachableStatesNeverStop : SafeState (aesBlock dflt) := aesBlock_safe

/-- Safe states of each of the four kinds: running, success, failure, no result. -/
theorem witness_StatusIsTypedResult :
    (SafeState (desBlock dflt) ∧ busy (desBlock dflt) = true) ∧
    (SafeState (completeSuccess 0 desEmpty) ∧ (completeSuccess 0 desEmpty).done = true) ∧
    (SafeState (raise .illegalCommand illegalCheck) ∧ (raise .illegalCommand illegalCheck).err = 5) ∧
    (SafeState (aesLoaded dflt) ∧ (aesLoaded dflt).done = false ∧ (aesLoaded dflt).err = 0) :=
  ⟨⟨desBlock_safe, rfl⟩, ⟨success_safe, rfl⟩, ⟨failure_safe, rfl⟩, aesLoaded_safe, rfl, rfl⟩

theorem witness_NoPartialOutputIsReadable :
    (SafeState (aesBlock dflt) ∧ busy (aesBlock dflt) = true) ∧
    (SafeState (raise .illegalCommand illegalCheck) ∧ (raise .illegalCommand illegalCheck).done = false) ∧
    4108 % 4 = 0 ∧ 4108 < (aesBlock dflt).params.obufBytes :=
  ⟨⟨aesBlock_safe, rfl⟩, ⟨failure_safe, rfl⟩, by decide, by decide⟩

theorem witness_CommandComputesRun :
    (aesLoaded dflt).params.wf = true ∧ (aesLoaded dflt).phase = .idle ∧
    decode 0x141 ≠ .ok .clear ∧ decode 0x011 ≠ .ok .clear ∧ decode 0x001 ≠ .ok .clear := by
  refine ⟨by decide, rfl, by decide, by decide, by decide⟩

/-- The two states differ in the earlier result, in `KEY[16..32)` and in `IBUF[16..17)`. -/
theorem witness_ResultDependsOnOperandsOnly :
    let s := aesLoaded dflt
    let s' := { s with done := true, key := Vector.ofFn fun i => if i.val < 16 then 0 else 1,
                       ibuf := Memory.writeBytes [] 0 (List.replicate 17 0x41) }
    s.params.wf = true ∧ s'.phase = .idle ∧ decode 0x141 ≠ .ok .clear ∧ keyOperand s' = keyOperand s ∧ s'.iv = s.iv ∧
    ∀ a, a < s.plen.toNat → s'.ibuf.read a = s.ibuf.read a := by
  refine ⟨by decide, rfl, by decide, by decide, rfl, ?_⟩
  show ∀ a, a < 16 → _
  decide +kernel

theorem witness_EveryCommandTerminates :
    SafeState (aesCheck dflt) ∧ busy (aesCheck dflt) = true ∧ (aesCheck dflt).inputs = [] := ⟨aesCheck_safe, rfl, rfl⟩

/-- The longest and the shortest loads: 32, 16 and 4096 bytes, and none. -/
theorem witness_PseudoInstructionsLoadOperands :
    State.reset.params.wf = true ∧ State.reset.phase = .idle ∧ Memory.wf State.reset.ibuf ∧
    (List.replicate 32 (1 : Byte)).length ≤ 32 ∧ (List.replicate 16 (1 : Byte)).length ≤ 16 ∧
    ([] : List Byte).length ≤ State.reset.params.ibufBytes ∧ 4096 ≤ State.reset.params.ibufBytes := by decide +kernel

theorem witness_GetCtReadsTheCiphertext :
    State.reset.params.wf = true ∧ State.reset.phase = .idle ∧ 4112 ≤ State.reset.params.obufBytes := by decide +kernel

end Sys2Proof.Tests
end

section
/-! SUPPORT. What `STATUS` reads in each phase, and the typed result it tells (R24). -/

namespace Sys2Proof.Machine

variable {s : State}

/-- `STATUS` is at 0x004, whatever the buffer size (R65). -/
theorem access_status (p : Params) : access p 0x004 = some .status := rfl

theorem hostRead_status_of_busy (hp : s.phase ≠ .idle) : hostRead s 0x004 = .okayData 0x00000001 :=
  hostRead_of_busy (access_status s.params) hp

theorem hostRead_status_of_idle (hp : s.phase = .idle) :
    hostRead s 0x004 = .okayData (statusWord s.err s.done false) :=
  hostRead_of_idle (access_status s.params) hp

/-- Success: `DONE` alone, bit 1 (R23). -/
theorem statusWord_success : statusWord 0 true false = 0x00000002 := by decide

/-- With `DONE` and `BUSY` both 0 the word is the code in bits 7:4 (R23). -/
theorem statusWord_of_err (e : BitVec 4) : statusWord e false false = e.setWidth 32 <<< 4 := by
  simp [statusWord]

/-- Every stored code but 0 is that of a kind (R250). -/
theorem ErrorKind.exists_code_eq {e : BitVec 4} (h0 : e ≠ 0) (h6 : e.toNat ≤ 6) : ∃ k : ErrorKind, e = k.code := by
  have codes : e = 1 ∨ e = 2 ∨ e = 3 ∨ e = 4 ∨ e = 5 ∨ e = 6 := by bv_omega
  rcases codes with h | h | h | h | h | h
  · exact ⟨.invalidParameter, h⟩
  · exact ⟨.keyError, h⟩
  · exact ⟨.alignmentError, h⟩
  · exact ⟨.primitiveFailure, h⟩
  · exact ⟨.illegalCommand, h⟩
  · exact ⟨.capacityError, h⟩

end Sys2Proof.Machine

namespace Sys2Proof.Safety

open Sys2Proof.Machine

/-- Settles O50: the phase tells running from ended; in `IDLE`, `DONE` tells success, and then `ERR` failure from no result. -/
theorem statusIsTypedResult : Obligations.StatusIsTypedResult := by
  intro s hs
  by_cases hp : s.phase = .idle
  case neg => exact .inl ⟨hostRead_status_of_busy hp, busy_eq_true.2 hp⟩
  case pos =>
    have hi := hs.idle hp
    have hb : busy s = false := busy_eq_false.2 hp
    have hread := hostRead_status_of_idle hp
    cases hd : s.done with
    | true =>
      have he := hi.doneErr hd
      rw [hd, he, statusWord_success] at hread
      exact .inr (.inl ⟨hread, hb, rfl, he, hi.olenFits, hi.zeroAfter⟩)
    | false =>
      obtain ⟨holen, hobuf⟩ := hi.notDone hd
      have hzero : ∀ a, s.obuf.read a = 0 := fun a => by rw [hobuf, Memory.read_nil]
      rw [hd, statusWord_of_err] at hread
      by_cases he : s.err = 0
      · rw [he] at hread
        exact .inr (.inr (.inr ⟨hread, hb, rfl, he, holen, hzero⟩))
      · obtain ⟨k, hk⟩ := ErrorKind.exists_code_eq he hi.errCode
        rw [hk] at hread
        exact .inr (.inr (.inl ⟨k, hread, hb, rfl, hk, holen, hzero⟩))

end Sys2Proof.Safety
end

section
/-! SUPPORT. Where each location lies in the port space (R65): the address of a location, and the map and its inverse on aligned
addresses. -/

namespace Sys2Proof.Machine

open Sys2Proof.Safety Sys2Proof.Laws

variable {s : State} {p : Params} {a : Addr} {l : Location} {n : Nat}

/-- The address of the first byte of a location (R65). -/
def Location.address : Location → Nat
  | .cmd => 0x000
  | .status => 0x004
  | .klen => 0x008
  | .ivlen => 0x00C
  | .plen => 0x010
  | .olen => 0x014
  | .key o => 0x020 + o
  | .iv o => 0x040 + o
  | .ibuf o => 0x400000 + o
  | .obuf o => 0x800000 + o

/-- The offset of a window location lies inside its window (R65). -/
def Location.Fits (p : Params) : Location → Prop
  | .key o => o < 32
  | .iv o => o < 16
  | .ibuf o => o < p.ibufBytes
  | .obuf o => o < p.obufBytes
  | .cmd | .status | .klen | .ivlen | .plen | .olen => True

theorem registerAt_isSome : (registerAt n).isSome = true ↔ n < 6 := by
  match n with
  | 0 | 1 | 2 | 3 | 4 | 5 => decide
  | n + 6 => simp [registerAt]

theorem windowAt_isSome : (windowAt p n).isSome = true ↔
    (0x20 ≤ n ∧ n < 0x50) ∨ (0x400000 ≤ n ∧ n < 0x400000 + p.ibufBytes) ∨ (0x800000 ≤ n ∧ n < 0x800000 + p.obufBytes) := by
  unfold windowAt ibufBase obufBase
  split_ifs <;> simp <;> omega

/-- The map names something exactly at the mapped addresses, even where the parameters are not well-formed (R65). -/
theorem locate_isSome : (locate p a).isSome = true ↔ Mapped p a.toNat := by
  unfold locate locateOffset Mapped
  split_ifs with h
  · rw [registerAt_isSome]; omega
  · rw [windowAt_isSome]; omega

/-- An access reaches no location exactly when it is misaligned or unmapped (R62, R65). -/
theorem access_eq_none_iff_not_mapped : access p a = none ↔ a.toNat % 4 ≠ 0 ∨ ¬ Mapped p a.toNat := by
  rw [access_eq_none, ← locate_isSome, Bool.not_eq_true, Option.isSome_eq_false_iff, Option.isNone_iff_eq_none]

theorem exists_access (h4 : a.toNat % 4 = 0) (hm : Mapped p a.toNat) : ∃ l, access p a = some l := by
  obtain ⟨l, hl⟩ := Option.isSome_iff_exists.1 (locate_isSome.2 hm)
  exact ⟨l, (access_eq_some p).2 ⟨h4, hl⟩⟩

theorem address_of_registerAt (h : registerAt n = some l) : l.address = 4 * n := by
  unfold registerAt at h
  split at h <;> cases h <;> rfl

theorem address_of_windowAt (h : windowAt p n = some l) : l.address = n := by
  unfold windowAt ibufBase obufBase at h
  split_ifs at h <;> cases h <;> simp only [Location.address] <;> omega

/-- An access reaches a location only at its address. -/
theorem address_of_access (h : access p a = some l) : l.address = a.toNat := by
  obtain ⟨h4, hl⟩ := (access_eq_some p).1 h
  unfold locate locateOffset at hl
  split_ifs at hl
  · rw [address_of_registerAt hl]; omega
  · exact address_of_windowAt hl

theorem eq_ofNat_address (h : access p a = some l) : a = BitVec.ofNat 24 l.address := by
  rw [address_of_access h, BitVec.ofNat_toNat, BitVec.setWidth_eq]

theorem windowAt_key {o : Nat} (ho : o < 32) : windowAt p (0x20 + o) = some (.key o) := by
  rw [windowAt, if_pos (by omega), Nat.add_sub_cancel_left]

theorem windowAt_iv {o : Nat} (ho : o < 16) : windowAt p (0x40 + o) = some (.iv o) := by
  rw [windowAt, if_neg (by omega), if_pos (by omega), Nat.add_sub_cancel_left]

theorem windowAt_ibuf {o : Nat} (ho : o < p.ibufBytes) : windowAt p (0x400000 + o) = some (.ibuf o) := by
  unfold windowAt ibufBase obufBase
  rw [if_neg (by omega), if_neg (by omega), if_pos (by omega), Nat.add_sub_cancel_left]

/-- Well-formed parameters keep the `IBUF` window below that of `OBUF` (R7, R65). -/
theorem windowAt_obuf {o : Nat} (hw : p.wf = true) (ho : o < p.obufBytes) :
    windowAt p (0x800000 + o) = some (.obuf o) := by
  obtain ⟨-, -, hmax⟩ := ibufBytes_of_wf hw
  unfold windowAt ibufBase obufBase
  rw [if_neg (by omega), if_neg (by omega), if_neg (by omega), if_pos (by omega), Nat.add_sub_cancel_left]

/-- Past the registers the map is that of the windows (R65). -/
theorem locateOffset_of_le (h : 0x18 ≤ n) : locateOffset p n = windowAt p n := by
  rw [locateOffset, if_neg (by omega)]

/-- On well-formed parameters the map names each location at its address. -/
theorem locateOffset_address (hw : p.wf = true) (hf : l.Fits p) : locateOffset p l.address = some l := by
  cases l with
  | cmd | status | klen | ivlen | plen | olen => rfl
  | key o => exact (locateOffset_of_le (Nat.le_add_right_of_le (by decide))).trans (windowAt_key hf)
  | iv o => exact (locateOffset_of_le (Nat.le_add_right_of_le (by decide))).trans (windowAt_iv hf)
  | ibuf o => exact (locateOffset_of_le (Nat.le_add_right_of_le (by decide))).trans (windowAt_ibuf hf)
  | obuf o => exact (locateOffset_of_le (Nat.le_add_right_of_le (by decide))).trans (windowAt_obuf hw hf)

/-- A location inside the map has an address of 24 bits. -/
theorem address_lt (hw : p.wf = true) (hf : l.Fits p) : l.address < 2 ^ 24 := by
  obtain ⟨-, -, hmax⟩ := ibufBytes_of_wf hw
  cases l with
  | cmd | status | klen | ivlen | plen | olen => decide
  | key o | iv o | ibuf o | obuf o =>
    simp only [Location.Fits, Params.obufBytes] at hf
    simp only [Location.address]
    omega

theorem access_address (hw : p.wf = true) (hf : l.Fits p) (h4 : l.address % 4 = 0) :
    access p (BitVec.ofNat 24 l.address) = some l := by
  have ha : (BitVec.ofNat 24 l.address).toNat = l.address := by
    rw [BitVec.toNat_ofNat, Nat.mod_eq_of_lt (address_lt hw hf)]
  rw [access_eq_some, locate, ha]
  exact ⟨h4, locateOffset_address hw hf⟩

end Sys2Proof.Machine
end

section
/-! SUPPORT. What the port answers, in the numbers of R63 and R75, and the step a host access takes. -/

namespace Sys2Proof.Machine

open Sys2Proof.Safety

variable {s : State} {a : Addr} {l : Location}

/-- `BusyReadValue` by address (R75). -/
def busyWordAt (s : State) (a : Addr) : Word :=
  if a = 0x004 then 0x00000001 else if a = 0x008 then s.klen.setWidth 32
    else if a = 0x00C then s.ivlen.setWidth 32 else if a = 0x010 then s.plen else 0

theorem busyReadValue_of_access (h : access s.params a = some l) : busyReadValue s l = busyWordAt s a := by
  have ha := address_of_access h
  cases l with
  | cmd | status | klen | ivlen | plen | olen =>
    rw [eq_ofNat_address h]
    rfl
  | key o | iv o | ibuf o | obuf o =>
    have hge : 0x18 ≤ a.toNat := by rw [← ha]; simp only [Location.address]; omega
    rw [busyWordAt, if_neg (by bv_omega), if_neg (by bv_omega), if_neg (by bv_omega), if_neg (by bv_omega)]
    rfl

theorem idleStatus_eq (s : State) : idleStatus s = (s.err.setWidth 32 <<< 4) ||| (if s.done then 2 else 0) := by
  unfold idleStatus statusWord
  cases s.done <;> simp

/-- A port word holds its bytes in order, the first in bits 7:0 (R66). -/
theorem packWord_eq_or (b0 b1 b2 b3 : Byte) : packWord b0 b1 b2 b3 =
    b0.setWidth 32 ||| (b1.setWidth 32 <<< 8) ||| (b2.setWidth 32 <<< 16) ||| (b3.setWidth 32 <<< 24) := by
  unfold packWord
  apply BitVec.eq_of_getLsbD_eq
  intro i hi
  -- the append at the width its bytes add up to, where the append lemmas apply
  show (b3 ++ b2 ++ b1 ++ b0 : BitVec (8 + 8 + 8 + 8)).getLsbD i = _
  simp only [BitVec.getLsbD_append, BitVec.getLsbD_or, BitVec.getLsbD_shiftLeft, BitVec.getLsbD_setWidth]
  split_ifs <;> simp (disch := omega) [decide_eq_true, decide_eq_false, BitVec.getLsbD_of_ge, Nat.sub_sub]

theorem step_hostRead (s : State) (a : Addr) (rest : List Input) : step { s with inputs := .hostRead a :: rest } =
    .next { s with inputs := rest, response := some (hostRead s a) } := rfl

theorem step_hostWrite (s : State) (a : Addr) (v : Word) (rest : List Input) :
    step { s with inputs := .hostWrite a v :: rest } = hostWrite a v { s with inputs := rest } := rfl

theorem hostRead_of_bad_address (h : a.toNat % 4 ≠ 0 ∨ ¬ Mapped s.params a.toNat) : hostRead s a = .error :=
  hostRead_of_none (access_eq_none_iff_not_mapped.2 h)

/-- A misaligned or unmapped access takes one step, in every phase: it answers `ERROR` and changes nothing (R62, R65). -/
theorem step_of_bad_address (h : a.toNat % 4 ≠ 0 ∨ ¬ Mapped s.params a.toNat) (rest : List Input) :
    step { s with inputs := .hostRead a :: rest } = .next { s with inputs := rest, response := some .error } ∧
      ∀ v, step { s with inputs := .hostWrite a v :: rest } = .next { s with inputs := rest, response := some .error } := by
  refine ⟨?_, fun v => ?_⟩
  · rw [step_hostRead, hostRead_of_bad_address h]
  · exact hostWrite_of_none (s := { s with inputs := rest }) (access_eq_none_iff_not_mapped.2 h)

/-- While a command runs, a write that reaches a location is dropped with `OKAY` (R75, R112). -/
theorem step_hostWrite_of_busy {v : Word} (hp : s.phase ≠ .idle) (h4 : a.toNat % 4 = 0) (hm : Mapped s.params a.toNat)
    (rest : List Input) :
    step { s with inputs := .hostWrite a v :: rest } = .next { s with inputs := rest, response := some .okay } := by
  obtain ⟨l, hl⟩ := exists_access h4 hm
  exact hostWrite_of_busy (s := { s with inputs := rest }) hl hp

/-- While a command runs, what a read returns is told by its address alone (R75). -/
theorem hostRead_of_busy_mapped (hp : s.phase ≠ .idle) (h4 : a.toNat % 4 = 0) (hm : Mapped s.params a.toNat) :
    hostRead s a = .okayData (busyWordAt s a) := by
  obtain ⟨l, hl⟩ := exists_access h4 hm
  rw [hostRead_of_busy hl hp, busyReadValue_of_access hl]

/-- In `IDLE` a read at the address of a location returns its word of R63. -/
theorem hostRead_address (hw : s.params.wf = true) (hp : s.phase = .idle) (hf : l.Fits s.params) (h4 : l.address % 4 = 0) :
    hostRead s (BitVec.ofNat 24 l.address) = .okayData (idleReadValue s l) :=
  hostRead_of_idle (access_address hw hf h4) hp

end Sys2Proof.Machine

namespace Sys2Proof.Safety

open Sys2Proof.Machine

/-- Settles O10: such an access reaches no location, whatever the phase. -/
theorem badAccessAnswersError : Obligations.BadAccessAnswersError :=
  fun _ rest => ⟨fun _ h => step_of_bad_address h rest, fun _ _ _ => rfl⟩

/-- Settles O11: by the location the read reaches; while a command runs the word is told by the address alone. -/
theorem hostReadAnswers : Obligations.HostReadAnswers := by
  intro s hw
  refine ⟨fun a rest => step_hostRead s a rest, fun a h => hostRead_of_bad_address h,
    fun hp a h4 hm => hostRead_of_busy_mapped hp h4 hm, fun hp => ?_⟩
  have read : ∀ l : Location, l.Fits s.params → l.address % 4 = 0 →
      hostRead s (BitVec.ofNat 24 l.address) = .okayData (idleReadValue s l) :=
    fun _ hf h4 => hostRead_address hw hp hf h4
  refine ⟨read .cmd trivial rfl, ?status, read .klen trivial rfl, read .ivlen trivial rfl, read .plen trivial rfl,
    read .olen trivial rfl, fun o h4 ho => read (.key o) ho ?_, fun o h4 ho => read (.iv o) ho ?_,
    fun o h4 ho => read (.ibuf o) ho ?_, fun o h4 ho => ?obuf⟩
  case status =>
    rw [← idleStatus_eq]
    exact read .status trivial rfl
  case obuf =>
    rw [← packWord_eq_or]
    exact read (.obuf o) ho (by simp only [Location.address]; omega)
  all_goals
    simp only [Location.address]
    omega

/-- Settles O14: a busy port drops every write it maps, `CMD` included, and answers reads by the address alone. -/
theorem runningCommandIsUndisturbed : Obligations.RunningCommandIsUndisturbed := by
  intro s rest hp _
  have cmd_dropped : ∀ w, step { s with inputs := .hostWrite 0x000000 w :: rest } =
      .next { s with inputs := rest, response := some .okay } :=
    fun w => step_hostWrite_of_busy hp rfl (.inl (by decide)) rest
  refine ⟨fun a v h4 hm => step_hostWrite_of_busy hp h4 hm rest, cmd_dropped, cmd_dropped _, fun a h4 hm => ?_,
    fun a h => step_of_bad_address h rest⟩
  rw [step_hostRead, hostRead_of_busy_mapped hp h4 hm, busyWordAt]

end Sys2Proof.Safety
end

section
/-! SUPPORT. The decoder as the full match of R92, and the classes of illegal words of R95, one lemma for each
check of `CmdFields.wf`. -/

namespace Sys2Proof

variable {w : Word} {f : CmdFields} {i : Instr}

/-! The three words of R92. -/

@[simp] theorem encode_encAesCbcPkcs7 : encode .encAesCbcPkcs7 = 0x00000141 := rfl
@[simp] theorem encode_encDesEcbNone : encode .encDesEcbNone = 0x00000011 := rfl
@[simp] theorem encode_clear : encode .clear = 0x00000002 := rfl

/-- Exactly the fields of an instruction decode to it (R92). -/
theorem decodeFields_eq_ok_iff : decodeFields f = .ok i ↔ f = instrFields i := by
  refine ⟨fields_of_decodeFields, ?_⟩
  rintro rfl
  cases i <;> rfl

/-- Exactly the word of an instruction decodes to it: the match is on all 32 bits (R92). -/
theorem decode_eq_ok_iff : decode w = .ok i ↔ w = encode i := by
  refine ⟨encode_of_decode, ?_⟩
  rintro rfl
  cases i <;> rfl

/-- A word is illegal when no instruction has it (R93). -/
theorem decode_error_iff : (∃ e, decode w = .error e) ↔ ∀ i, w ≠ encode i := by
  simp only [ne_eq, ← decode_eq_ok_iff]
  cases decode w <;> simp

namespace CmdFields

/-- The well-formed fields are those of the instructions (R92). -/
theorem wf_iff_eq_instrFields : f.wf = true ↔ ∃ i, f = instrFields i := by
  constructor
  · obtain ⟨op, cipher, mode, pad, zero⟩ := f
    intro h
    simp only [wf, Bool.and_eq_true, zeroHeld, beq_iff_eq] at h
    obtain ⟨hop, hfields, hoffered, hbare, rfl⟩ := h
    simp only [opDefined, Bool.or_eq_true, beq_iff_eq] at hop
    rcases hop with rfl | rfl
    · simp only [combinationOffered, hfields, bne_self_eq_false, Bool.not_true, Bool.false_or, Bool.or_eq_true,
        Bool.and_eq_true, beq_iff_eq] at hoffered
      rcases hoffered with ⟨rfl, rfl, rfl⟩ | ⟨rfl, rfl, rfl⟩
      · exact ⟨.encAesCbcPkcs7, rfl⟩
      · exact ⟨.encDesEcbNone, rfl⟩
    · simp only [clearBare, bne_self_eq_false, Bool.false_or, Bool.and_eq_true, beq_iff_eq] at hbare
      obtain ⟨rfl, rfl, rfl⟩ := hbare
      exact ⟨.clear, rfl⟩
  · rintro ⟨i, rfl⟩
    cases i <;> rfl

theorem opDefined_eq_false : f.opDefined = false ↔ f.op = 0 ∨ 3 ≤ f.op.toNat := by
  simp only [opDefined, Bool.or_eq_false_iff, beq_eq_false_iff_ne]
  bv_omega

theorem fieldsDefined_eq_false :
    f.fieldsDefined = false ↔ f.op = 1 ∧ (2 ≤ f.cipher.toNat ∨ 2 ≤ f.mode.toNat ∨ 2 ≤ f.pad.toNat) := by
  simp only [fieldsDefined, Bool.or_eq_false_iff, bne_eq_false_iff_eq, Bool.and_eq_false_iff, decide_eq_false_iff_not, not_lt]

theorem clearBare_eq_false : f.clearBare = false ↔ f.op = 2 ∧ (f.cipher ≠ 0 ∨ f.mode ≠ 0 ∨ f.pad ≠ 0) := by
  simp only [clearBare, Bool.or_eq_false_iff, bne_eq_false_iff_eq, Bool.and_eq_false_iff, beq_eq_false_iff_ne]

theorem zeroHeld_eq_false : f.zeroHeld = false ↔ f.zero ≠ 0 := by
  rw [zeroHeld, beq_eq_false_iff_ne]

/-- The six combinations of defined values that are not offered (R95 (c)). -/
theorem combinationOffered_eq_false : f.combinationOffered = false ↔ f.op = 1 ∧
    ((f.cipher = 0 ∧ f.mode = 0 ∧ f.pad = 0) ∨ (f.cipher = 0 ∧ f.mode = 0 ∧ f.pad = 1) ∨
      (f.cipher = 0 ∧ f.mode = 1 ∧ f.pad = 0) ∨ (f.cipher = 1 ∧ f.mode = 0 ∧ f.pad = 1) ∨
      (f.cipher = 1 ∧ f.mode = 1 ∧ f.pad = 0) ∨ (f.cipher = 1 ∧ f.mode = 1 ∧ f.pad = 1)) := by
  simp only [combinationOffered, fieldsDefined]
  generalize f.cipher = c, f.mode = m, f.pad = p
  by_cases h : f.op = 1
  case pos =>
    rw [h]
    revert c m p
    decide
  case neg => simp only [bne_iff_ne.2 h, Bool.true_or, Bool.true_eq_false, h, false_and]

/-- Malformed fields fail one of the five checks, each a class of R95. -/
theorem wf_eq_false : f.wf = false ↔ f.opDefined = false ∨ f.fieldsDefined = false ∨ f.combinationOffered = false ∨
    f.clearBare = false ∨ f.zeroHeld = false := by
  simp only [wf, Bool.and_eq_false_iff]

end CmdFields

/-- Bits 9:0 are the four fields below `ZERO`, in order (R91). -/
theorem extractLsb'_ten {n : Nat} (x : BitVec n) :
    x.extractLsb' 8 2 ++ (x.extractLsb' 6 2 ++ (x.extractLsb' 4 2 ++ x.extractLsb' 0 4)) = x.extractLsb' 0 10 := by
  simp only [BitVec.extractLsb'_append_extractLsb'_eq_extractLsb']

/-- Bits 9:0 of a word are told by its four fields below `ZERO`, and tell them (R91). -/
theorem lowTen_eq_iff (k : BitVec 10) : w.extractLsb' 0 10 = k ↔
    (fieldsOf w).op = k.extractLsb' 0 4 ∧ (fieldsOf w).cipher = k.extractLsb' 4 2 ∧
      (fieldsOf w).mode = k.extractLsb' 6 2 ∧ (fieldsOf w).pad = k.extractLsb' 8 2 := by
  constructor
  · rintro rfl
    refine ⟨?_, ?_, ?_, ?_⟩ <;> exact (BitVec.extractLsb'_extractLsb'_of_le (by decide)).symm
  · rintro ⟨hop, hcipher, hmode, hpad⟩
    rw [← BitVec.extractLsb'_eq_self (x := k), ← extractLsb'_ten k, ← hop, ← hcipher, ← hmode, ← hpad]
    exact (extractLsb'_ten w).symm

theorem combinationOffered_fieldsOf_eq_false : (fieldsOf w).combinationOffered = false ↔
    w.extractLsb' 0 10 = 0x001 ∨ w.extractLsb' 0 10 = 0x101 ∨ w.extractLsb' 0 10 = 0x041 ∨
      w.extractLsb' 0 10 = 0x111 ∨ w.extractLsb' 0 10 = 0x051 ∨ w.extractLsb' 0 10 = 0x151 := by
  simp only [CmdFields.combinationOffered_eq_false, lowTen_eq_iff, and_or_left]
  rfl

/-- A word is illegal when its fields are malformed. -/
theorem decode_error_iff_wf : (∃ e, decode w = .error e) ↔ (fieldsOf w).wf = false := by
  rw [decode_error_iff, ← Bool.not_eq_true, CmdFields.wf_iff_eq_instrFields, not_exists]
  exact forall_congr' fun _ => not_congr (decode_eq_ok_iff.symm.trans decodeFields_eq_ok_iff)

end Sys2Proof

namespace Sys2Proof.Machine

/-- A failure leaves the reset state but for the code of its kind (R259). -/
theorem raise_eq_resetWith (k : ErrorKind) (s : State) : raise k s =
    { State.resetWith s.params with err := k.code, inputs := s.inputs, response := s.response } := rfl

end Sys2Proof.Machine

namespace Sys2Proof.Safety

open Sys2Proof.Machine

/-- Settles O1: only the word of an instruction decodes to it. -/
theorem decodeMatchesOpcodeMap : Obligations.DecodeMatchesOpcodeMap := by
  refine ⟨fun w i => ?_, rfl, rfl, rfl⟩
  rw [decode_eq_ok_iff]
  cases i <;> simp

/-- Settles O2: an illegal word is no instruction's word, and its fields fail one of the five checks; `CHECK` fails with
`IllegalCommand` whichever it is. -/
theorem illegalWordsFallInFiveClasses : Obligations.IllegalWordsFallInFiveClasses := by
  refine ⟨fun w => ?none_of_three, fun w => ?class_of_field, fun s w w' hp hw hw' => ?treated_alike⟩
  case none_of_three =>
    rw [decode_error_iff]
    refine ⟨fun h => ⟨h .encAesCbcPkcs7, h .encDesEcbNone, h .clear⟩, fun ⟨haes, hdes, hclear⟩ i => ?_⟩
    cases i with
    | encAesCbcPkcs7 => exact haes
    | encDesEcbNone => exact hdes
    | clear => exact hclear
  case class_of_field =>
    rw [decode_error_iff_wf, CmdFields.wf_eq_false, CmdFields.opDefined_eq_false, CmdFields.fieldsDefined_eq_false,
      combinationOffered_fieldsOf_eq_false, CmdFields.clearBare_eq_false, CmdFields.zeroHeld_eq_false]
    rfl
  case treated_alike =>
    obtain ⟨e, he⟩ := hw
    obtain ⟨e', he'⟩ := hw'
    rw [sequencerTurn_illegal (s := { s with cmdw := w }) hp he, sequencerTurn_illegal (s := { s with cmdw := w' }) hp he']
    rfl

/-- Settles O19: the write issues the word, and the turn after it raises `IllegalCommand`, which wipes every operand. -/
theorem illegalWordFailsInOneStep : Obligations.IllegalWordFailsInOneStep := by
  rintro s w rest hp ⟨e, he⟩
  have not_clear : decode w ≠ .ok .clear := by simp [he]
  refine ⟨issueWord w (respond .okay { s with inputs := .sequencer :: rest }), ?issued, rfl, rfl, rfl, rfl,
    fun _ => rfl, ?fails⟩
  case issued => exact (step_of_input rfl).trans (takeInput_cmd hp not_clear)
  case fails =>
    rw [step_of_input (x := .sequencer) rfl, takeInput, sequencerTurn_illegal rfl he, raise_eq_resetWith]
    rfl

end Sys2Proof.Safety
end

section
/-! SUPPORT. The life of a command: how it is issued (R111), `CLEAR` (R113), and what every completion wipes (R125). -/

namespace Sys2Proof.Machine

variable {s t : State} {w : Word} {i : Instr}

/-- `CMD` is at address 0, whatever the buffer size (R65). -/
theorem access_zero (p : Params) : access p 0 = some .cmd := rfl

/-- The `IDLE` step of an encryption command is the issue of its word (R111). -/
theorem exec_of_idle (hp : s.phase = .idle) (hi : i ≠ .clear) : exec i s = .next (issueWord (encode i) s) := by
  cases i with
  | clear => exact absurd rfl hi
  | encAesCbcPkcs7 => simp only [exec, execEncAesCbcPkcs7, hp]
  | encDesEcbNone => simp only [exec, execEncDesEcbNone, hp]

/-- In `IDLE`, `CLEAR` completes at once, in the reset state (R113). -/
theorem exec_clear_of_idle (hp : s.phase = .idle) : exec .clear s = .next (resetCore s) := by
  rw [← clearAll_eq_resetCore hp]
  simp only [exec, execClear, hp]

/-- `CLEAR` has no other step than the one in `IDLE` (R114). -/
theorem exec_clear_eq_next : exec .clear s = .next t ↔ s.phase = .idle ∧ t = resetCore s := by
  constructor
  · intro h
    cases hp : s.phase with
    | idle => exact ⟨rfl, Host.Outcome.next.inj (h.symm.trans (exec_clear_of_idle hp))⟩
    | check | block =>
      simp only [exec, execClear, hp] at h
      cases h
  · rintro ⟨hp, rfl⟩
    exact exec_clear_of_idle hp

/-- A command written to `CMD` in `IDLE` takes its `IDLE` step within the write (R111). -/
theorem takeInput_cmd_of_ok (hp : s.phase = .idle) (hd : decode w = .ok i) :
    takeInput (.hostWrite 0 w) s = exec i (respond .okay s) := by
  rw [takeInput, hostWrite_cmd (access_zero _) hp, writeCmd, hd]

/-- A `CLEAR` written to `CMD` in `IDLE` completes within the write (R113). -/
theorem step_hostWrite_clear (hp : s.phase = .idle) (hd : decode w = .ok .clear) (rest : List Input) :
    step { s with inputs := .hostWrite 0 w :: rest } =
      .next (resetCore { s with inputs := rest, response := some .okay }) :=
  calc step { s with inputs := .hostWrite 0 w :: rest }
    _ = takeInput (.hostWrite 0 w) { s with inputs := rest } := step_of_input rfl
    _ = exec .clear (respond .okay { s with inputs := rest }) := takeInput_cmd_of_ok hp hd
    _ = .next (resetCore (respond .okay { s with inputs := rest })) := exec_clear_of_idle hp

/-- `Wipe()` changes nothing: every input and every intermediate value is zero (R125). -/
def Wiped (s : State) : Prop := wipe s = s

/-- `Wipe()` is the last change of each completion (R124). -/
theorem wiped_raise (k : ErrorKind) (s : State) : Wiped (raise k s) := rfl

theorem wiped_completeSuccess (n : Word) (s : State) : Wiped (completeSuccess n s) := rfl

theorem wiped_resetCore (s : State) : Wiped (resetCore s) := rfl

/-- A turn that ends a running command completes it (R124): it raised a kind, or the last block was done. -/
theorem Turn.completes (h : Turn s t) (hs : s.phase ≠ .idle) (ht : t.phase = .idle) :
    (∃ k, t = raise k s) ∨ ∃ n, t = completeSuccess n s := by
  cases h with
  | rest hp => exact absurd hp hs
  | illegal | aesFails | desFails | aesPrimFails | desPrimFails => exact .inl ⟨_, rfl⟩
  | aesFinishes | desFinishes => exact .inr ⟨_, rfl⟩
  | aesStarts | desStarts => cases ht
  | aesBlock hp | desBlock hp => exact absurd (hp.symm.trans ht) (by decide)

theorem getElem_zeroBytes {n j : Nat} (h : j < n) : (zeroBytes n)[j] = 0 := Vector.getElem_replicate h

theorem getElem_zeroSchedule {j k : Nat} (hj : j < 60) (hk : k < 4) : zeroSchedule[j][k] = 0 := by
  simp only [zeroSchedule, Vector.getElem_replicate, getElem_zeroBytes]

theorem getElem_zeroKeys {j : Nat} (h : j < 16) : zeroKeys[j] = 0 := Vector.getElem_replicate h

end Sys2Proof.Machine

namespace Sys2Proof.Safety

open Sys2Proof.Machine

/-- Settles O21: a completion is a failure or a success, `CLEAR` leaves the reset state, and each of them ends in `Wipe()`. -/
theorem completionWipesOperands : Obligations.CompletionWipesOperands := by
  intro s t h
  have wiped : Wiped t := by
    rcases h with ⟨hs, hturn, ht⟩ | hclear
    · rcases (turn_of_sequencerTurn hturn).completes hs ht with ⟨k, rfl⟩ | ⟨n, rfl⟩
      · exact wiped_raise k s
      · exact wiped_completeSuccess n s
    · obtain ⟨-, rfl⟩ := exec_clear_eq_next.1 hclear
      exact wiped_resetCore s
  rw [← wiped]
  exact ⟨rfl, rfl, rfl, fun _ => getElem_zeroBytes, fun _ => getElem_zeroBytes, fun _ => rfl, rfl, rfl, rfl,
    fun _ => getElem_zeroBytes, fun _ _ => getElem_zeroSchedule, rfl, fun _ => getElem_zeroKeys⟩

/-- Settles O17: the write to `CMD` is the `IDLE` step of the command, an issue unless it is `CLEAR`. -/
theorem issueLatchesTheWord : Obligations.IssueLatchesTheWord := by
  intro s w rest hp
  refine ⟨fun hd => (step_of_input rfl).trans (takeInput_cmd hp hd), ?aes, ?des, fun _ => rfl, fun hd => ?clear⟩
  case aes | des =>
    rintro rfl
    exact exec_of_idle hp (by decide)
  case clear =>
    exact ⟨_, exec_clear_of_idle hp, rfl, step_hostWrite_clear hp hd rest⟩

/-- Settles O18: `CLEAR` in `IDLE` is the reset of the hardware, and a busy port drops it. -/
theorem clearCompletesInResetState : Obligations.ClearCompletesInResetState :=
  ⟨fun s hp => ⟨resetCore s, exec_clear_of_idle hp, rfl, exec_clear_of_idle rfl, step_hostWrite_clear hp rfl,
    fun hreset => hreset.symm⟩, fun s rest hp => step_hostWrite_of_busy hp rfl (.inl (by decide)) rest⟩

end Sys2Proof.Safety
end

section
/-! SUPPORT. The S-box as R143 constructs it: inversion in the field of R142, then an affine map. -/

namespace Sys2Proof.Machine

open Sys2Proof.Safety

/-- The affine map of R143. -/
def sboxAffine (b : Byte) : Byte :=
  b ^^^ b.rotateLeft 4 ^^^ b.rotateLeft 3 ^^^ b.rotateLeft 2 ^^^ b.rotateLeft 1 ^^^ 0x63#8

/-- The inverse of the affine map of R143. -/
def sboxUnaffine (c : Byte) : Byte := c.rotateLeft 6 ^^^ c.rotateLeft 3 ^^^ c.rotateLeft 1 ^^^ 0x05#8

/-- The field inverse of `a`, 0 for 0, as the table of R143 has it: its entry without the affine map. -/
def sboxInverse (a : Byte) : Byte := sboxUnaffine (sbox a)

/-- Rotation to the left by `r` takes bit `i` from bit `i - r`. -/
theorem getLsbD_sboxAffine (b : Byte) {i : Nat} (hi : i < 8) : (sboxAffine b).getLsbD i =
    (b.getLsbD i ^^ b.getLsbD ((i + 4) % 8) ^^ b.getLsbD ((i + 5) % 8) ^^ b.getLsbD ((i + 6) % 8) ^^
      b.getLsbD ((i + 7) % 8) ^^ (0x63#8).getLsbD i) := by
  simp only [sboxAffine, BitVec.getLsbD_xor, BitVec.getLsbD_rotateLeft]
  interval_cases i <;> simp

theorem sboxAffine_sboxUnaffine : ∀ c : Byte, sboxAffine (sboxUnaffine c) = c := by decide +kernel

theorem sboxUnaffine_sboxAffine : ∀ b : Byte, sboxUnaffine (sboxAffine b) = b := by decide +kernel

theorem sboxAffine_sboxInverse (a : Byte) : sboxAffine (sboxInverse a) = sbox a := sboxAffine_sboxUnaffine (sbox a)

theorem gfMul_sboxInverse : ∀ a : Byte, a ≠ 0 → gfMul a (sboxInverse a) = 1 := by decide +kernel

theorem sboxInverse_zero : sboxInverse 0 = 0 := by decide

theorem sboxInverse_involutive : Function.Involutive sboxInverse := by unfold Function.Involutive; decide +kernel

/-- The S-box is the composition of two bijections. -/
theorem sbox_bijective : Function.Bijective sbox := by
  have affine : Function.Bijective sboxAffine :=
    Function.bijective_iff_has_inverse.2 ⟨sboxUnaffine, sboxUnaffine_sboxAffine, sboxAffine_sboxUnaffine⟩
  have composed : sboxAffine ∘ sboxInverse = sbox := funext sboxAffine_sboxInverse
  exact composed ▸ affine.comp sboxInverse_involutive.bijective

end Sys2Proof.Machine

namespace Sys2Proof.Safety

open Sys2Proof.Machine

/-- Settles O38: each entry is the affine image of the inverse of its index. -/
theorem sboxIsInverseThenAffine : Obligations.SboxIsInverseThenAffine := by
  refine ⟨sbox_bijective, fun a => ⟨sboxInverse a, ?zero, gfMul_sboxInverse a, ?bits⟩⟩
  case zero =>
    rintro rfl
    exact sboxInverse_zero
  case bits =>
    rw [← sboxAffine_sboxInverse]
    exact fun i => getLsbD_sboxAffine _

end Sys2Proof.Safety
end

section
/-! SUPPORT. The round transformations of AES as bijections (R151). Blocks are finitely many, so a map of blocks that is injective
is a bijection. -/

namespace Sys2Proof.Machine

/-- A sequence is the function that reads it. -/
theorem finite_bytes (n : Nat) : Finite (Bytes n) :=
  Finite.of_injective (fun v i => v.get i) fun _ _ h => Vector.ext fun i hi => congrFun h ⟨i, hi⟩

theorem bijective_of_injective {n : Nat} {f : Bytes n → Bytes n} (hf : Function.Injective f) : Function.Bijective f :=
  have := finite_bytes n
  hf.bijective_of_finite

theorem getElem_xorBytes {n i : Nat} (a b : Bytes n) (hi : i < n) : (xorBytes a b)[i] = a[i] ^^^ b[i] :=
  Vector.getElem_ofFn hi

theorem xorBytes_cancel_right {n : Nat} (a b : Bytes n) : xorBytes (xorBytes a b) b = a :=
  Vector.ext fun i hi => by rw [getElem_xorBytes, getElem_xorBytes, BitVec.xor_assoc, BitVec.xor_self, BitVec.xor_zero]

theorem getElem_subBytes {i : Nat} (s : Bytes 16) (hi : i < 16) : (subBytes s)[i] = sbox s[i] := Vector.getElem_ofFn hi

theorem subBytes_bijective : Function.Bijective subBytes := by
  refine bijective_of_injective fun s t h => Vector.ext fun i hi => sbox_bijective.injective ?_
  rw [← getElem_subBytes, ← getElem_subBytes, h]

/-- `ShiftRows` takes the byte of row `r`, column `c` to column `c - r` (R145). -/
theorem getElem_shiftRows (s : Bytes 16) {r c : Nat} (hr : r < 4) (hc : c < 4) :
    (shiftRows s)[r + 4 * ((c + 4 - r) % 4)] = s[r + 4 * c] := by
  rw [shiftRows, Vector.getElem_ofFn]
  congr 1
  dsimp only
  omega

theorem shiftRows_bijective : Function.Bijective shiftRows := by
  refine bijective_of_injective fun s t h => Vector.ext fun i hi => ?_
  have at_place : s[i % 4 + 4 * (i / 4)] = t[i % 4 + 4 * (i / 4)] := by
    rw [← getElem_shiftRows s (by omega) (by omega), ← getElem_shiftRows t (by omega) (by omega), h]
  simpa only [Nat.mod_add_div] using at_place

theorem xor_left_comm (a b c : Byte) : a ^^^ (b ^^^ c) = b ^^^ (a ^^^ c) := by ac_rfl

/-- Multiplication by 2 is linear. -/
theorem xtime_xor (a b : Byte) : xtime (a ^^^ b) = xtime a ^^^ xtime b := by
  unfold xtime
  rw [BitVec.getLsbD_xor, BitVec.shiftLeft_xor_distrib]
  cases a.getLsbD 7 <;> cases b.getLsbD 7 <;> simp [BitVec.xor_assoc, BitVec.xor_comm, xor_left_comm]

section mixColumn

/-- A byte of a column after R146, from the bytes of the column in order from its own row on. -/
def mixByte (a b c d : Byte) : Byte := xtime a ^^^ mul3 b ^^^ c ^^^ d

variable (a b c d : Byte)

theorem mixByte_eq : mixByte a b c d = b ^^^ c ^^^ d ^^^ xtime (a ^^^ b) := by
  rw [mixByte, mul3, xtime_xor]
  ac_rfl

theorem mixByte_xor_next : mixByte a b c d ^^^ mixByte b c d a = a ^^^ b ^^^ xtime (a ^^^ c) := by
  simp [mixByte_eq, xtime_xor, BitVec.xor_assoc, BitVec.xor_comm, xor_left_comm]

/-- The square of the matrix of R146 has the rows 5 0 4 0 and so on: in characteristic 2 the mixed products cancel. -/
theorem mixByte_twice : mixByte (mixByte a b c d) (mixByte b c d a) (mixByte c d a b) (mixByte d a b c) =
    a ^^^ xtime (xtime (a ^^^ c)) := by
  rw [mixByte_eq (mixByte a b c d), BitVec.xor_assoc (mixByte b c d a), mixByte_xor_next, mixByte_xor_next, mixByte_eq,
    xtime_xor (a ^^^ b)]
  generalize xtime (xtime (a ^^^ c)) = x
  simp [xtime_xor, BitVec.xor_assoc, BitVec.xor_comm, xor_left_comm]

/-- To add to each of two bytes four times their sum leaves the sum, so doing it twice undoes it. -/
theorem add_four_times_sum_twice : (a ^^^ xtime (xtime (a ^^^ c))) ^^^
    xtime (xtime ((a ^^^ xtime (xtime (a ^^^ c))) ^^^ (c ^^^ xtime (xtime (c ^^^ a))))) = a := by
  simp [xtime_xor, BitVec.xor_assoc, BitVec.xor_comm]

variable (v : Bytes 4) {i : Nat} (hi : i < 4)

/-- The matrix of R146 is circulant. -/
theorem getElem_mixColumn : (mixColumn v)[i] = mixByte v[i] v[(i + 1) % 4] v[(i + 2) % 4] v[(i + 3) % 4] := by
  have row : i = 0 ∨ i = 1 ∨ i = 2 ∨ i = 3 := by omega
  rcases row with rfl | rfl | rfl | rfl
  case inl => rfl
  all_goals
    simp only [mixColumn, mixByte, Vector.getElem_mk, List.getElem_toArray, List.getElem_cons_succ, List.getElem_cons_zero,
      Nat.reduceAdd, Nat.reduceMod]
    ac_rfl

theorem getElem_mixColumn_twice : (mixColumn (mixColumn v))[i] = v[i] ^^^ xtime (xtime (v[i] ^^^ v[(i + 2) % 4])) := by
  rw [← mixByte_twice v[i] v[(i + 1) % 4] v[(i + 2) % 4] v[(i + 3) % 4]]
  have wrap_one : (i + 5) % 4 = (i + 1) % 4 := by omega
  have wrap_two : (i + 6) % 4 = (i + 2) % 4 := by omega
  simp [getElem_mixColumn, Nat.mod_eq_of_lt hi, Nat.add_assoc, wrap_one, wrap_two]

/-- `MixColumns` four times is the identity. -/
theorem mixColumn_four_times : mixColumn (mixColumn (mixColumn (mixColumn v))) = v := by
  refine Vector.ext fun i hi => ?_
  have := add_four_times_sum_twice v[i] v[(i + 2) % 4]
  simpa [getElem_mixColumn_twice, Nat.mod_eq_of_lt hi, Nat.add_assoc] using this

theorem mixColumn_injective : Function.Injective mixColumn :=
  Function.LeftInverse.injective (g := fun w => mixColumn (mixColumn (mixColumn w))) mixColumn_four_times

end mixColumn

theorem column_mixColumns (s : Bytes 16) (c : Fin 4) : column (mixColumns s) c = mixColumn (column s c) := by
  refine Vector.ext fun r hr => ?_
  simp [column, mixColumns, Nat.mul_add_div, Nat.div_eq_of_lt, Nat.mod_eq_of_lt]

/-- A state is its four columns. -/
theorem ext_columns {s t : Bytes 16} (h : ∀ c, column s c = column t c) : s = t := by
  refine Vector.ext fun i hi => ?_
  have := congrArg (·[i % 4]) (h ⟨i / 4, by omega⟩)
  simpa [column, Nat.div_add_mod] using this

theorem mixColumns_bijective : Function.Bijective mixColumns := by
  refine bijective_of_injective fun s t h => ext_columns fun c => mixColumn_injective ?_
  rw [← column_mixColumns, ← column_mixColumns, h]

variable (rk : AesSchedule)

theorem addRoundKey_bijective (r : Nat) : Function.Bijective fun s => addRoundKey s rk r :=
  Function.Involutive.bijective fun s => xorBytes_cancel_right s (roundKey rk r)

theorem aesRound_bijective (r : Nat) : Function.Bijective fun s => aesRound rk s r :=
  (addRoundKey_bijective rk r).comp (mixColumns_bijective.comp (shiftRows_bijective.comp subBytes_bijective))

theorem aesRounds_bijective (rs : List Nat) : Function.Bijective fun s => rs.foldl (aesRound rk) s := by
  induction rs with
  | nil => exact Function.bijective_id
  | cons r rs ih => exact ih.comp (aesRound_bijective rk r)

theorem aesEncryptBlock_bijective (nr : Nat) : Function.Bijective (aesEncryptBlock rk nr) := by
  have last : Function.Bijective fun s => addRoundKey (shiftRows (subBytes s)) rk nr :=
    (addRoundKey_bijective rk nr).comp (shiftRows_bijective.comp subBytes_bijective)
  have composed : Function.Bijective fun x => addRoundKey (shiftRows (subBytes
      ((List.range' 1 (nr - 1)).foldl (aesRound rk) (addRoundKey x rk 0)))) rk nr :=
    last.comp ((aesRounds_bijective rk _).comp (addRoundKey_bijective rk 0))
  unfold aesEncryptBlock
  exact composed

end Sys2Proof.Machine

namespace Sys2Proof.Safety

open Sys2Proof.Machine

/-- Settles O40: each transformation is injective on finitely many states, and the block transform composes them, by induction on
the rounds. -/
theorem aesBlockIsBijective : Obligations.AesBlockIsBijective :=
  ⟨subBytes_bijective, shiftRows_bijective, mixColumns_bijective, addRoundKey_bijective, aesEncryptBlock_bijective⟩

end Sys2Proof.Safety
end

section
/-! SUPPORT. The words of the expanded key (R147): the loop keeps the words it has and appends the next one; and where the start
of a command stores them. -/

namespace Sys2Proof.Machine

section expandWords

variable {nk n i : Nat} {w : List AesWord} {z : AesWord}

theorem getD_expandWords_of_lt (h : i < w.length) : (expandWords nk n w).getD i z = w.getD i z := by
  induction n generalizing w with
  | zero => rfl
  | succ n ih =>
    have kept : i < (w ++ [nextExpansionWord nk w]).length := by
      rw [List.length_append]
      omega
    rw [expandWords, ih kept, List.getD_append _ _ _ _ h]

/-- The recurrence of R147 for the words the loop appends. -/
theorem getD_expandWords_of_le (hnk : 0 < nk) (hw : nk ≤ w.length) (hi : w.length ≤ i) (hn : i < w.length + n) :
    (expandWords nk n w).getD i (zeroBytes 4) = xorBytes ((expandWords nk n w).getD (i - nk) (zeroBytes 4))
      (expansionTerm nk i ((expandWords nk n w).getD (i - 1) (zeroBytes 4))) := by
  induction n generalizing w with
  | zero => omega
  | succ n ih =>
    have longer : (w ++ [nextExpansionWord nk w]).length = w.length + 1 := List.length_append
    rw [expandWords]
    rcases Nat.eq_or_lt_of_le hi with rfl | later
    · have before : ∀ j, j < w.length → (expandWords nk n (w ++ [nextExpansionWord nk w])).getD j (zeroBytes 4) =
          w.getD j (zeroBytes 4) := fun j hj => by
        rw [getD_expandWords_of_lt (by omega), List.getD_append _ _ _ _ hj]
      have appended : (expandWords nk n (w ++ [nextExpansionWord nk w])).getD w.length (zeroBytes 4) =
          nextExpansionWord nk w := by
        rw [getD_expandWords_of_lt (by omega), List.getD_append_right _ _ _ _ (Nat.le_refl _), Nat.sub_self]
        rfl
      rw [appended, before _ (by omega), before _ (by omega)]
      rfl
    · exact ih (by omega) (by omega) (by omega)

end expandWords

section aesKeyExpansion

variable {k : List Byte} {i : Nat}

theorem keyWords_length (nk : Nat) (k : List Byte) : (keyWords nk k).length = nk := by
  rw [keyWords, List.length_map, List.length_range]

theorem getD_keyWords {nk : Nat} {z : AesWord} (hi : i < nk) : (keyWords nk k).getD i z =
    #v[k.getD (4 * i) 0, k.getD (4 * i + 1) 0, k.getD (4 * i + 2) 0, k.getD (4 * i + 3) 0] := by
  rw [List.getD_eq_getElem _ _ (hi.trans_eq (keyWords_length nk k).symm)]
  simp only [keyWords, List.getElem_map, List.getElem_range]
  rfl

/-- The first `Nk` words of the expanded key are the key (R147). -/
theorem getD_aesKeyExpansion_of_lt {z : AesWord} (hi : i < k.length / 4) : (aesKeyExpansion k).getD i z =
    #v[k.getD (4 * i) 0, k.getD (4 * i + 1) 0, k.getD (4 * i + 2) 0, k.getD (4 * i + 3) 0] := by
  unfold aesKeyExpansion
  rw [getD_expandWords_of_lt (hi.trans_eq (keyWords_length _ k).symm), getD_keyWords hi]

/-- Each later word by the recurrence (R147). -/
theorem getD_aesKeyExpansion_of_le (hk : 4 ≤ k.length) (hi : k.length / 4 ≤ i) (hn : i < 4 * (aesRoundCount k + 1)) :
    (aesKeyExpansion k).getD i (zeroBytes 4) = xorBytes ((aesKeyExpansion k).getD (i - k.length / 4) (zeroBytes 4))
      (expansionTerm (k.length / 4) i ((aesKeyExpansion k).getD (i - 1) (zeroBytes 4))) := by
  have hlen := keyWords_length (k.length / 4) k
  unfold aesKeyExpansion
  exact getD_expandWords_of_le (by omega) hlen.ge (hlen.trans_le hi) (by omega)

end aesKeyExpansion

/-- Each word of the stored schedule is that of the list, past its end the old one (R204). -/
theorem getElem_storeSchedule (w : List AesWord) (rk : AesSchedule) {i : Nat} (hi : i < 60) :
    (storeSchedule w rk)[i] = w.getD i rk[i] := by
  unfold storeSchedule
  rw [Vector.getElem_ofFn, List.getD_eq_getElem?_getD]
  rfl

/-- The start of an AES command stores the expanded key (R204). -/
theorem getElem_startAesCbc_rk {s : State} {i : Nat} (hi : i < 60) (hn : i < 4 * (aesRoundCount (keyOperand s) + 1))
    (z : AesWord) : (startAesCbc s).rk[i] = (aesKeyExpansion (keyOperand s)).getD i z := by
  have within := hn.trans_eq (aesKeyExpansion_length _).symm
  calc (startAesCbc s).rk[i]
    _ = (aesKeyExpansion (keyOperand s)).getD i s.rk[i] := getElem_storeSchedule _ s.rk hi
    _ = (aesKeyExpansion (keyOperand s))[i] := List.getD_eq_getElem _ _ within
    _ = (aesKeyExpansion (keyOperand s)).getD i z := (List.getD_eq_getElem _ _ within).symm

/-- `Nr` fits its four bits, since a key has at most 32 bytes (R44). -/
theorem startAesCbc_nr_toNat {s : State} : (startAesCbc s).nr.toNat = aesRoundCount (keyOperand s) := by
  have short : (keyOperand s).length ≤ 32 := by simp [keyOperand, keyPrefix]
  rw [startAesCbc_nr, BitVec.toNat_ofNat, Nat.mod_eq_of_lt]
  unfold aesRoundCount
  omega

end Sys2Proof.Machine

namespace Sys2Proof.Safety

open Sys2Proof.Machine

/-- Settles O39: by induction on the words the loop of R147 appends. -/
theorem keyExpansionRecurrence : Obligations.KeyExpansionRecurrence := by
  intro k hk
  have long : 4 ≤ k.length := by omega
  refine ⟨aesKeyExpansion_length k, rfl, fun i => getD_aesKeyExpansion_of_lt, fun i => getD_aesKeyExpansion_of_le long,
    ?stored⟩
  case stored =>
    rintro s rfl
    exact ⟨startAesCbc_nr_toNat, fun i h60 hi => getElem_startAesCbc_rk h60 hi _⟩

end Sys2Proof.Safety
end

section
/-! SUPPORT. `ENC.AES.CBC.PKCS7` step by step (43_cbc_encryptor.md): what each check of R201 answers, the start (R204), the block
step (R206), and the padding of the blocks (R202, R205). -/

namespace Sys2Proof.Machine

variable {s : State}

/-- The `CHECK` step of the command is its checks and its start (R114). -/
theorem exec_aes_of_check (hp : s.phase = .check) : exec .encAesCbcPkcs7 s = .next (checkAndStartAesCbc s) := by
  simp only [exec, execEncAesCbcPkcs7, hp]

/-- The key lengths of R7, on the register `KLEN`. -/
theorem acceptsAesKeyLen_toNat {p : Params} {n : BitVec 8} : acceptsAesKeyLen p n.toNat = true ↔
    (n = 16 ∧ p.aesKey16 = true) ∨ (n = 24 ∧ p.aesKey24 = true) ∨ (n = 32 ∧ p.aesKey32 = true) := by
  simp only [acceptsAesKeyLen, Bool.or_eq_true, Bool.and_eq_true, beq_iff_eq, ← BitVec.toNat_inj]
  rfl

theorem ivlen_toNat_eq_ivLen_iff : s.ivlen.toNat = Config.ivLen ↔ s.ivlen = 16 := BitVec.toNat_inj (y := 16#8)

section checks

variable (hk : acceptsAesKeyLen s.params s.klen.toNat = true) (hi : s.ivlen = 16)
  (hr : keyReject s.params .aes (keyOperand s) = false)

theorem checkAndStartAesCbc_of_bad_keyLen (h : acceptsAesKeyLen s.params s.klen.toNat = false) :
    checkAndStartAesCbc s = raise .invalidParameter s := by
  rw [checkAndStartAesCbc, if_pos h]

include hk

theorem checkAndStartAesCbc_of_bad_ivLen (h : s.ivlen ≠ 16) : checkAndStartAesCbc s = raise .invalidParameter s := by
  rw [checkAndStartAesCbc, if_neg (by simp [hk]), if_pos (mt ivlen_toNat_eq_ivLen_iff.1 h)]

include hi

/-- With both lengths accepted, the key and the length of the plaintext are left to check (R201). -/
theorem checkAndStartAesCbc_of_lengths : checkAndStartAesCbc s =
    if keyReject s.params .aes (keyOperand s) then raise .keyError s
    else if s.params.ibufBytes < s.plen.toNat then raise .capacityError s else startAesCbc s := by
  rw [checkAndStartAesCbc, if_neg (by simp [hk]), if_neg (not_not.2 (ivlen_toNat_eq_ivLen_iff.2 hi))]

theorem checkAndStartAesCbc_of_rejected_key (h : keyReject s.params .aes (keyOperand s) = true) :
    checkAndStartAesCbc s = raise .keyError s := by
  rw [checkAndStartAesCbc_of_lengths hk hi, if_pos h]

include hr

theorem checkAndStartAesCbc_of_long_plaintext (h : s.params.ibufBytes < s.plen.toNat) :
    checkAndStartAesCbc s = raise .capacityError s := by
  rw [checkAndStartAesCbc_of_lengths hk hi, if_neg (by simp [hr]), if_pos h]

theorem checkAndStartAesCbc_of_passed (h : s.plen.toNat ≤ s.params.ibufBytes) : checkAndStartAesCbc s = startAesCbc s := by
  rw [checkAndStartAesCbc_of_lengths hk hi, if_neg (by simp [hr]), if_neg (by omega)]

end checks

/-- An accepted `KLEN` is the length of the key: the accepted lengths are at most the 32 bytes of `KEY`. -/
theorem keyOperand_length (hk : acceptsAesKeyLen s.params s.klen.toNat = true) : (keyOperand s).length = s.klen.toNat := by
  have short : s.klen.toNat ≤ 32 := by
    rcases acceptsAesKeyLen_toNat.1 hk with ⟨h, -⟩ | ⟨h, -⟩ | ⟨h, -⟩ <;> rw [h] <;> decide
  simp [keyOperand, keyPrefix, short]

/-- The `BLOCK` step of the command before its last (R116, R206). -/
theorem exec_aes_of_block (hp : s.phase = .block) (hb : s.blk ≠ s.nblk) (hn : isRoundCount s.nr.toNat = true)
    (hr : cbcInRange s = true) : exec .encAesCbcPkcs7 s = .next (cbcBlockStep s) := by
  simp only [exec, execEncAesCbcPkcs7, hp, blockAesCbc, if_neg hb, hn, hr, Bool.true_eq_false, if_false]

theorem cbcBlockStep_of_primFail
    (h : primFail s.params .aes (keyOperand s) s.blk.toNat (cbcBlockInput s).toList = true) :
    cbcBlockStep s = raise .primitiveFailure s := by
  rw [cbcBlockStep, if_pos h]

theorem cbcBlockStep_of_not_primFail
    (h : primFail s.params .aes (keyOperand s) s.blk.toNat (cbcBlockInput s).toList = false) :
    cbcBlockStep s = cbcStepped s := by
  rw [cbcBlockStep, if_neg (by simp [h]), cbcStepped]

theorem isRoundCount_of_nr (h : s.nr = 10 ∨ s.nr = 12 ∨ s.nr = 14) : isRoundCount s.nr.toNat = true := by
  rcases h with h | h | h <;> rw [h] <;> decide

/-- A plaintext that fits `IBUF` keeps the bytes every block reads inside it (R69). -/
theorem cbcInRange_of_fits (ho : 16 * s.blk.toNat + 16 ≤ s.params.obufBytes) (hf : s.plen.toNat ≤ s.params.ibufBytes) :
    cbcInRange s = true := by
  simp only [cbcInRange, Bool.and_eq_true, decide_eq_true_eq]
  exact ⟨ho, (Nat.min_le_left _ _).trans hf⟩

/-- A written sequence reads back byte by byte. -/
theorem read_writeBytes_toList {m : Memory} (hm : Memory.wf m) (a : Nat) {n j : Nat} (v : Bytes n) (hj : j < n) :
    (m.writeBytes a v.toList).read (a + j) = v[j] := by
  rw [Memory.read_writeBytes_inside hm (by omega) (by simpa using hj)]
  simp

/-- `PadLen` is in 1..16 (R202). -/
theorem padLen_pos (n : Nat) : 1 ≤ padLen n := by unfold padLen; omega

theorem padLen_le (n : Nat) : padLen n ≤ 16 := Nat.sub_le _ _

theorem getElem_cbcInput (s : State) (i : Nat) {j : Nat} (hj : j < 16) : (cbcInput s i)[j] =
    if 16 * i + j < s.plen.toNat then s.ibuf.read (16 * i + j) else BitVec.ofNat 8 (padLen s.plen.toNat) :=
  Vector.getElem_ofFn hj

/-- A block that lies inside the plaintext has no pad byte (R205). -/
theorem cbcInput_of_le_plen {i : Nat} (h : 16 * i + 16 ≤ s.plen.toNat) :
    cbcInput s i = s.ibuf.readBytes (16 * i) 16 :=
  Vector.ext fun j hj => by rw [getElem_cbcInput s i hj, if_pos (by omega), Memory.getElem_readBytes]

end Sys2Proof.Machine

namespace Sys2Proof.Safety

open Sys2Proof.Machine

/-- Settles O25: one case for each check of R201, the ones before it passed. -/
theorem aesChecksInOrder : Obligations.AesChecksInOrder := by
  intro s hp accepted fails rejected
  have keyLen : acceptsAesKeyLen s.params s.klen.toNat = true ↔ accepted := acceptsAesKeyLen_toNat
  have fails_of_raise : ∀ k, checkAndStartAesCbc s = raise k s → fails k := fun k h =>
    (exec_aes_of_check hp).trans (by rw [h, raise_eq_resetWith])
  refine ⟨fun hk => ?bad_keyLen, fun hk hi => ?bad_ivLen, fun hk hi hr => ?rejected_key, fun hk hi hr hl => ?long_plaintext,
    fun hk hi hr hl => ?passed⟩
  case bad_keyLen =>
    exact fails_of_raise _ (checkAndStartAesCbc_of_bad_keyLen (Bool.eq_false_iff.2 (mt keyLen.1 hk)))
  case bad_ivLen => exact fails_of_raise _ (checkAndStartAesCbc_of_bad_ivLen (keyLen.2 hk) hi)
  case rejected_key => exact fails_of_raise _ (checkAndStartAesCbc_of_rejected_key (keyLen.2 hk) hi hr)
  case long_plaintext => exact fails_of_raise _ (checkAndStartAesCbc_of_long_plaintext (keyLen.2 hk) hi hr hl)
  case passed =>
    refine ⟨startAesCbc s, ?_, startAesCbc_phase s⟩
    rw [exec_aes_of_check hp, checkAndStartAesCbc_of_passed (keyLen.2 hk) hi hr hl]

/-- Settles O26: the checks pass, and `KLEN` is the length of the key that is expanded. -/
theorem aesStartBuildsSchedule : Obligations.AesStartBuildsSchedule := by
  intro s hp hk hi hr hl
  have rounds : aesRoundCount (keyOperand s) = s.klen.toNat / 4 + 6 := by rw [aesRoundCount, keyOperand_length hk]
  refine ⟨(startAesCbc s).rk, ?started, ?length, fun i h => getElem_storeSchedule _ s.rk h⟩
  case started =>
    rw [exec_aes_of_check hp, checkAndStartAesCbc_of_passed hk hi hr hl, ← rounds]
    rfl
  case length => rw [aesKeyExpansion_length, rounds]

/-- Settles O27: the step fails where `prim_fail` holds; otherwise it writes the 16 bytes of the block and no other. -/
theorem cbcBlockStepEncryptsOneBlock : Obligations.CbcBlockStepEncryptsOneBlock := by
  intro s hp hb hm hn ho hf x y
  have stepped := exec_aes_of_block hp hb (isRoundCount_of_nr hn) (cbcInRange_of_fits ho hf)
  refine ⟨fun h => ?fails, fun h => ⟨(cbcStepped s).obuf, ?encrypts, ?wf, ?block, ?others⟩⟩
  case fails =>
    rw [stepped, cbcBlockStep_of_primFail h, raise_eq_resetWith]
    rfl
  case encrypts =>
    rw [stepped, cbcBlockStep_of_not_primFail h]
    rfl
  case wf => exact Memory.writeBytes_wf hm _ _
  case block => exact fun j hj => read_writeBytes_toList hm _ y hj
  case others => exact fun a ha => Memory.read_writeBytes_outside _ (by simpa using ha)

/-- Settles O29: the pad fills the last block, and block by block the machine forms the padded plaintext. -/
theorem paddingFormsTheBlocks : Obligations.PaddingFormsTheBlocks := by
  refine ⟨fun p => ⟨padLen_pos _, padLen_le _, rfl, rfl, ?whole_blocks, pad_length p⟩, fun s i hi =>
    ⟨fun j hj => getElem_cbcInput s i hj, cbcInput_eq s hi, cbcInput_of_le_plen⟩⟩
  case whole_blocks => rw [pad_length, Nat.mul_mod_right]

end Sys2Proof.Safety
end

section
/-! SUPPORT. `ENC.DES.ECB.NONE`: its checks in their order (R231), its start (R232), its block step (R233). -/

namespace Sys2Proof.Machine

variable {s : State}

/-- The `CHECK` step of the command is its checks and its start (R114). -/
theorem exec_des_of_check (hp : s.phase = .check) : exec .encDesEcbNone s = .next (checkAndStartDesEcb s) := by
  simp only [exec, execEncDesEcbNone, hp]

theorem klen_toNat_eq_desKeyLen_iff : s.klen.toNat = Config.desKeyLen ↔ s.klen = 8 := BitVec.toNat_inj (y := 8#8)

theorem checkAndStartDesEcb_of_bad_keyLen (h : s.klen ≠ 8) : checkAndStartDesEcb s = raise .invalidParameter s := by
  rw [checkAndStartDesEcb, if_pos (mt klen_toNat_eq_desKeyLen_iff.1 h)]

section checks

variable (hk : s.klen = 8) (hr : keyReject s.params .des (keyPrefix s.key 8) = false) (ha : s.plen.toNat % 8 = 0)

include hk

/-- With the key length accepted, the key of R231 and the length of the plaintext are left to check. -/
theorem checkAndStartDesEcb_of_keyLen : checkAndStartDesEcb s =
    if keyReject s.params .des (keyPrefix s.key 8) then raise .keyError s
    else if s.plen.toNat % 8 ≠ 0 then raise .alignmentError s
    else if s.params.ibufBytes < s.plen.toNat then raise .capacityError s else startDesEcb s := by
  rw [checkAndStartDesEcb, if_neg (not_not.2 (klen_toNat_eq_desKeyLen_iff.2 hk)), desKey_toList]
  rfl

theorem checkAndStartDesEcb_of_rejected_key (h : keyReject s.params .des (keyPrefix s.key 8) = true) :
    checkAndStartDesEcb s = raise .keyError s := by
  rw [checkAndStartDesEcb_of_keyLen hk, if_pos h]

include hr

/-- With the key accepted, the length of the plaintext is left to check (R231). -/
theorem checkAndStartDesEcb_of_accepted_key : checkAndStartDesEcb s =
    if s.plen.toNat % 8 ≠ 0 then raise .alignmentError s
    else if s.params.ibufBytes < s.plen.toNat then raise .capacityError s else startDesEcb s := by
  rw [checkAndStartDesEcb_of_keyLen hk, if_neg (Bool.eq_false_iff.1 hr)]

theorem checkAndStartDesEcb_of_unaligned_plaintext (h : s.plen.toNat % 8 ≠ 0) :
    checkAndStartDesEcb s = raise .alignmentError s := by
  rw [checkAndStartDesEcb_of_accepted_key hk hr, if_pos h]

include ha

theorem checkAndStartDesEcb_of_long_plaintext (h : s.params.ibufBytes < s.plen.toNat) :
    checkAndStartDesEcb s = raise .capacityError s := by
  rw [checkAndStartDesEcb_of_accepted_key hk hr, if_neg (not_not.2 ha), if_pos h]

theorem checkAndStartDesEcb_of_passed (h : s.plen.toNat ≤ s.params.ibufBytes) : checkAndStartDesEcb s = startDesEcb s := by
  rw [checkAndStartDesEcb_of_accepted_key hk hr, if_neg (not_not.2 ha), if_neg h.not_gt]

/-- A `CHECK` step with every check passed is the start of the block loop (R114, R232). -/
theorem exec_des_of_passed (hp : s.phase = .check) (h : s.plen.toNat ≤ s.params.ibufBytes) :
    exec .encDesEcbNone s = .next (startDesEcb s) := by
  rw [exec_des_of_check hp, checkAndStartDesEcb_of_passed hk hr ha h]

end checks

/-- The `BLOCK` step of the command before its last (R116, R233). -/
theorem exec_des_of_block (hp : s.phase = .block) (hb : s.blk ≠ s.nblk) (hr : ecbInRange s = true) :
    exec .encDesEcbNone s = .next (ecbBlockStep s) := by
  simp only [exec, execEncDesEcbNone, hp, blockDesEcb, if_neg hb, hr, Bool.true_eq_false, if_false]

theorem ecbBlockStep_of_primFail
    (h : primFail s.params .des (desKey s.key).toList s.blk.toNat (ecbInput s s.blk.toNat).toList = true) :
    ecbBlockStep s = raise .primitiveFailure s := by
  rw [ecbBlockStep, if_pos h]

theorem ecbBlockStep_of_not_primFail
    (h : primFail s.params .des (desKey s.key).toList s.blk.toNat (ecbInput s s.blk.toNat).toList = false) :
    ecbBlockStep s = ecbStepped s := by
  rw [ecbBlockStep, if_neg (Bool.eq_false_iff.1 h), ecbStepped]

end Sys2Proof.Machine

namespace Sys2Proof.Safety

open Sys2Proof.Machine

/-- Settles O33: one case for each check of R231, the ones before it passed. -/
theorem desChecksInOrder : Obligations.DesChecksInOrder := by
  intro s hp fails rejected
  have fails_of_raise : ∀ k, checkAndStartDesEcb s = raise k s → fails k := fun k h =>
    (exec_des_of_check hp).trans (by rw [h, raise_eq_resetWith])
  refine ⟨fun hk => ?bad_keyLen, fun hk hr => ?rejected_key, fun hk hr ha => ?unaligned_plaintext,
    fun hk hr ha hl => ?long_plaintext, fun hk hr ha hl => ?passed⟩
  case bad_keyLen => exact fails_of_raise _ (checkAndStartDesEcb_of_bad_keyLen hk)
  case rejected_key => exact fails_of_raise _ (checkAndStartDesEcb_of_rejected_key hk hr)
  case unaligned_plaintext => exact fails_of_raise _ (checkAndStartDesEcb_of_unaligned_plaintext hk hr ha)
  case long_plaintext => exact fails_of_raise _ (checkAndStartDesEcb_of_long_plaintext hk hr ha hl)
  case passed => exact ⟨startDesEcb s, exec_des_of_passed hk hr ha hp hl, startDesEcb_phase s⟩

/-- Settles O34: the checks pass, and the key that is scheduled is `KEY[0..8)`. -/
theorem desStartBuildsSchedule : Obligations.DesStartBuildsSchedule :=
  fun s hp hk hr ha hl => ⟨exec_des_of_passed hk hr ha hp hl, desKey_toList s.key⟩

/-- Settles O35: the step fails where `prim_fail` holds; otherwise it writes the 8 bytes of the block and no other. -/
theorem ecbBlockStepEncryptsOneBlock : Obligations.EcbBlockStepEncryptsOneBlock := by
  intro s hp hb hm hl x y
  have stepped := exec_des_of_block hp hb (decide_eq_true hl)
  refine ⟨fun h => ?fails, fun h => ⟨(ecbStepped s).obuf, ?encrypts, ?wf, ?block, ?others⟩⟩
  case fails =>
    rw [stepped, ecbBlockStep_of_primFail h, raise_eq_resetWith]
    rfl
  case encrypts =>
    rw [stepped, ecbBlockStep_of_not_primFail h]
    rfl
  case wf => exact Memory.writeBytes_wf hm _ _
  case block => exact fun j hj => read_writeBytes_toList hm _ y hj
  case others => exact fun a ha => Memory.read_writeBytes_outside _ (by simpa using ha)

end Sys2Proof.Safety
end

section
/-! SUPPORT. The errors of R250: which kinds the word of a command can end with, and what a failure leaves (R259). -/

namespace Sys2Proof.Machine

variable {s t : State} {k k' : ErrorKind} {p : Params} {c : Cipher} {x key : List Byte} {i : Nat}

/-- A code names one kind (R250). -/
theorem ErrorKind.code_injective : Function.Injective ErrorKind.code := by
  intro k k'
  cases k <;> cases k' <;> decide

/-- The kind of a failure can be told from the state it leaves: its code is in `ERR`. -/
theorem raise_injective (h : raise k s = raise k' s) : k = k' := ErrorKind.code_injective (congrArg State.err h)

theorem raise_ne_of_phase (h : t.phase ≠ .idle) : t ≠ raise k s := fun e => h (congrArg State.phase e)

/-- The parameter rejects no key when it has no pattern (R7). -/
theorem keyReject_ne_nil (h : keyReject p c key = true) : p.keyReject ≠ [] := by
  intro hp
  simp [keyReject, hp] at h

/-- The parameter fails no block when it has no pattern (R7). -/
theorem primFail_ne_nil (h : primFail p c key i x = true) : p.primFail ≠ [] := by
  intro hp
  simp [primFail, hp] at h

/-- Only the third check of R201 answers `KeyError`. -/
theorem keyReject_of_checkAndStartAesCbc (h : checkAndStartAesCbc s = raise .keyError s) :
    keyReject s.params .aes (keyOperand s) = true := by
  by_cases hk : acceptsAesKeyLen s.params s.klen.toNat = true
  case neg => cases raise_injective ((checkAndStartAesCbc_of_bad_keyLen (Bool.eq_false_iff.2 hk)).symm.trans h)
  by_cases hi : s.ivlen = 16
  case neg => cases raise_injective ((checkAndStartAesCbc_of_bad_ivLen hk hi).symm.trans h)
  by_contra hr
  rw [checkAndStartAesCbc_of_lengths hk hi, if_neg hr] at h
  split at h
  · cases raise_injective h
  · exact raise_ne_of_phase (by simp) h

/-- Only the second check of R231 answers `KeyError`. -/
theorem keyReject_of_checkAndStartDesEcb (h : checkAndStartDesEcb s = raise .keyError s) :
    keyReject s.params .des (keyPrefix s.key 8) = true := by
  by_cases hk : s.klen = 8
  case neg => cases raise_injective ((checkAndStartDesEcb_of_bad_keyLen hk).symm.trans h)
  by_contra hr
  rw [checkAndStartDesEcb_of_accepted_key hk (Bool.eq_false_iff.2 hr)] at h
  split at h
  · cases raise_injective h
  split at h
  · cases raise_injective h
  · exact raise_ne_of_phase (by simp) h

/-- The kinds a running command can end with, by what its word decodes to (R250); a `CLEAR` never runs. -/
def errorKinds : Except Illegal Instr → List ErrorKind
  | .ok .encAesCbcPkcs7 => [.invalidParameter, .keyError, .primitiveFailure, .capacityError]
  | .ok .encDesEcbNone => [.invalidParameter, .keyError, .alignmentError, .primitiveFailure, .capacityError]
  | .ok .clear => []
  | .error _ => [.illegalCommand]

/-- What holds of a running command that ends with a kind (R250): its word raises the kind, and the two kinds that a parameter
decides come only from a parameter that is not constant false. -/
structure MayRaise (s : State) (k : ErrorKind) : Prop where
  raised : k ∈ errorKinds (decode s.cmdw)
  rejects : k = .keyError → s.params.keyReject ≠ []
  fails : k = .primitiveFailure → s.params.primFail ≠ []

/-- The code that such a failure leaves in `ERR` is that of one of the word's kinds. -/
theorem MayRaise.code_mem (h : MayRaise s k) : k.code ∈ (errorKinds (decode s.cmdw)).map ErrorKind.code :=
  List.mem_map_of_mem h.raised

theorem mayRaise_of_aes_check (hc : decode s.cmdw = .ok .encAesCbcPkcs7) (h : checkAndStartAesCbc s = raise k s)
    (hk : k = .invalidParameter ∨ k = .keyError ∨ k = .capacityError) : MayRaise s k where
  raised := by rw [hc]; rcases hk with rfl | rfl | rfl <;> decide
  rejects := by rintro rfl; exact keyReject_ne_nil (keyReject_of_checkAndStartAesCbc h)
  fails := by rintro rfl; simp at hk

theorem mayRaise_of_des_check (hc : decode s.cmdw = .ok .encDesEcbNone) (h : checkAndStartDesEcb s = raise k s)
    (hk : k = .invalidParameter ∨ k = .keyError ∨ k = .alignmentError ∨ k = .capacityError) : MayRaise s k where
  raised := by rw [hc]; rcases hk with rfl | rfl | rfl | rfl <;> decide
  rejects := by rintro rfl; exact keyReject_ne_nil (keyReject_of_checkAndStartDesEcb h)
  fails := by rintro rfl; simp at hk

/-- A turn that ends a running command without success raised a kind of its word (R250). -/
theorem raises_of_sequencerTurn (h : sequencerTurn s = .next t) (hs : s.phase ≠ .idle) (ht : t.phase = .idle)
    (hd : t.done = false) : ∃ k, t = raise k s ∧ MayRaise s k := by
  cases turn_of_sequencerTurn h with
  | rest hp => exact absurd hp hs
  | illegal e hp he => exact ⟨_, rfl, by simp [he, errorKinds], nofun, nofun⟩
  | aesFails k hp hc hk =>
    have hcheck := (exec_aes_of_check hp).symm.trans ((sequencerTurn_exec hs hc).symm.trans h)
    exact ⟨k, rfl, mayRaise_of_aes_check hc (Host.Outcome.next.inj hcheck) hk⟩
  | desFails k hp hc hk =>
    have hcheck := (exec_des_of_check hp).symm.trans ((sequencerTurn_exec hs hc).symm.trans h)
    exact ⟨k, rfl, mayRaise_of_des_check hc (Host.Outcome.next.inj hcheck) hk⟩
  | aesPrimFails _ hc _ hf | desPrimFails _ hc _ hf =>
    exact ⟨_, rfl, by simp [hc, errorKinds], nofun, fun _ => primFail_ne_nil hf⟩
  | aesStarts | desStarts => cases ht
  | aesFinishes | desFinishes => cases hd
  | aesBlock hp | desBlock hp => exact absurd ht hs

end Sys2Proof.Machine

namespace Sys2Proof.Safety

open Sys2Proof.Machine

/-- Settles O20: such a turn raised a kind, and `STATUS` of an idle state that is not done is the code in `ERR`. -/
theorem failureLeavesOnlyItsCode : Obligations.FailureLeavesOnlyItsCode := by
  intro s t hs hturn ht hd
  obtain ⟨k, rfl, -⟩ := raises_of_sequencerTurn hturn hs ht hd
  refine ⟨k, raise_eq_resetWith k s, ?status, fun _ => rfl⟩
  case status => rw [hostRead_status_of_idle ht, hd, statusWord_of_err, raise_err]

/-- Settles O22: such a turn raised a kind of the word latched, and a code tells its kind. -/
theorem errorCodesByCommand : Obligations.ErrorCodesByCommand := by
  refine ⟨rfl, rfl, rfl, rfl, rfl, rfl, fun s t hs hturn ht hd => ?_⟩
  obtain ⟨k, rfl, hk⟩ := raises_of_sequencerTurn hturn hs ht hd
  refine ⟨fun hc => ?aes, fun hc => ?des, fun ⟨e, hc⟩ => ?illegal, fun h2 => hk.rejects (ErrorKind.code_injective h2),
    fun h4 => hk.fails (ErrorKind.code_injective h4), raise_eq_resetWith k s⟩
  case aes | des | illegal => simpa [hc, errorKinds, ErrorKind.code] using hk.code_mem

end Sys2Proof.Safety
end

section
/-! SUPPORT. The reset input (R280 to R282). -/

namespace Sys2Proof.Machine

/-- The reset input resets the core within its step, in every phase, and leaves the inputs still to come (R280). -/
theorem step_reset (s : State) (rest : List Input) :
    step { s with inputs := .reset :: rest } = .next { resetCore s with inputs := rest } := rfl

theorem hostRead_status_resetCore (s : State) : hostRead (resetCore s) 0x004 = .okayData 0 := by
  rw [hostRead_status_of_idle (resetCore_phase s), resetCore_err, resetCore_done, statusWord_of_err]
  rfl

end Sys2Proof.Machine

namespace Sys2Proof.Safety

open Sys2Proof.Machine

/-- Settles O6: the state is `resetCore s`, which the reset input reaches from every state and `CLEAR` from `IDLE`. -/
theorem resetStateIsAllZero : Obligations.ResetStateIsAllZero := fun s =>
  ⟨resetCore s, step_reset s, rfl, fun hp => ⟨_, exec_clear_of_idle hp, rfl⟩,
    resetCore_phase s, resetCore_done s, resetCore_err s, resetCore_klen s, resetCore_ivlen s, resetCore_plen s,
    resetCore_olen s, fun _ => getElem_zeroBytes, fun _ => getElem_zeroBytes, Memory.read_nil, Memory.read_nil,
    resetCore_cmdw s, resetCore_blk s, resetCore_nblk s, fun _ => getElem_zeroBytes, fun _ _ => getElem_zeroSchedule,
    resetCore_nr s, fun _ => getElem_zeroKeys, hostRead_status_resetCore s⟩

end Sys2Proof.Safety
end

section
/-! SUPPORT. The decoder on bytes (R66, R90): a port word and its four bytes, and the fields of R91 packed into a word. -/

namespace Sys2Proof

open BitVec

variable {w : Word} {b0 b1 b2 b3 : Byte} {bytes rest : List Byte} {f : CmdFields} {i : Instr}

/-- The bytes of a word, packed again, are the word (R66). -/
theorem packWord_wordByte (w : Word) : packWord (wordByte w 0) (wordByte w 1) (wordByte w 2) (wordByte w 3) = w := by
  unfold packWord wordByte
  rw [extractLsb'_append_extractLsb'_eq_extractLsb' (by decide), extractLsb'_append_extractLsb'_eq_extractLsb' (by decide),
    extractLsb'_append_extractLsb'_eq_extractLsb' (by decide)]
  exact extractLsb'_eq_self

/-- The bytes of a packed word are the bytes it was packed from (R66). -/
theorem wordBytes_packWord (b0 b1 b2 b3 : Byte) : wordBytes (packWord b0 b1 b2 b3) = [b0, b1, b2, b3] := by
  simp (disch := decide) only [wordBytes, wordByte, packWord, List.cons.injEq, extractLsb'_append_eq_of_le]
  exact ⟨extractLsb'_append_eq_right, extractLsb'_append_eq_right, extractLsb'_append_eq_right, extractLsb'_eq_self, trivial⟩

/-- Four bytes are packed into a word exactly when they are its bytes (R66). -/
theorem packWord_eq_iff : packWord b0 b1 b2 b3 = w ↔ [b0, b1, b2, b3] = wordBytes w := by
  constructor
  · rintro rfl
    exact (wordBytes_packWord b0 b1 b2 b3).symm
  · intro h
    obtain ⟨rfl, rfl, rfl, rfl⟩ : b0 = wordByte w 0 ∧ b1 = wordByte w 1 ∧ b2 = wordByte w 2 ∧ b3 = wordByte w 3 := by
      simpa [wordBytes] using h
    exact packWord_wordByte w

/-- On four bytes or more the decoder reads the word of the first four and leaves the others (R90). -/
theorem decodeBytes_cons (b0 b1 b2 b3 : Byte) (bytes : List Byte) : decodeBytes (b0 :: b1 :: b2 :: b3 :: bytes) =
    (decode (packWord b0 b1 b2 b3)).map fun i => (i, bytes) := by
  rw [decodeBytes]
  cases decode (packWord b0 b1 b2 b3) <;> rfl

theorem decodeBytes_cons_eq_ok_iff : decodeBytes (b0 :: b1 :: b2 :: b3 :: bytes) = .ok (i, rest) ↔
    decode (packWord b0 b1 b2 b3) = .ok i ∧ bytes = rest := by
  rw [decodeBytes_cons]
  cases decode (packWord b0 b1 b2 b3) <;> simp [Except.map]

theorem decodeBytes_wordBytes (w : Word) : decodeBytes (wordBytes w) = (decode w).map fun i => (i, []) := by
  rw [wordBytes, decodeBytes_cons, packWord_wordByte]

/-- The bytes of a word in the table's numbering decode to what the word decodes to (R90). -/
theorem decode_of_decodeTableWord {nbits n : Nat} (h : decodeTableWord nbits n = some i) :
    decode (tableWord nbits n) = .ok i := by
  rw [decodeTableWord, decodeBytes_wordBytes] at h
  cases hd : decode (tableWord nbits n) with
  | error e => simp [hd, Except.map] at h
  | ok j => simpa [hd, Except.map] using h

/-- The fields read from a packed word are those packed into it (R91). -/
theorem fieldsOf_packFields (f : CmdFields) : fieldsOf (packFields f) = f := by
  obtain ⟨op, cipher, mode, pad, zero⟩ := f
  simp (disch := decide) only [fieldsOf, packFields, CmdFields.mk.injEq, extractLsb'_append_eq_of_le]
  exact ⟨extractLsb'_append_eq_right, extractLsb'_append_eq_right, extractLsb'_append_eq_right, extractLsb'_append_eq_right,
    extractLsb'_eq_self⟩

end Sys2Proof

namespace Sys2Proof.Safety

open Sys2Proof.Machine

/-- Settles O3: the first four bytes decode to `i` exactly when their word is that of `i`, that is, when they are its bytes. -/
theorem decodeBytesIffEncodeBytes : Obligations.DecodeBytesIffEncodeBytes := by
  intro bytes rest i
  match bytes with
  | b0 :: b1 :: b2 :: b3 :: bytes =>
    rw [decodeBytes_cons_eq_ok_iff, decode_eq_ok_iff, packWord_eq_iff, encodeBytes,
      show b0 :: b1 :: b2 :: b3 :: bytes = [b0, b1, b2, b3] ++ bytes from rfl]
    exact ⟨fun ⟨h, h'⟩ => by rw [h, h'], fun h => List.append_inj h rfl⟩
  | [] | [_] | [_, _] | [_, _, _] => simp [decodeBytes, encodeBytes, wordBytes]

/-- Settles O4: the fields that decode are those of an instruction, and so are the well-formed ones. -/
theorem wellFormedFieldsDecode : Obligations.WellFormedFieldsDecode := by
  intro f
  refine ⟨?wf, fun i => decodeFields_eq_ok_iff, fieldsOf_packFields f⟩
  case wf => simp only [CmdFields.wf_iff_eq_instrFields, decodeFields_eq_ok_iff]

/-- Settles O5: each row of the table, read in binary. -/
theorem opcodeTableWordsDecode : Obligations.OpcodeTableWordsDecode := by
  unfold Obligations.OpcodeTableWordsDecode
  decide

end Sys2Proof.Safety
end

section
/-! SUPPORT. What a step runs (R110, R129): the dispatch of an input, the frame and the transfers of a turn, the last step of each
command, and where a command faults. -/

namespace Sys2Proof.Machine

open Sys2Proof.Safety

variable {s t : State} {i : Instr}

/-- `withFetchWord` makes the word's `CMD` write the next step, in `IDLE` (log entry 7). -/
theorem step_withFetchWord (s : State) (nbits n : Nat) : step (s.withFetchWord nbits n) =
    takeInput (.hostWrite 0 (tableWord nbits n)) { s with phase := .idle } := rfl

/-- The last step of the AES command (R207). -/
theorem exec_aes_of_finished (hp : s.phase = .block) (hb : s.blk = s.nblk) :
    exec .encAesCbcPkcs7 s = .next (completeSuccess (BitVec.ofNat 32 (16 * s.nblk.toNat)) s) := by
  simp only [exec, execEncAesCbcPkcs7, hp, blockAesCbc, if_pos hb, Nat.mul_comm]

/-- The last step of the DES command (R234). -/
theorem exec_des_of_finished (hp : s.phase = .block) (hb : s.blk = s.nblk) :
    exec .encDesEcbNone s = .next (completeSuccess (BitVec.ofNat 32 (8 * s.nblk.toNat)) s) := by
  simp only [exec, execEncDesEcbNone, hp, blockDesEcb, if_pos hb, Nat.mul_comm]

/-- A success leaves the reset state but for the result (R124). -/
theorem completeSuccess_eq_resetWith (n : Word) (s : State) : completeSuccess n s = { State.resetWith s.params with
    done := true, olen := n, obuf := s.obuf, inputs := s.inputs, response := s.response } := rfl

/-- Every input keeps the parameters (log entry 1). -/
theorem taken_params {x : Input} (h : Taken s x t) : t.params = s.params := by
  cases h with
  | answered | reset | issued | cleared => rfl
  | turn t ht => exact (turn_env (turn_of_sequencerTurn ht)).2.2
  | stored a v l => cases l <;> rfl

theorem step_params (h : step s = .next t) : t.params = s.params := by
  rcases step_cases h with ⟨-, hturn⟩ | ⟨x, rest, -, htaken⟩
  · exact (turn_env hturn).2.2
  · exact taken_params (s := { s with inputs := rest }) htaken

/-- What a turn that does not end its command leaves as it was: the operands, the word latched and the result (R69, R72). -/
structure OperandsKept (s t : State) : Prop where
  key : t.key = s.key
  klen : t.klen = s.klen
  iv : t.iv = s.iv
  ivlen : t.ivlen = s.ivlen
  ibuf : t.ibuf = s.ibuf
  plen : t.plen = s.plen
  cmdw : t.cmdw = s.cmdw
  done : t.done = s.done
  err : t.err = s.err
  olen : t.olen = s.olen

theorem Turn.operandsKept (h : Turn s t) (ht : t.phase ≠ .idle) : OperandsKept s t := by
  cases h with
  | illegal | aesFails | desFails | aesFinishes | desFinishes | aesPrimFails | desPrimFails => exact absurd rfl ht
  | rest | aesStarts | desStarts | aesBlock | desBlock => exact ⟨rfl, rfl, rfl, rfl, rfl, rfl, rfl, rfl, rfl, rfl⟩

/-- Without a command a turn leaves the core in `IDLE` (R40). -/
theorem Turn.of_idle (h : Turn s t) (hp : s.phase = .idle) : t.phase = .idle := by
  cases h with
  | rest => exact hp
  | illegal | aesFails | desFails | aesFinishes | desFinishes | aesPrimFails | desPrimFails => rfl
  | aesStarts hq | desStarts hq | aesBlock hq | desBlock hq => exact absurd (hp.symm.trans hq) (by decide)

/-- A turn in `CHECK` starts the block loop or ends the command (R129). -/
theorem Turn.of_check (h : Turn s t) (hp : s.phase = .check) : (t.phase = .block ∧ t.blk = 0) ∨ t.phase = .idle := by
  cases h with
  | illegal | aesFails | desFails => exact .inr rfl
  | aesStarts | desStarts => exact .inl ⟨rfl, rfl⟩
  | rest hq | aesFinishes hq | desFinishes hq | aesPrimFails hq | desPrimFails hq | aesBlock hq | desBlock hq =>
    exact absurd (hp.symm.trans hq) (by decide)

/-- A turn in `BLOCK` does one block, or ends the command: with success when every block is done, else with a failure (R129). -/
theorem Turn.of_block (h : Turn s t) (hp : s.phase = .block) :
    (t.phase = .block ∧ s.blk ≠ s.nblk ∧ t.blk = s.blk + 1 ∧ t.nblk = s.nblk) ∨
      (t.phase = .idle ∧ (s.blk = s.nblk ↔ t.done = true)) := by
  cases h with
  | aesFinishes _ _ hb | desFinishes _ _ hb => exact .inr ⟨rfl, iff_of_true hb rfl⟩
  | aesPrimFails _ _ hb | desPrimFails _ _ hb => exact .inr ⟨rfl, iff_of_false hb Bool.false_ne_true⟩
  | aesBlock _ _ hb | desBlock _ _ hb => exact .inl ⟨hp, hb, rfl, rfl⟩
  | rest hq | illegal _ hq | aesFails _ hq | desFails _ hq | aesStarts hq | desStarts hq =>
    exact absurd (hp.symm.trans hq) (by decide)

/-- A running command takes its turn or stays as it is, unless the core is reset. -/
theorem turn_or_bare_eq_of_step (h : step s = .next t) (hr : ∀ rest, s.inputs ≠ .reset :: rest) (hp : s.phase ≠ .idle) :
    (bare t = bare s ∧ t.phase = s.phase) ∨ ∃ rest, Turn { s with inputs := rest } t := by
  rcases step_cases h with ⟨hi, hturn⟩ | ⟨x, rest, hi, htaken⟩
  · exact .inr ⟨s.inputs, hturn⟩
  · cases htaken with
    | answered => exact .inl ⟨rfl, rfl⟩
    | turn t ht => exact .inr ⟨rest, turn_of_sequencerTurn ht⟩
    | reset => exact absurd hi (hr rest)
    | issued _ hq | cleared _ hq | stored _ _ _ hq => exact absurd hq hp

theorem isRoundCount_iff : isRoundCount s.nr.toNat = true ↔ s.nr = 10 ∨ s.nr = 12 ∨ s.nr = 14 := by
  simp only [isRoundCount, Bool.or_eq_true, beq_iff_eq, ← BitVec.toNat_inj]
  rfl

theorem isRoundCount_eq_false : isRoundCount s.nr.toNat = false ↔ s.nr ≠ 10 ∧ s.nr ≠ 12 ∧ s.nr ≠ 14 := by
  rw [← Bool.not_eq_true, isRoundCount_iff]
  simp only [not_or, ne_eq]

theorem cbcInRange_eq_false : cbcInRange s = false ↔
    s.params.obufBytes < 16 * s.blk.toNat + 16 ∨ s.params.ibufBytes < min s.plen.toNat (16 * s.blk.toNat + 16) := by
  simp only [cbcInRange, Bool.and_eq_false_iff, decide_eq_false_iff_not, not_le]

theorem ecbInRange_eq_false : ecbInRange s = false ↔ s.params.ibufBytes < 8 * s.blk.toNat + 8 := by
  simp only [ecbInRange, decide_eq_false_iff_not, not_le]

theorem exec_aes_ne_fault (hp : s.phase ≠ .block) (f : Fault) : exec .encAesCbcPkcs7 s ≠ .fault f := by
  cases hq : s.phase with
  | idle => rw [exec_of_idle hq (by decide)]; exact nofun
  | check => rw [exec_aes_of_check hq]; exact nofun
  | block => exact absurd hq hp

theorem exec_des_ne_fault (hp : s.phase ≠ .block) (f : Fault) : exec .encDesEcbNone s ≠ .fault f := by
  cases hq : s.phase with
  | idle => rw [exec_of_idle hq (by decide)]; exact nofun
  | check => rw [exec_des_of_check hq]; exact nofun
  | block => exact absurd hq hp

/-- Where an AES block step faults (log entry 6): without a round count first, then out of range. -/
theorem exec_aes_eq_fault_iff {f : Fault} : exec .encAesCbcPkcs7 s = .fault f ↔ s.phase = .block ∧ s.blk ≠ s.nblk ∧
    ((f = .noSequencerRule ∧ isRoundCount s.nr.toNat = false) ∨
      (f = .bufferIndexOutOfRange ∧ isRoundCount s.nr.toNat = true ∧ cbcInRange s = false)) := by
  by_cases hp : s.phase = .block
  case neg => exact iff_of_false (exec_aes_ne_fault hp f) fun h => hp h.1
  by_cases hb : s.blk = s.nblk
  case pos => exact iff_of_false (by rw [exec_aes_of_finished hp hb]; exact nofun) fun h => h.2.1 hb
  have block : exec .encAesCbcPkcs7 s = if isRoundCount s.nr.toNat = false then .fault .noSequencerRule
      else if cbcInRange s = false then .fault .bufferIndexOutOfRange else .next (cbcBlockStep s) := by
    simp only [exec, execEncAesCbcPkcs7, hp, blockAesCbc, if_neg hb]
  rw [block]
  cases isRoundCount s.nr.toNat <;> cases cbcInRange s <;> simp [hp, hb, eq_comm]

theorem exec_des_eq_fault_iff {f : Fault} : exec .encDesEcbNone s = .fault f ↔ s.phase = .block ∧ s.blk ≠ s.nblk ∧
    f = .bufferIndexOutOfRange ∧ ecbInRange s = false := by
  by_cases hp : s.phase = .block
  case neg => exact iff_of_false (exec_des_ne_fault hp f) fun h => hp h.1
  by_cases hb : s.blk = s.nblk
  case pos => exact iff_of_false (by rw [exec_des_of_finished hp hb]; exact nofun) fun h => h.2.1 hb
  have block : exec .encDesEcbNone s = if ecbInRange s = false then .fault .bufferIndexOutOfRange
      else .next (ecbBlockStep s) := by
    simp only [exec, execEncDesEcbNone, hp, blockDesEcb, if_neg hb]
  rw [block]
  cases ecbInRange s <;> simp [hp, hb, eq_comm]

theorem exec_clear_eq_fault_iff : exec .clear s = .fault .noSequencerRule ↔ s.phase ≠ .idle := by
  simp only [exec, execClear]
  cases s.phase <;> simp

end Sys2Proof.Machine

namespace Sys2Proof.Safety

open Sys2Proof.Machine

/-- Settles O7: a `CMD` write in `IDLE` and a turn while a command runs dispatch on the word. -/
theorem stepRunsDecodedCommand : Obligations.StepRunsDecodedCommand := by
  refine ⟨fun s w i rest hp hd => ?written, fun s i rest hp hd => ?turn, fun s i hp hd hi => ?alone⟩
  case written => exact (step_of_input rfl).trans (takeInput_cmd_of_ok (s := { s with inputs := rest }) hp hd)
  case turn => exact (step_of_input (x := .sequencer) rfl).trans (sequencerTurn_exec (s := { s with inputs := rest }) hp hd)
  case alone => exact (step_of_no_inputs hi).trans (sequencerTurn_exec hp hd)

/-- Settles O8: the step is the `CMD` write of the word, in `IDLE`. -/
theorem fetchWordRunsNext : Obligations.FetchWordRunsNext := by
  intro s nbits n i h
  rw [step_withFetchWord, takeInput_cmd_of_ok rfl (decode_of_decodeTableWord h)]
  rfl

/-- Settles O28: the last step completes the command, and `Wipe()` leaves the rest as after reset. -/
theorem aesFinishReportsLength : Obligations.AesFinishReportsLength := by
  intro s hp hb
  rw [exec_aes_of_finished hp hb, completeSuccess_eq_resetWith]

/-- Settles O36: as for AES; and `PLEN` is a whole number of blocks, the one that `nblk` counts. -/
theorem desFinishReportsLength : Obligations.DesFinishReportsLength := by
  intro s hp hb
  refine ⟨by rw [exec_des_of_finished hp hb, completeSuccess_eq_resetWith], fun hs hd => ?length⟩
  case length =>
    rcases (hs.block hp).command with haes | hdes
    · cases hd.symm.trans haes.word
    · rw [hdes.blocks, Nat.mul_div_cancel' (Nat.dvd_of_mod_eq_zero hdes.multiple), BitVec.ofNat_toNat, BitVec.setWidth_eq]

/-- Settles O23: by the cases of a step; outside `IDLE` only a turn changes the hardware. -/
theorem phaseTransfersAreComplete : Obligations.PhaseTransfersAreComplete := by
  intro s t h hr
  refine ⟨fun hp => ?idle, fun hp => ?check, fun hp => ?block⟩
  case idle =>
    rcases step_cases h with ⟨-, hturn⟩ | ⟨x, rest, hi, htaken⟩
    · exact .inl (hturn.of_idle hp)
    · cases htaken with
      | answered | cleared => exact .inl hp
      | turn t ht => exact .inl ((turn_of_sequencerTurn ht).of_idle hp)
      | reset => exact absurd hi (hr rest)
      | issued w _ hd => exact .inr ⟨rfl, rfl, rfl, w, rest, hi, hd, rfl⟩
      | stored a v l => exact .inl (by cases l <;> exact hp)
  case check =>
    rcases turn_or_bare_eq_of_step h hr (by simp [hp]) with ⟨hb, hq⟩ | ⟨rest, hturn⟩
    · exact .inl ⟨hb, hq.trans hp⟩
    · exact .inr (hturn.of_check hp)
  case block =>
    rcases turn_or_bare_eq_of_step h hr (by simp [hp]) with ⟨hb, hq⟩ | ⟨rest, hturn⟩
    · exact .inl ⟨hb, hq.trans hp⟩
    · exact .inr (hturn.of_block hp)

/-- Settles O24: no step writes the parameters, and a turn that goes on writes registers of the sequencer and `OBUF` only. -/
theorem sequencerKeepsOperands : Obligations.SequencerKeepsOperands := by
  refine ⟨fun s t h => step_params h, fun s t h ht => ?_⟩
  have hturn := turn_of_sequencerTurn h
  obtain ⟨hkey, hklen, hiv, hivlen, hibuf, hplen, hcmdw, hdone, herr, holen⟩ := hturn.operandsKept ht
  obtain ⟨hinputs, hresponse, -⟩ := turn_env hturn
  exact ⟨hkey, hklen, hiv, hivlen, hibuf, hplen, hcmdw, hdone, herr, holen, hinputs, hresponse⟩

/-- Settles O49: the conditions of each command's faults, in numbers. -/
theorem faultsOnlyWithoutRule : Obligations.FaultsOnlyWithoutRule := by
  refine fun s => ⟨exec_clear_eq_fault_iff, fun f => ?aes, fun f => ?des⟩
  case aes => rw [exec_aes_eq_fault_iff, isRoundCount_eq_false, isRoundCount_iff, cbcInRange_eq_false]
  case des => rw [exec_des_eq_fault_iff, ecbInRange_eq_false]

end Sys2Proof.Safety
end

section
/-! SUPPORT. The invariant of the reachable states along a run (10_state.md section 5): it holds at reset, every step keeps it, no
step stops from it, and a running command has at most so many turns left. -/

namespace Sys2Proof.Safety

open Sys2Proof.Machine Sys2Proof.Laws

variable {s t : State}

theorem safeState_resetWith {p : Params} (hp : p.wf = true) : SafeState (State.resetWith p) :=
  safeState_of_idleInv (shape_of_empty hp rfl rfl) rfl (idleInv_resetCore (State.resetWith p))

/-- A step takes one input, or with none left the sequencer its turn; both keep the invariant. -/
theorem safeState_of_step (h : SafeState s) (hs : step s = .next t) : SafeState t := by
  rcases step_cases hs with ⟨-, hturn⟩ | ⟨x, rest, -, htaken⟩
  · exact safeState_of_turn h hturn
  · exact safeState_of_taken (safeState_of_bare_eq (t := { s with inputs := rest }) h rfl) htaken

/-- The command in `BLOCK` has a next step: the last, or one whose accesses are in range (R69). -/
theorem exists_exec_of_block (h : SafeState s) (hp : s.phase = .block) :
    ∃ i t, decode s.cmdw = .ok i ∧ exec i s = .next t := by
  obtain ⟨-, hle, hcommand⟩ := h.block hp
  rcases hcommand with haes | hdes
  · by_cases hb : s.blk = s.nblk
    · exact ⟨_, _, haes.word, exec_aes_of_finished hp hb⟩
    · exact ⟨_, _, haes.word,
        exec_aes_of_block hp hb (isRoundCount_of_aesBlock haes) (cbcInRange_of_aesBlock h.shape hle hb haes)⟩
  · by_cases hb : s.blk = s.nblk
    · exact ⟨_, _, hdes.word, exec_des_of_finished hp hb⟩
    · exact ⟨_, _, hdes.word, exec_des_of_block hp hb (ecbInRange_of_desBlock h.shape hle hb hdes)⟩

theorem exists_sequencerTurn (h : SafeState s) : ∃ t, sequencerTurn s = .next t := by
  cases hp : s.phase with
  | idle => exact ⟨s, sequencerTurn_idle hp⟩
  | check =>
    have busy : s.phase ≠ .idle := by simp [hp]
    cases hd : decode s.cmdw with
    | error e => exact ⟨_, sequencerTurn_illegal hp hd⟩
    | ok i =>
      rw [sequencerTurn_exec busy hd]
      cases i with
      | encAesCbcPkcs7 => exact ⟨_, exec_aes_of_check hp⟩
      | encDesEcbNone => exact ⟨_, exec_des_of_check hp⟩
      | clear => exact absurd hd (h.check hp).notClear
  | block =>
    obtain ⟨i, t, hd, ht⟩ := exists_exec_of_block h hp
    exact ⟨t, (sequencerTurn_exec (by simp [hp]) hd).trans ht⟩

/-- Every access is answered, in every phase (R61). -/
theorem exists_hostWrite (s : State) (a : Addr) (v : Word) : ∃ t, hostWrite a v s = .next t := by
  cases ha : access s.params a with
  | none => exact ⟨_, hostWrite_of_none ha⟩
  | some l =>
    by_cases hp : s.phase = .idle
    case neg => exact ⟨_, hostWrite_of_busy ha hp⟩
    by_cases hl : l = .cmd
    case neg => exact ⟨_, hostWrite_of_idle ha hp hl⟩
    subst hl
    obtain rfl := access_cmd ha
    by_cases hd : decode v = .ok .clear
    · exact ⟨_, (takeInput_cmd_of_ok hp hd).trans (exec_clear_of_idle hp)⟩
    · exact ⟨_, takeInput_cmd hp hd⟩

theorem exists_takeInput (h : SafeState s) (x : Input) : ∃ t, takeInput x s = .next t := by
  cases x with
  | hostRead | hostOtherWidth | reset => exact ⟨_, rfl⟩
  | hostWrite a v => exact exists_hostWrite s a v
  | sequencer => exact exists_sequencerTurn h

theorem exists_step (h : SafeState s) : ∃ t, step s = .next t := by
  cases hi : s.inputs with
  | nil =>
    rw [step_of_no_inputs hi]
    exact exists_sequencerTurn h
  | cons x rest =>
    rw [step_of_input hi]
    exact exists_takeInput (safeState_of_bare_eq (t := { s with inputs := rest }) h rfl) x

/-- A bound on the turns that a running command has left: one for each block, one for the checks and one for the end. -/
def turnsLeft (s : State) : Nat :=
  match s.phase with
  | .idle => 0
  | .check => s.params.ibufBytes / 8 + 2
  | .block => s.nblk.toNat - s.blk.toNat + 1

theorem turnsLeft_of_check (hp : s.phase = .check) : turnsLeft s = s.params.ibufBytes / 8 + 2 := by
  rw [turnsLeft, hp]

theorem turnsLeft_of_block (hp : s.phase = .block) : turnsLeft s = s.nblk.toNat - s.blk.toNat + 1 := by
  rw [turnsLeft, hp]

/-- The blocks of a command are no more than the blocks of 8 bytes that `IBUF` holds. -/
theorem nblk_le (h : SafeState s) (hp : s.phase = .block) : s.nblk.toNat ≤ s.params.ibufBytes / 8 := by
  obtain ⟨hmod, hmin, -⟩ := ibufBytes_of_wf h.shape.params
  rcases (h.block hp).command with haes | hdes
  · have := haes.blocks
    have := haes.fits
    omega
  · have := hdes.blocks
    have := hdes.fits
    omega

theorem turnsLeft_le (h : SafeState s) : turnsLeft s ≤ s.params.ibufBytes / 8 + 2 := by
  cases hp : s.phase with
  | idle => simp [turnsLeft, hp]
  | check => rw [turnsLeft_of_check hp]
  | block =>
    have := nblk_le h hp
    rw [turnsLeft_of_block hp]
    omega

theorem turnsLeft_lt_of_turn (h : SafeState s) (hs : s.phase ≠ .idle) (hturn : Turn s t) : turnsLeft t < turnsLeft s := by
  have ht := safeState_of_turn h hturn
  have hparams := (turn_env hturn).2.2
  cases hp : s.phase with
  | idle => exact absurd hp hs
  | check =>
    rw [turnsLeft_of_check hp]
    rcases hturn.of_check hp with ⟨hq, hblk⟩ | hq
    · have := nblk_le ht hq
      rw [hparams] at this
      rw [turnsLeft_of_block hq]
      omega
    · simp [turnsLeft, hq]
  | block =>
    rw [turnsLeft_of_block hp]
    rcases hturn.of_block hp with ⟨hq, hne, hblk, hnblk⟩ | ⟨hq, -⟩
    · have hle := (ht.block hq).blkLe
      rw [turnsLeft_of_block hq]
      rw [hblk, hnblk] at hle ⊢
      have := s.nblk.isLt
      have := (h.block hp).blkLe
      bv_omega
    · simp [turnsLeft, hq]

/-- With no input left, the turns that are left at most lead a running command to `IDLE`. -/
theorem exists_runs_idle {s : State} (h : SafeState s) (hi : s.inputs = []) :
    ∃ n t, n ≤ turnsLeft s ∧ runs n s = .next t ∧ busy t = false := by
  by_cases hp : s.phase = .idle
  case pos => exact ⟨0, s, Nat.zero_le _, runs_zero s, busy_eq_false.2 hp⟩
  obtain ⟨t, ht⟩ := exists_sequencerTurn h
  have hturn := turn_of_sequencerTurn ht
  have hlt := turnsLeft_lt_of_turn h hp hturn
  obtain ⟨n, u, hn, hu, hb⟩ := exists_runs_idle (safeState_of_turn h hturn) ((turn_env hturn).1.trans hi)
  refine ⟨n + 1, u, by omega, ?_, hb⟩
  rw [runs_succ_of_step ((step_of_no_inputs hi).trans ht), hu]
termination_by turnsLeft s

theorem readWord_of_zero {m : Memory} (h : ∀ a, m.read a = 0) (o : Nat) : m.readWord o = 0 := by
  simp only [Memory.readWord, h]
  decide

/-- Where no result is to be read, every read of `OLEN` and of the `OBUF` window returns 0 (R126). -/
theorem hostRead_of_no_result {a : Addr} {l : Location} (h : SafeState s) (hn : busy s = true ∨ s.done = false)
    (ha : access s.params a = some l) (hl : l = .olen ∨ ∃ o, l = .obuf o) : hostRead s a = .okayData 0 := by
  by_cases hp : s.phase = .idle
  case neg => rcases hl with rfl | ⟨o, rfl⟩ <;> exact hostRead_of_busy ha hp
  obtain ⟨holen, hobuf⟩ := (h.idle hp).notDone (by simpa [busy_eq_false.2 hp] using hn)
  rw [hostRead_of_idle ha hp]
  rcases hl with rfl | ⟨o, rfl⟩
  · rw [idleReadValue, holen]
  · rw [idleReadValue, readWord_of_zero fun a => by rw [hobuf, Memory.read_nil]]

/-- Settles O46: every element is zero, the phase is `IDLE`. -/
theorem resetMeetsInvariant : Obligations.ResetMeetsInvariant :=
  ⟨safeState_resetWith (by decide), fun _ hp => safeState_resetWith hp⟩

/-- Settles O47: by the cases of a step. -/
theorem everyStepKeepsInvariant : Obligations.EveryStepKeepsInvariant :=
  fun _ _ h hs => safeState_of_step h hs

/-- Settles O48: the port answers every access, and the command that runs has a next step. -/
theorem reachableStatesNeverStop : Obligations.ReachableStatesNeverStop :=
  fun _ h => exists_step h

/-- Settles O51: while a command runs the port answers 0, and without success `OLEN` and `OBUF` are 0. -/
theorem noPartialOutputIsReadable : Obligations.NoPartialOutputIsReadable := by
  refine fun s h hn => ⟨hostRead_of_no_result h hn (l := .olen) rfl (.inl rfl), fun o h4 ho => ?window⟩
  case window =>
    refine hostRead_of_no_result h hn (access_address (l := .obuf o) h.shape.params ho ?_) (.inr ⟨o, rfl⟩)
    simp only [Location.address]
    omega

/-- Settles O54: every turn takes one from the bound on the turns left. -/
theorem everyCommandTerminates : Obligations.EveryCommandTerminates := by
  intro s h _ hi
  obtain ⟨n, t, hn, hrun, ht⟩ := exists_runs_idle h hi
  exact ⟨n, t, hn.trans (turnsLeft_le h), hrun, ht⟩

end Sys2Proof.Safety
end

section
/-! SUPPORT. The host port in `IDLE` (R63 to R68): the map by addresses, what a write stores and leaves alone, that a second equal
write changes nothing, and that what a read answers tells no more than `LooksAlike` compares. -/

namespace Sys2Proof.Machine

open Sys2Proof.Safety

variable {s t : State} {p : Params} {a : Addr} {v : Word} {l : Location}

/-- A control register answers at all four bytes of its word (R65). -/
theorem locate_register {n : Nat} (hn : n < 6) (h : a.toNat / 4 = n) : locate p a = registerAt n := by
  rw [locate, locateOffset, if_pos (by omega), h]

theorem locate_of_address (hw : p.wf = true) (hf : l.Fits p) (h : a.toNat = l.address) : locate p a = some l := by
  rw [locate, h, locateOffset_address hw hf]

/-- In `IDLE` a write that reaches a location other than `CMD` stores there (R64). -/
theorem step_hostWrite_of_idle (ha : access s.params a = some l) (hp : s.phase = .idle) (hl : l ≠ .cmd) (v : Word)
    (rest : List Input) : step { s with inputs := .hostWrite a v :: rest } =
      .next (writeLocation { s with inputs := rest, response := some .okay } v l) :=
  hostWrite_of_idle (s := { s with inputs := rest }) ha hp hl

theorem getElem_storeWord {n i : Nat} (b : Bytes n) (o : Nat) (v : Word) (hi : i < n) : (storeWord b o v)[i] =
    if o ≤ i ∧ i < o + 4 then wordByte v (i - o) else b[i] := by
  unfold storeWord
  exact Vector.getElem_ofFn hi

theorem storeWord_storeWord {n : Nat} (b : Bytes n) (o : Nat) (v : Word) :
    storeWord (storeWord b o v) o v = storeWord b o v := by
  refine Vector.ext fun i hi => ?_
  rw [getElem_storeWord, getElem_storeWord]
  split_ifs <;> rfl

@[simp] theorem length_wordBytes (v : Word) : (wordBytes v).length = 4 := rfl

theorem getElem_wordBytes {k : Nat} (v : Word) (hk : k < (wordBytes v).length) : (wordBytes v)[k] = wordByte v k := by
  match k, hk with
  | 0, _ | 1, _ | 2, _ | 3, _ => rfl

theorem read_writeBytes_wordBytes {m : Memory} (hm : Memory.wf m) (o : Nat) (v : Word) (b : Nat) :
    (m.writeBytes o (wordBytes v)).read b = if o ≤ b ∧ b < o + 4 then wordByte v (b - o) else m.read b := by
  split_ifs with h
  · rw [Memory.read_writeBytes_inside hm h.1 (by simpa using h.2), getElem_wordBytes]
  · exact Memory.read_writeBytes_outside m (by rw [length_wordBytes]; omega)

theorem writeBytes_wordBytes_twice {m : Memory} (hm : Memory.wf m) (o : Nat) (v : Word) :
    (m.writeBytes o (wordBytes v)).writeBytes o (wordBytes v) = m.writeBytes o (wordBytes v) := by
  have hm' := Memory.writeBytes_wf hm o (wordBytes v)
  refine Memory.eq_of_read_eq (Memory.writeBytes_wf hm' o _) hm' fun b => ?_
  rw [read_writeBytes_wordBytes hm', read_writeBytes_wordBytes hm]
  split_ifs <;> rfl

/-- The second of two equal writes stores what is there (R68). -/
theorem writeLocation_twice (hm : Memory.wf s.ibuf) (v : Word) (l : Location) :
    writeLocation (writeLocation s v l) v l = writeLocation s v l := by
  cases l with
  | cmd | status | klen | ivlen | plen | olen | obuf => rfl
  | key o | iv o => simp only [writeLocation, storeWord_storeWord]
  | ibuf o => simp only [writeLocation, writeBytes_wordBytes_twice hm]

@[simp] theorem writeLocation_phase (s : State) (v : Word) (l : Location) : (writeLocation s v l).phase = s.phase := by
  cases l <;> rfl

@[simp] theorem writeLocation_params (s : State) (v : Word) (l : Location) : (writeLocation s v l).params = s.params := by
  cases l <;> rfl

/-- What a read answers is told by what `LooksAlike` compares (R63, R75). -/
theorem hostRead_congr (h : LooksAlike s t) (a : Addr) : hostRead s a = hostRead t a := by
  cases ha : access s.params a with
  | none => rw [hostRead_of_none ha, hostRead_of_none (h.params ▸ ha)]
  | some l =>
    have ha' : access t.params a = some l := h.params ▸ ha
    cases hb : busy s with
    | true =>
      rw [hostRead_of_busy ha (busy_eq_true.1 hb), hostRead_of_busy ha' (busy_eq_true.1 (h.busyBoth ▸ hb))]
      cases l <;> simp only [busyReadValue, h.klen, h.ivlen, h.plen]
    | false =>
      obtain ⟨hdone, herr, holen, hobuf⟩ := h.idle hb
      rw [hostRead_of_idle ha (busy_eq_false.1 hb), hostRead_of_idle ha' (busy_eq_false.1 (h.busyBoth ▸ hb))]
      cases l <;>
        simp only [idleReadValue, idleStatus, Memory.readWord, h.klen, h.ivlen, h.plen, hdone, herr, holen, hobuf]

end Sys2Proof.Machine

namespace Sys2Proof.Safety

open Sys2Proof.Machine

/-- Settles O9: an address names the location that stands there; of a register, each of its four bytes does. -/
theorem addressMapNamesElements : Obligations.AddressMapNamesElements := by
  intro p a hw
  refine ⟨locate_isSome, fun _ => locate_register (n := 0) (by decide) (by omega),
    fun _ _ => locate_register (n := 1) (by decide) (by omega), fun _ _ => locate_register (n := 2) (by decide) (by omega),
    fun _ _ => locate_register (n := 3) (by decide) (by omega), fun _ _ => locate_register (n := 4) (by decide) (by omega),
    fun _ _ => locate_register (n := 5) (by decide) (by omega), fun o ho h => ?key, fun o ho h => ?iv, fun o ho h => ?ibuf,
    fun o ho h => ?obuf⟩
  case key => exact locate_of_address (l := .key o) hw ho h
  case iv => exact locate_of_address (l := .iv o) hw ho h
  case ibuf => exact locate_of_address (l := .ibuf o) hw ho h
  case obuf => exact locate_of_address (l := .obuf o) hw ho h

/-- Settles O12: each write stores at its location, and `writeLocation` sets one element at most. -/
theorem hostWriteStoresInIdle : Obligations.HostWriteStoresInIdle := by
  intro s v rest hw hp ok write
  have stored : ∀ l : Location, l.Fits s.params → l.address % 4 = 0 → l ≠ .cmd →
      write (BitVec.ofNat 24 l.address) = .next (writeLocation ok v l) :=
    fun l hf h4 hl => step_hostWrite_of_idle (access_address hw hf h4) hp hl v rest
  have low : v.setWidth 8 = v.extractLsb' 0 8 := BitVec.setWidth_eq_extractLsb' (by decide)
  refine ⟨stored .status trivial rfl nofun, stored .olen trivial rfl nofun, fun o h4 ho => stored (.obuf o) ho ?_ nofun,
    low ▸ stored .klen trivial rfl nofun, low ▸ stored .ivlen trivial rfl nofun, stored .plen trivial rfl nofun,
    fun o h4 ho => ⟨storeWord s.key o v, stored (.key o) ho ?_ nofun, fun i hi => getElem_storeWord s.key o v hi⟩,
    fun o h4 ho => ⟨storeWord s.iv o v, stored (.iv o) ho ?_ nofun, fun i hi => getElem_storeWord s.iv o v hi⟩,
    fun hm o h4 ho => ⟨s.ibuf.writeBytes o (wordBytes v), stored (.ibuf o) ho ?_ nofun, Memory.writeBytes_wf hm o _,
      fun b => read_writeBytes_wordBytes hm o v b⟩⟩
  all_goals
    simp only [Location.address]
    omega

/-- Settles O13: a write leaves its answer, and what it stores it stores again. -/
theorem operandWritesAreIdempotent : Obligations.OperandWritesAreIdempotent := by
  intro s a v rest hm ha0
  cases ha : access s.params a with
  | none =>
    exact ⟨respond .error { s with inputs := rest }, hostWrite_of_none (s := { s with inputs := rest }) ha, rfl,
      hostWrite_of_none (s := respond .error { s with inputs := rest }) ha⟩
  | some l =>
    by_cases hp : s.phase = .idle
    case neg =>
      exact ⟨respond .okay { s with inputs := rest }, hostWrite_of_busy (s := { s with inputs := rest }) ha hp, rfl,
        hostWrite_of_busy (s := respond .okay { s with inputs := rest }) ha hp⟩
    have hl : l ≠ .cmd := by
      rintro rfl
      exact ha0 (access_cmd ha)
    let stored := writeLocation { s with inputs := rest, response := some .okay } v l
    have answered : { stored with inputs := rest, response := some .okay } = stored := by cases l <;> rfl
    refine ⟨stored, step_hostWrite_of_idle ha hp hl v rest, by cases l <;> rfl, ?_⟩
    calc step { stored with inputs := .hostWrite a v :: rest }
      _ = .next (writeLocation { stored with inputs := rest, response := some .okay } v l) :=
        step_hostWrite_of_idle (by simpa [stored] using ha) (by simpa [stored] using hp) hl v rest
      _ = .next (writeLocation stored v l) := by rw [answered]
      _ = .next stored := congrArg _ (writeLocation_twice (s := { s with inputs := rest, response := some .okay }) hm v l)

/-- Settles O15: by the location a read reaches. -/
theorem readsRevealNothingHidden : Obligations.ReadsRevealNothingHidden :=
  fun _ _ h a => hostRead_congr h a

end Sys2Proof.Safety
end

section
/-! SUPPORT. The hardware apart from its environment: a turn of the sequencer neither reads nor writes the inputs and the answer
of the port, so host accesses between the turns are unobservable (R70). -/

namespace Sys2Proof.Machine

open Sys2Proof.Safety

variable {s s' t u : State} {j : List Input} {r : Option Response}

/-- The same hardware in another environment. -/
def State.withEnv (s : State) (j : List Input) (r : Option Response) : State := { s with inputs := j, response := r }

theorem checkAndStartAesCbc_withEnv (s : State) (j : List Input) (r : Option Response) :
    checkAndStartAesCbc (s.withEnv j r) = (checkAndStartAesCbc s).withEnv j r := by
  simp only [checkAndStartAesCbc, apply_ite (State.withEnv · j r)]
  rfl

theorem checkAndStartDesEcb_withEnv (s : State) (j : List Input) (r : Option Response) :
    checkAndStartDesEcb (s.withEnv j r) = (checkAndStartDesEcb s).withEnv j r := by
  simp only [checkAndStartDesEcb, apply_ite (State.withEnv · j r)]
  rfl

theorem cbcBlockStep_withEnv (s : State) (j : List Input) (r : Option Response) :
    cbcBlockStep (s.withEnv j r) = (cbcBlockStep s).withEnv j r := by
  simp only [cbcBlockStep, apply_ite (State.withEnv · j r)]
  rfl

theorem ecbBlockStep_withEnv (s : State) (j : List Input) (r : Option Response) :
    ecbBlockStep (s.withEnv j r) = (ecbBlockStep s).withEnv j r := by
  simp only [ecbBlockStep, apply_ite (State.withEnv · j r)]
  rfl

theorem blockAesCbc_withEnv (h : blockAesCbc s = .next t) : blockAesCbc (s.withEnv j r) = .next (t.withEnv j r) := by
  unfold blockAesCbc at h ⊢
  rw [cbcBlockStep_withEnv]
  split_ifs at h with hb hn hr <;> cases h
  · exact if_pos hb
  · exact (if_neg hb).trans ((if_neg hn).trans (if_neg hr))

theorem blockDesEcb_withEnv (h : blockDesEcb s = .next t) : blockDesEcb (s.withEnv j r) = .next (t.withEnv j r) := by
  unfold blockDesEcb at h ⊢
  rw [ecbBlockStep_withEnv]
  split_ifs at h with hb hr <;> cases h
  · exact if_pos hb
  · exact (if_neg hb).trans (if_neg hr)

theorem exec_withEnv (i : Instr) (hp : s.phase ≠ .idle) (h : exec i s = .next t) :
    exec i (s.withEnv j r) = .next (t.withEnv j r) := by
  cases hq : s.phase with
  | idle => exact absurd hq hp
  | check =>
    have hq' : (s.withEnv j r).phase = .check := hq
    cases i with
    | encAesCbcPkcs7 =>
      rw [exec_aes_of_check hq] at h
      cases h
      rw [exec_aes_of_check hq', checkAndStartAesCbc_withEnv]
    | encDesEcbNone =>
      rw [exec_des_of_check hq] at h
      cases h
      rw [exec_des_of_check hq', checkAndStartDesEcb_withEnv]
    | clear => exact absurd (exec_clear_eq_next.1 h).1 hp
  | block =>
    have hq' : (s.withEnv j r).phase = .block := hq
    cases i with
    | encAesCbcPkcs7 =>
      simp only [exec, execEncAesCbcPkcs7, hq, hq'] at h ⊢
      exact blockAesCbc_withEnv h
    | encDesEcbNone =>
      simp only [exec, execEncDesEcbNone, hq, hq'] at h ⊢
      exact blockDesEcb_withEnv h
    | clear => exact absurd (exec_clear_eq_next.1 h).1 hp

/-- A turn of the sequencer is the same in every environment (R8). -/
theorem sequencerTurn_withEnv (h : sequencerTurn s = .next t) : sequencerTurn (s.withEnv j r) = .next (t.withEnv j r) := by
  by_cases hp : s.phase = .idle
  · rw [sequencerTurn_idle hp] at h
    cases h
    exact sequencerTurn_idle hp
  cases hd : decode s.cmdw with
  | ok i =>
    rw [sequencerTurn_exec hp hd] at h
    rw [sequencerTurn_exec (s := s.withEnv j r) hp hd, exec_withEnv i hp h]
  | error e =>
    cases turn_of_sequencerTurn h with
    | rest hq => exact absurd hq hp
    | illegal _ hq => exact sequencerTurn_illegal (s := s.withEnv j r) hq hd
    | aesFails _ _ hc | desFails _ _ hc | aesStarts _ hc | desStarts _ hc | aesFinishes _ hc | desFinishes _ hc
    | aesPrimFails _ hc | desPrimFails _ hc | aesBlock _ hc | desBlock _ hc => cases hd.symm.trans hc

/-- A state is its hardware in its environment. -/
theorem eq_withEnv_of_bare_eq (h : bare s = bare s') : s = s'.withEnv s.inputs s.response := by
  change (bare s).withEnv s.inputs s.response = (bare s').withEnv s.inputs s.response
  rw [h]

/-- On equal hardware a turn does the same, and leaves the environment of each. -/
theorem sequencerTurn_of_bare_eq (h : bare s = bare s') (ht : sequencerTurn s' = .next t) :
    ∃ u, sequencerTurn s = .next u ∧ bare u = bare t := by
  rw [eq_withEnv_of_bare_eq h]
  exact ⟨_, sequencerTurn_withEnv ht, rfl⟩

/-- A host access while a command runs leaves the hardware as it is (R70). -/
theorem takeInput_of_busy {x : Input} (hp : s.phase ≠ .idle) (hx : x ≠ .sequencer) (hx' : x ≠ .reset) :
    ∃ r, takeInput x s = .next (respond r s) := by
  cases x with
  | hostRead | hostOtherWidth => exact ⟨_, rfl⟩
  | hostWrite a v =>
    cases ha : access s.params a with
    | none => exact ⟨_, hostWrite_of_none ha⟩
    | some l => exact ⟨_, hostWrite_of_busy ha hp⟩
  | sequencer => exact absurd rfl hx
  | reset => exact absurd rfl hx'

theorem phase_eq_of_bare_eq (h : bare s = bare t) : s.phase = t.phase := by
  rw [eq_withEnv_of_bare_eq h]
  rfl

/-- Two states with a command running look alike when the operands that a read tells are the same (R75). -/
theorem looksAlike_of_busy (hs : s.phase ≠ .idle) (ht : t.phase ≠ .idle) (hparams : t.params = s.params)
    (h : OperandsKept s t) : LooksAlike t s where
  params := hparams
  klen := h.klen
  ivlen := h.ivlen
  plen := h.plen
  busyBoth := by rw [busy_eq_true.2 hs, busy_eq_true.2 ht]
  idle := fun hb => absurd (busy_eq_false.1 hb) ht

theorem step_of_sequencer {rest : List Input} (hi : s.inputs = .sequencer :: rest) :
    step s = sequencerTurn { s with inputs := rest } := step_of_input hi

/-- Turns alone do not take the core out of `IDLE` (R40). -/
theorem runs_turns_idle (n : Nat) : ∀ {s : State}, s.inputs = List.replicate n .sequencer → s.phase = .idle →
    runs n s = .next u → u.phase = .idle := by
  induction n with
  | zero =>
    intro s _ hp h
    cases h
    exact hp
  | succ n ih =>
    intro s hi hp h
    rw [runs_succ_of_step ((step_of_sequencer hi).trans (sequencerTurn_idle (by exact hp)))] at h
    exact ih (s := { s with inputs := List.replicate n .sequencer }) rfl hp h

/-- A schedule without a reset, and its turns alone on equal hardware: as long as the command runs they lead to equal hardware,
and no read tells how far. -/
theorem runs_schedule (sched : List Input) : ∀ {s s' : State}, s.inputs = sched →
    s'.inputs = List.replicate (sched.count .sequencer) .sequencer → (∀ x ∈ sched, x ≠ .reset) → bare s = bare s' →
    runs (sched.count .sequencer) s' = .next u → busy u = true →
    ∃ v, runs sched.length s = .next v ∧ bare v = bare u ∧ ∀ a, hostRead v a = hostRead s a := by
  induction sched with
  | nil =>
    intro s s' _ _ _ hbare hrun _
    cases hrun
    exact ⟨s, rfl, hbare, fun _ => rfl⟩
  | cons x rest ih =>
    intro s s' hi hi' hreset hbare hrun hu
    have hrest : ∀ y ∈ rest, y ≠ .reset := fun y hy => hreset y (List.mem_cons_of_mem x hy)
    have hs : s.phase ≠ .idle := fun hp =>
      busy_eq_true.1 hu (runs_turns_idle _ hi' ((phase_eq_of_bare_eq hbare).symm.trans hp) hrun)
    by_cases hx : x = .sequencer
    case pos =>
      subst hx
      rw [List.count_cons_self] at hrun hi'
      obtain ⟨t', hstep', hrun'⟩ := step_of_runs_succ hrun
      rw [step_of_sequencer hi'] at hstep'
      have hit' := (turn_env (turn_of_sequencerTurn hstep')).1
      obtain ⟨t, ht, htt⟩ := sequencerTurn_of_bare_eq (s := { s with inputs := rest })
        (s' := { s' with inputs := List.replicate (rest.count .sequencer) .sequencer }) hbare hstep'
      have hturn := turn_of_sequencerTurn ht
      obtain ⟨hit, -, hparams⟩ := turn_env hturn
      have hpt : t.phase ≠ .idle := fun hp =>
        busy_eq_true.1 hu (runs_turns_idle _ hit' ((phase_eq_of_bare_eq htt).symm.trans hp) hrun')
      have hlike : LooksAlike t { s with inputs := rest } := looksAlike_of_busy hs hpt hparams (hturn.operandsKept hpt)
      obtain ⟨v, hv, hvu, hread⟩ := ih hit hit' hrest htt hrun' hu
      refine ⟨v, ?_, hvu, fun a => (hread a).trans (hostRead_congr hlike a)⟩
      rw [List.length_cons, runs_succ_of_step ((step_of_sequencer hi).trans ht), hv]
    case neg =>
      rw [List.count_cons_of_ne hx] at hrun hi'
      obtain ⟨r, hr⟩ := takeInput_of_busy (s := { s with inputs := rest }) hs hx (hreset x List.mem_cons_self)
      obtain ⟨v, hv, hvu, hread⟩ := ih (s := respond r { s with inputs := rest }) rfl hi' hrest hbare hrun hu
      refine ⟨v, ?_, hvu, hread⟩
      rw [List.length_cons, runs_succ_of_step ((step_of_input hi).trans hr), hv]

end Sys2Proof.Machine

namespace Sys2Proof.Safety

open Sys2Proof.Machine

/-- Settles O16: by induction on the schedule; an access leaves the hardware as it is, and a turn does not see the environment. -/
theorem interleavingIsUnobservable : Obligations.InterleavingIsUnobservable := by
  intro s u sched hreset hrun hu
  exact runs_schedule sched (s := { s with inputs := sched })
    (s' := { s with inputs := List.replicate (sched.count .sequencer) .sequencer }) rfl rfl hreset rfl hrun hu

end Sys2Proof.Safety
end

section
/-! SUPPORT. A command from its `CMD` write to its end (R128): the sequencer computes `Run(w)` in the stated number of steps. -/

namespace Sys2Proof.Machine

open Sys2Proof.Safety Sys2Proof.Laws

variable {s t u : State} {n : Nat} {w : Word}

/-- `s` leads to `t` in exactly `n` steps, with a command running before each of them. -/
def EndsIn (n : Nat) (s t : State) : Prop :=
  runs n s = .next t ∧ ∀ j, j < n → ∃ u, runs j s = .next u ∧ busy u = true

theorem EndsIn.cons (hp : s.phase ≠ .idle) (h : step s = .next u) (hu : EndsIn n u t) : EndsIn (n + 1) s t := by
  obtain ⟨hrun, hbusy⟩ := hu
  refine ⟨(runs_succ_of_step h n).trans hrun, fun j hj => ?_⟩
  cases j with
  | zero => exact ⟨s, rfl, busy_eq_true.2 hp⟩
  | succ j =>
    rw [runs_succ_of_step h]
    exact hbusy j (by omega)

theorem endsIn_one (hp : s.phase ≠ .idle) (h : step s = .next t) : EndsIn 1 s t :=
  EndsIn.cons hp h ⟨rfl, fun _ hj => absurd hj (Nat.not_lt_zero _)⟩

/-- The state a command that ended with a result leaves, the port's answer kept (R128). -/
def ended (r : Result) (s : State) : State := { resultState r s.params with response := s.response }

/-- A check that fails ends the command in its one step (R128). -/
theorem endsIn_fail {k : ErrorKind} (hi : s.inputs = []) (hp : s.phase = .check)
    (h : sequencerTurn s = .next (raise k s)) : EndsIn 1 s (ended (.fail k) s) := by
  refine endsIn_one (by simp [hp]) ((step_of_no_inputs hi).trans ?_)
  rw [h, raise_eq hi, ended]

/-- The block loop of `EncAesCbc` on the operands of a state (R208). -/
def cbcRun (s : State) : LoopEnd :=
  cbcLoop s.params (keyOperand s) (storeSchedule (aesKeyExpansion (keyOperand s)) zeroSchedule)
    (aesRoundCount (keyOperand s)) (pad (plaintext s.ibuf s.plen.toNat)) (s.plen.toNat / 16 + 1) 0 s.iv []

/-- The block loop of `EncDesEcb` on the operands of a state (R235). -/
def ecbRun (s : State) : LoopEnd :=
  ecbLoop s.params (desKey s.key).toList (desKeySchedule (desKey s.key)) (plaintext s.ibuf s.plen.toNat)
    (s.plen.toNat / 8) 0 []

theorem runCommand_aes (hd : decode w = .ok .encAesCbcPkcs7) (s : State) : runCommand w s =
    if acceptsAesKeyLen s.params s.klen.toNat = false then (.fail .invalidParameter, 1)
    else if s.ivlen.toNat ≠ Config.ivLen then (.fail .invalidParameter, 1)
    else if keyReject s.params .aes (keyOperand s) then (.fail .keyError, 1)
    else if s.params.ibufBytes < s.plen.toNat then (.fail .capacityError, 1)
    else (cbcRun s).result (s.plen.toNat / 16 + 1) := by
  simp only [runCommand, hd, encAesCbc, pad_length, plaintext_length, Nat.mul_div_cancel_left _ (Nat.succ_pos 15)]
  rfl

theorem runCommand_des (hd : decode w = .ok .encDesEcbNone) (s : State) : runCommand w s =
    if s.klen.toNat ≠ Config.desKeyLen then (.fail .invalidParameter, 1)
    else if keyReject s.params .des (desKey s.key).toList then (.fail .keyError, 1)
    else if s.plen.toNat % Config.desBlock ≠ 0 then (.fail .alignmentError, 1)
    else if s.params.ibufBytes < s.plen.toNat then (.fail .capacityError, 1)
    else (ecbRun s).result (s.plen.toNat / 8) := by
  simp only [runCommand, hd]
  rfl

theorem runCommand_illegal {e : Illegal} (hd : decode w = .error e) (s : State) :
    runCommand w s = (.fail .illegalCommand, 1) := by
  simp only [runCommand, hd]

/-- A key of an accepted length has a round count of its own (R147). -/
theorem isRoundCount_startAesCbc (hk : acceptsAesKeyLen s.params s.klen.toNat = true) :
    isRoundCount (startAesCbc s).nr.toNat = true := by
  rw [startAesCbc_nr_toNat, aesRoundCount, keyOperand_length hk]
  rcases acceptsAesKeyLen_toNat.1 hk with ⟨h, -⟩ | ⟨h, -⟩ | ⟨h, -⟩ <;> rw [h] <;> rfl

/-- Whatever schedule the registers held before, the loop that an AES command starts is that of `EncAesCbc`. -/
theorem cbcLoop_startAesCbc (s : State) (m : List Byte) (n : Nat) :
    cbcLoop s.params (keyOperand s) (startAesCbc s).rk (startAesCbc s).nr.toNat m n 0 s.iv [] =
    cbcLoop s.params (keyOperand s) (storeSchedule (aesKeyExpansion (keyOperand s)) zeroSchedule)
      (aesRoundCount (keyOperand s)) m n 0 s.iv [] := by
  rw [startAesCbc_nr_toNat]
  refine cbcLoop_congr (fun i h60 hi => ?_) n 0 s.iv []
  rw [getElem_startAesCbc_rk h60 hi zeroSchedule[i], getElem_storeSchedule]

section check

variable (hi : s.inputs = []) (hw : s.params.wf = true) (ho : s.obuf = [])

include hi hw ho

/-- From its start an AES command does what the loop of R208 does. -/
theorem endsIn_startAesCbc (hd : decode s.cmdw = .ok .encAesCbcPkcs7)
    (hk : acceptsAesKeyLen s.params s.klen.toNat = true) (hl : s.plen.toNat ≤ s.params.ibufBytes) :
    ∃ n, ((cbcRun s).result (s.plen.toNat / 16 + 1)).2 = n + 1 ∧
      EndsIn n (startAesCbc s) (ended ((cbcRun s).result (s.plen.toNat / 16 + 1)).1 s) := by
  have nblk : (startAesCbc s).nblk.toNat = s.plen.toNat / 16 + 1 := by
    rw [startAesCbc_nblk, BitVec.toNat_ofNat, Nat.mod_eq_of_lt (by have := s.plen.isLt; omega)]
  have loop := aes_loop (s.plen.toNat / 16 + 1) (startAesCbc s) [] hi rfl hd (isRoundCount_startAesCbc hk) hl hw
    nblk ((Nat.zero_add _).trans nblk.symm) ho rfl
  have run : cbcLoop (startAesCbc s).params (keyOperand (startAesCbc s)) (startAesCbc s).rk (startAesCbc s).nr.toNat
      (pad (plaintext (startAesCbc s).ibuf (startAesCbc s).plen.toNat)) (s.plen.toNat / 16 + 1) (startAesCbc s).blk.toNat
      (startAesCbc s).chain [] = cbcRun s := cbcLoop_startAesCbc s _ _
  rw [run, nblk, show (startAesCbc s).blk.toNat = 0 from rfl] at loop
  obtain ⟨hsteps, hends⟩ := loop
  exact ⟨_, by omega, hends⟩

/-- From its start a DES command does what the loop of R235 does. -/
theorem endsIn_startDesEcb (hd : decode s.cmdw = .ok .encDesEcbNone) (hm : s.plen.toNat % 8 = 0)
    (hl : s.plen.toNat ≤ s.params.ibufBytes) :
    ∃ n, ((ecbRun s).result (s.plen.toNat / 8)).2 = n + 1 ∧
      EndsIn n (startDesEcb s) (ended ((ecbRun s).result (s.plen.toNat / 8)).1 s) := by
  have nblk : (startDesEcb s).nblk.toNat = s.plen.toNat / 8 := by
    rw [startDesEcb_nblk, BitVec.toNat_ofNat, Nat.mod_eq_of_lt (by have := s.plen.isLt; omega)]
  have loop := des_loop (s.plen.toNat / 8) (startDesEcb s) [] hi rfl hd hl hw hm
    nblk ((Nat.zero_add _).trans nblk.symm) ho rfl
  have run : ecbLoop (startDesEcb s).params (desKey (startDesEcb s).key).toList (startDesEcb s).ks
      (plaintext (startDesEcb s).ibuf (startDesEcb s).plen.toNat) (s.plen.toNat / 8) (startDesEcb s).blk.toNat [] =
      ecbRun s := rfl
  rw [run, nblk, show (startDesEcb s).blk.toNat = 0 from rfl] at loop
  obtain ⟨hsteps, hends⟩ := loop
  exact ⟨_, by omega, hends⟩

/-- From `CHECK` a command computes `Run(w)` of its word (R128). -/
theorem endsIn_of_check (hp : s.phase = .check) (hc : decode s.cmdw ≠ .ok .clear) :
    EndsIn (runCommand s.cmdw s).2 s (ended (runCommand s.cmdw s).1 s) := by
  have busy : s.phase ≠ .idle := by simp [hp]
  cases hd : decode s.cmdw with
  | error e =>
    rw [runCommand_illegal hd]
    exact endsIn_fail hi hp (sequencerTurn_illegal hp hd)
  | ok i =>
    cases i with
    | clear => exact absurd hd hc
    | encAesCbcPkcs7 =>
      have turn := (sequencerTurn_exec busy hd).trans (exec_aes_of_check hp)
      rw [runCommand_aes hd]
      split_ifs with hk hv hr hl
      · exact endsIn_fail hi hp (by rw [turn, checkAndStartAesCbc, if_pos hk])
      · exact endsIn_fail hi hp (by rw [turn, checkAndStartAesCbc, if_neg hk, if_pos hv])
      · exact endsIn_fail hi hp (by rw [turn, checkAndStartAesCbc, if_neg hk, if_neg hv, if_pos hr])
      · exact endsIn_fail hi hp (by rw [turn, checkAndStartAesCbc, if_neg hk, if_neg hv, if_neg hr, if_pos hl])
      · rw [checkAndStartAesCbc, if_neg hk, if_neg hv, if_neg hr, if_neg hl] at turn
        obtain ⟨n, hn, hends⟩ := endsIn_startAesCbc hi hw ho hd (Bool.eq_true_of_not_eq_false hk) (not_lt.1 hl)
        exact hn ▸ hends.cons busy ((step_of_no_inputs hi).trans turn)
    | encDesEcbNone =>
      have turn := (sequencerTurn_exec busy hd).trans (exec_des_of_check hp)
      rw [runCommand_des hd]
      split_ifs with hk hr hm hl
      · exact endsIn_fail hi hp (by rw [turn, checkAndStartDesEcb, if_pos hk])
      · exact endsIn_fail hi hp (by rw [turn, checkAndStartDesEcb, if_neg hk, if_pos hr])
      · exact endsIn_fail hi hp (by rw [turn, checkAndStartDesEcb, if_neg hk, if_neg hr, if_pos hm])
      · exact endsIn_fail hi hp (by rw [turn, checkAndStartDesEcb, if_neg hk, if_neg hr, if_neg hm, if_pos hl])
      · rw [checkAndStartDesEcb, if_neg hk, if_neg hr, if_neg hm, if_neg hl] at turn
        obtain ⟨n, hn, hends⟩ := endsIn_startDesEcb hi hw ho hd (not_not.1 hm) (not_lt.1 hl)
        exact hn ▸ hends.cons busy ((step_of_no_inputs hi).trans turn)

end check

/-- The command of `w`, written to `CMD` in `s` with no input after it, leaves the result of `Run(w)` (R128). -/
theorem endsIn_issued (hw : s.params.wf = true) (hd : decode w ≠ .ok .clear) :
    EndsIn (runCommand w s).2 (issueWord w (respond .okay { s with inputs := [] }))
      { resultState (runCommand w s).1 s.params with response := some .okay } :=
  endsIn_of_check (s := issueWord w (respond .okay { s with inputs := [] })) rfl hw rfl rfl hd

theorem step_issue (hp : s.phase = .idle) (hd : decode w ≠ .ok .clear) : step { s with inputs := [.hostWrite 0 w] } =
    .next (issueWord w (respond .okay { s with inputs := [] })) :=
  (step_of_input rfl).trans (takeInput_cmd (s := { s with inputs := [] }) hp hd)

/-- A command other than `CLEAR`, written in `IDLE`, completes with the result of `Run(w)` (R128). -/
theorem completes_resultState (hw : s.params.wf = true) (hp : s.phase = .idle) (hd : decode w ≠ .ok .clear) :
    Completes w s { resultState (runCommand w s).1 s.params with response := some .okay } := by
  refine ⟨(runCommand w s).2 + 1, Nat.succ_pos _, ?_, ?_⟩
  · exact (runs_succ_of_step (step_issue hp hd) _).trans (endsIn_issued hw hd).1
  · cases (runCommand w s).1 <;> rfl

/-- `Run(w)` reads the operands only (R127). -/
theorem runCommand_congr (hparams : s.params = t.params) (hklen : s.klen = t.klen) (hivlen : s.ivlen = t.ivlen)
    (hplen : s.plen = t.plen) (hkey : keyOperand s = keyOperand t) (hiv : s.iv = t.iv)
    (hibuf : ∀ a, a < t.plen.toNat → s.ibuf.read a = t.ibuf.read a) (hc : decode w ≠ .ok .clear) :
    runCommand w s = runCommand w t := by
  have hp : plaintext s.ibuf t.plen.toNat = plaintext t.ibuf t.plen.toNat := plaintext_congr hibuf
  cases hd : decode w with
  | error e => rw [runCommand_illegal hd, runCommand_illegal hd]
  | ok i =>
    cases i with
    | clear => exact absurd hd hc
    | encAesCbcPkcs7 =>
      rw [runCommand_aes hd, runCommand_aes hd]
      simp only [cbcRun, hparams, hklen, hivlen, hplen, hkey, hiv, hp]
    | encDesEcbNone =>
      rw [runCommand_des hd, runCommand_des hd]
      by_cases hk : t.klen.toNat = Config.desKeyLen
      case neg => rw [if_pos (hklen ▸ hk), if_pos hk]
      have hdes : desKey s.key = desKey t.key := by
        simp only [keyOperand, hklen, hk] at hkey
        exact Vector.toList_inj.1 ((desKey_toList _).trans (hkey.trans (desKey_toList _).symm))
      simp only [ecbRun, hparams, hklen, hplen, hdes, hp]

end Sys2Proof.Machine

namespace Sys2Proof.Safety

open Sys2Proof.Machine

/-- Settles O52: the write issues the word, the first turn checks, and each turn after it is one round of the loop. -/
theorem commandComputesRun : Obligations.CommandComputesRun := by
  intro s w hw hp hd start
  have issued : step start = .next (issueWord w (respond .okay { s with inputs := [] })) := step_issue hp hd
  obtain ⟨hrun, hbusy⟩ := endsIn_issued hw hd
  refine ⟨(runs_succ_of_step issued _).trans hrun, fun j h1 hj => ?busy⟩
  case busy =>
    obtain ⟨j, rfl⟩ := Nat.exists_eq_add_of_le' h1
    rw [runs_succ_of_step issued]
    exact hbusy j hj

/-- Settles O53: both states end with the result of `Run(w)`, which reads the operands only. -/
theorem resultDependsOnOperandsOnly : Obligations.ResultDependsOnOperandsOnly := by
  intro s s' w hw hp hp' hd hparams hklen hivlen hplen hkey hiv hibuf
  refine ⟨_, _, completes_resultState hw hp hd, completes_resultState (hparams ▸ hw) hp' hd, ?_⟩
  rw [runCommand_congr hparams hklen hivlen hplen hkey hiv hibuf hd, hparams]

end Sys2Proof.Safety
end

section
/-! SUPPORT. The ciphertexts in closed form where `prim_fail` is constant false: each block of CBC from the one before it
(R209), each block of ECB on its own (R236), and how the blocks stand in `OBUF`. -/

namespace Sys2Proof.Machine

open Sys2Proof.Safety Sys2Proof.Laws

variable {s : State} {p : Params} {key m m' : List Byte}

section concatBlocks

variable {k : Nat} (f : Nat → Bytes k) (n : Nat)

/-- The blocks `f 0` to `f (n - 1)` in order. -/
def concatBlocks : List Byte := (List.range n).flatMap fun i => (f i).toList

theorem concatBlocks_succ : concatBlocks f (n + 1) = concatBlocks f n ++ (f n).toList := by
  simp [concatBlocks, List.range_succ]

theorem length_concatBlocks : (concatBlocks f n).length = k * n := by
  induction n with
  | zero => rfl
  | succ n ih => rw [concatBlocks_succ, List.length_append, ih, Vector.length_toList, Nat.mul_succ]

/-- Blocks written from the start of an empty array read back block by block. -/
theorem readBytes_concatBlocks {i : Nat} (hi : i < n) :
    (Memory.writeBytes [] 0 (concatBlocks f n)).readBytes (k * i) k = f i := by
  have empty : Memory.wf [] := ⟨.nil, fun _ h => absurd h List.not_mem_nil⟩
  refine Vector.ext fun j hj => ?_
  rw [Memory.getElem_readBytes]
  induction n with
  | zero => exact absurd hi (Nat.not_lt_zero i)
  | succ n ih =>
    rw [concatBlocks_succ, Memory.writeBytes_append, length_concatBlocks, Nat.zero_add]
    rcases Nat.lt_succ_iff_lt_or_eq.1 hi with hlt | rfl
    · have := Nat.mul_le_mul_left k (Nat.succ_le_of_lt hlt)
      rw [Memory.read_writeBytes_outside _ (.inl (by rw [Nat.mul_succ] at this; omega)), ih hlt]
    · exact read_writeBytes_toList (Memory.writeBytes_wf empty 0 _) _ (f i) hj

theorem read_concatBlocks_of_le {a : Nat} (ha : k * n ≤ a) : (Memory.writeBytes [] 0 (concatBlocks f n)).read a = 0 := by
  rw [Memory.read_writeBytes_outside _ (.inr (by rw [length_concatBlocks]; omega)), Memory.read_nil]

end concatBlocks

theorem primFail_of_nil (hp : p.primFail = []) (c : Cipher) (i : Nat) (x : List Byte) : primFail p c key i x = false := by
  simp [primFail, hp]

/-- The chaining values of CBC under the block function `aes`: the IV, then the blocks of ciphertext (R208). -/
def cbcChain (aes : Bytes 16 → Bytes 16) (m : List Byte) (iv : Bytes 16) : Nat → Bytes 16
  | 0 => iv
  | i + 1 => aes (xorBytes (blockAt 16 m i) (cbcChain aes m iv i))

theorem cbcChain_congr {aes : Bytes 16 → Bytes 16} {iv : Bytes 16} (n : Nat)
    (h : ∀ i, i < n → blockAt 16 m i = blockAt 16 m' i) : cbcChain aes m iv n = cbcChain aes m' iv n := by
  induction n with
  | zero => rfl
  | succ n ih => rw [cbcChain, cbcChain, h n (Nat.lt_succ_self n), ih fun i hi => h i (Nat.lt_succ_of_lt hi)]

theorem cbcLoop_of_primFail_nil (hp : p.primFail = []) (rk : AesSchedule) (r : Nat) (iv : Bytes 16) (n : Nat) :
    ∀ (i : Nat) (out : List Byte),
      cbcLoop p key rk r m n i (cbcChain (aesEncryptBlock rk r) m iv i) out =
        .blocks (out ++ (List.range' i n).flatMap fun j => (cbcChain (aesEncryptBlock rk r) m iv (j + 1)).toList) := by
  induction n with
  | zero => simp [cbcLoop]
  | succ n ih =>
    intro i out
    rw [List.range'_succ, List.flatMap_cons, ← List.append_assoc, ← ih]
    simp only [cbcLoop, primFail_of_nil hp, Bool.false_eq_true, if_false, cbcChain]

theorem ecbLoop_of_primFail_nil (hp : p.primFail = []) (ks : Vector (BitVec 48) 16) (n : Nat) :
    ∀ (i : Nat) (out : List Byte), ecbLoop p key ks m n i out =
      .blocks (out ++ (List.range' i n).flatMap fun j => (desEncryptBlock ks (blockAt 8 m j)).toList) := by
  induction n with
  | zero => simp [ecbLoop]
  | succ n ih =>
    intro i out
    rw [List.range'_succ, List.flatMap_cons, ← List.append_assoc, ← ih]
    simp only [ecbLoop, primFail_of_nil hp, Bool.false_eq_true, if_false]

/-- The block function of the AES command on the key of a state (R208). -/
def aesOf (s : State) : Bytes 16 → Bytes 16 :=
  aesEncryptBlock (storeSchedule (aesKeyExpansion (keyOperand s)) zeroSchedule) (aesRoundCount (keyOperand s))

/-- Block `i` of the ciphertext of the AES command on the operands of a state (R208). -/
def aesBlockOf (s : State) (i : Nat) : Bytes 16 :=
  cbcChain (aesOf s) (pad (plaintext s.ibuf s.plen.toNat)) s.iv (i + 1)

/-- Block `i` of the ciphertext of the DES command on the operands of a state (R235). -/
def desBlockOf (s : State) (i : Nat) : Bytes 8 :=
  desEncryptBlock (desKeySchedule (desKey s.key)) (blockAt 8 (plaintext s.ibuf s.plen.toNat) i)

theorem cbcRun_of_primFail_nil (hp : s.params.primFail = []) :
    cbcRun s = .blocks (concatBlocks (aesBlockOf s) (s.plen.toNat / 16 + 1)) := by
  rw [concatBlocks, List.range_eq_range']
  exact cbcLoop_of_primFail_nil hp _ _ s.iv _ 0 []

theorem ecbRun_of_primFail_nil (hp : s.params.primFail = []) :
    ecbRun s = .blocks (concatBlocks (desBlockOf s) (s.plen.toNat / 8)) := by
  rw [concatBlocks, List.range_eq_range']
  exact ecbLoop_of_primFail_nil hp _ _ 0 []

theorem runCommand_of_aesReady (h : AesReady s) : runCommand 0x141 s =
    (.success (concatBlocks (aesBlockOf s) (s.plen.toNat / 16 + 1)), s.plen.toNat / 16 + 1 + 2) := by
  rw [runCommand_aes rfl, if_neg (by simp [h.keyLen]), if_neg (not_not.2 (ivlen_toNat_eq_ivLen_iff.2 h.ivLen)),
    if_neg (by simp [h.keyAccepted]), if_neg h.fits.not_gt, cbcRun_of_primFail_nil h.noPrimFail, LoopEnd.result]

theorem runCommand_of_desReady (h : DesReady s) : runCommand 0x011 s =
    (.success (concatBlocks (desBlockOf s) (s.plen.toNat / 8)), s.plen.toNat / 8 + 2) := by
  have whole_blocks : s.plen.toNat % Config.desBlock = 0 := h.multiple
  rw [runCommand_des rfl, if_neg (not_not.2 (klen_toNat_eq_desKeyLen_iff.2 h.keyLen)), if_neg (by simp [h.keyAccepted]),
    if_neg (not_not.2 whole_blocks), if_neg h.fits.not_gt, ecbRun_of_primFail_nil h.noPrimFail, LoopEnd.result]

/-- The state a command leaves that ended with the ciphertext of `n` blocks. -/
def succeeded {k : Nat} (f : Nat → Bytes k) (n : Nat) (p : Params) : State :=
  { resultState (.success (concatBlocks f n)) p with response := some .okay }

theorem succeeded_olen {k : Nat} (f : Nat → Bytes k) (n : Nat) (p : Params) :
    (succeeded f n p).olen = BitVec.ofNat 32 (k * n) := by
  rw [← length_concatBlocks f n]
  rfl

/-- A ready AES command completes with the ciphertext of CBC (R200). -/
theorem completes_of_aesReady (hw : s.params.wf = true) (h : AesReady s) :
    Completes 0x141 s (succeeded (aesBlockOf s) (s.plen.toNat / 16 + 1) s.params) := by
  have completes := completes_resultState (w := 0x141) hw h.idle (by decide)
  rwa [runCommand_of_aesReady h] at completes

/-- A ready DES command completes with the ciphertext of ECB (R230). -/
theorem completes_of_desReady (hw : s.params.wf = true) (h : DesReady s) :
    Completes 0x011 s (succeeded (desBlockOf s) (s.plen.toNat / 8) s.params) := by
  have completes := completes_resultState (w := 0x011) hw h.idle (by decide)
  rwa [runCommand_of_desReady h] at completes

theorem aesCipherBlock_succeeded {f : Nat → Bytes 16} {n i : Nat} (hi : i < n) :
    aesCipherBlock (succeeded f n p) i = f i := readBytes_concatBlocks f n hi

theorem desCipherBlock_succeeded {f : Nat → Bytes 8} {n i : Nat} (hi : i < n) :
    desCipherBlock (succeeded f n p) i = f i := readBytes_concatBlocks f n hi

/-- A whole block of the plaintext is that block of the padded plaintext (R205). -/
theorem blockAt_pad (s : State) {i : Nat} (h : 16 * i + 16 ≤ s.plen.toNat) :
    blockAt 16 (pad (plaintext s.ibuf s.plen.toNat)) i = s.ibuf.readBytes (16 * i) 16 := by
  rw [← cbcInput_eq s (by omega), cbcInput_of_le_plen h]

theorem xorBytes_left_injective {n : Nat} (a : Bytes n) : Function.Injective (xorBytes a) := by
  intro b c h
  refine Vector.ext fun i hi => ?_
  have byte : (xorBytes a b)[i] = (xorBytes a c)[i] := by rw [h]
  rw [getElem_xorBytes, getElem_xorBytes] at byte
  exact (BitVec.xor_right_inj _).1 byte

theorem readBytes_congr {a b : Memory} {o n : Nat} (h : ∀ i, i < n → a.read (o + i) = b.read (o + i)) :
    a.readBytes o n = b.readBytes o n :=
  Vector.ext fun i hi => by rw [Memory.getElem_readBytes, Memory.getElem_readBytes, h i hi]

end Sys2Proof.Machine

namespace Sys2Proof.Safety

open Sys2Proof.Machine Sys2Proof.Laws

/-- Settles O30: the command ends with the chain of R208. -/
theorem aesCommandEncryptsCbc : Obligations.AesCommandEncryptsCbc := by
  intro s hw h
  refine ⟨_, completes_of_aesReady hw h, rfl, rfl, ?length, ?first, fun i hi => ?next, fun a ha => ?after⟩
  case length =>
    obtain ⟨-, -, hmax⟩ := ibufBytes_of_wf hw
    have := h.fits
    rw [succeeded_olen, BitVec.toNat_ofNat, Nat.mod_eq_of_lt (by omega)]
  case first => exact aesCipherBlock_succeeded (Nat.succ_pos _)
  case next => rw [aesCipherBlock_succeeded hi, aesCipherBlock_succeeded (by omega)]; rfl
  case after => exact read_concatBlocks_of_le _ _ ha

/-- Settles O31: AES is a bijection, and so is the exclusive-or with the first block of plaintext. -/
theorem differentIvsDifferentFirstBlock : Obligations.DifferentIvsDifferentFirstBlock := by
  intro s iv hw h hiv
  have h' : AesReady { s with iv := iv } := ⟨h.idle, h.keyLen, h.ivLen, h.keyAccepted, h.fits, h.noPrimFail⟩
  refine ⟨_, _, completes_of_aesReady hw h, completes_of_aesReady hw h', rfl, rfl, fun heq => hiv ?_⟩
  rw [aesCipherBlock_succeeded (Nat.succ_pos _), aesCipherBlock_succeeded (Nat.succ_pos _)] at heq
  exact (xorBytes_left_injective _ ((aesEncryptBlock_bijective _ _).1 heq)).symm

/-- Settles O32: block `i` of the chain depends on the blocks of plaintext up to `i`, which have no pad byte. -/
theorem cbcPrefixProperty : Obligations.CbcPrefixProperty := by
  intro s s' m hw h h' hparams hklen hkey hiv hm hm' hibuf
  refine ⟨_, _, completes_of_aesReady hw h, completes_of_aesReady (hparams ▸ hw) h', rfl, rfl, fun i hi => ?_⟩
  rw [aesCipherBlock_succeeded (by omega), aesCipherBlock_succeeded (by omega), aesBlockOf, aesBlockOf, aesOf, aesOf,
    hkey, hiv]
  refine cbcChain_congr (i + 1) fun j hj => ?_
  rw [blockAt_pad s' (by omega), blockAt_pad s (by omega)]
  exact readBytes_congr fun k hk => hibuf _ (by omega)

/-- Settles O37: the command ends with the blocks of R235, each of its own block of plaintext. -/
theorem desCommandEncryptsEcb : Obligations.DesCommandEncryptsEcb := by
  intro s hw h
  have whole : 8 * (s.plen.toNat / 8) = s.plen.toNat := Nat.mul_div_cancel' (Nat.dvd_of_mod_eq_zero h.multiple)
  have block : ∀ i, i < s.plen.toNat / 8 →
      desCipherBlock (succeeded (desBlockOf s) (s.plen.toNat / 8) s.params) i =
        desEncryptBlock (desKeySchedule (desKey s.key)) (s.ibuf.readBytes (8 * i) 8) := fun i hi => by
    rw [desCipherBlock_succeeded hi, desBlockOf, ← ecbInput_eq s (by omega), ecbInput]
  refine ⟨_, completes_of_desReady hw h, rfl, rfl, ?length, block, fun i j hi hj heq => ?equal, fun a ha => ?after⟩
  case length => rw [succeeded_olen, whole, BitVec.ofNat_toNat, BitVec.setWidth_eq]
  case equal => rw [block i hi, block j hj, heq]
  case after => exact read_concatBlocks_of_le _ _ (whole.le.trans ha)

end Sys2Proof.Safety
end

section
/-! SUPPORT. The DES core (42_des_primitive.md): its permutations compose by their tables, the encryption of a block is a chain of
bijections (R185), and the key schedule reads no parity bit (R175). -/

namespace Sys2Proof.Machine

open Sys2Proof.Safety

variable {s t : State}

/-- Entry `j` of a table of DES, as a bit counted from 0. -/
def tableBit (t : List Nat) (j : Nat) : Nat := t.getD j 0 - 1

/-- Two tables of 64 entries, the first of which undoes the second. -/
def Undoes (t t' : List Nat) : Prop := ∀ i, i < 64 → tableBit t i < 64 ∧ tableBit t' (tableBit t i) = i

theorem permute_of_undoes {t t' : List Nat} (h : Undoes t t') (v : BitVec 64) :
    permute 64 t (permute 64 t' v) = v := by
  refine eq_of_getMsbD fun i hi => ?_
  obtain ⟨hlt, hback⟩ := h i hi
  rw [getMsbD_permute t _ hi, ← tableBit, getMsbD_permute t' v hlt, ← tableBit, hback]

theorem fpTable_undoes_ipTable : Undoes fpTable ipTable := by unfold Undoes; decide

theorem ipTable_undoes_fpTable : Undoes ipTable fpTable := by unfold Undoes; decide

/-- The halves of a block after `IP` (R183). -/
def desHalves (v : BitVec 64) : BitVec 32 × BitVec 32 := (v.extractLsb' 32 32, v.extractLsb' 0 32)

/-- The halves put together, the right one first (R183). -/
def desSwapJoin (lr : BitVec 32 × BitVec 32) : BitVec 64 := lr.2 ++ lr.1

/-- The encryption of a block stage by stage (R183). -/
theorem desEncryptBlock_eq_comp (ks : Vector (BitVec 48) 16) : desEncryptBlock ks =
    desBytes ∘ permute 64 fpTable ∘ desSwapJoin ∘ (ks.toList.foldl desRound ·) ∘ desHalves ∘ permute 64 ipTable ∘
      desBits := by
  funext x
  unfold desEncryptBlock
  rfl

theorem desHalves_injective : Function.Injective desHalves := by
  intro v v' h
  obtain ⟨hl, hr⟩ := Prod.mk.inj h
  rw [← BitVec.extractLsb'_append_extractLsb' (w := 32) (len := 32) (x := v), hl, hr,
    BitVec.extractLsb'_append_extractLsb' (w := 32) (len := 32)]

theorem desSwapJoin_injective : Function.Injective desSwapJoin := by
  intro lr lr' h
  have hl : lr.1 = lr'.1 := by
    simpa only [desSwapJoin, BitVec.extractLsb'_append_eq_right] using congrArg (BitVec.extractLsb' 0 32) h
  have hr : lr.2 = lr'.2 := by
    simpa only [desSwapJoin, BitVec.extractLsb'_append_eq_left] using congrArg (BitVec.extractLsb' 32 32) h
  exact Prod.ext hl hr

/-- A round is undone from its right half, whatever the round function is (R183). -/
theorem desRound_injective (k : BitVec 48) : Function.Injective (desRound · k) := by
  intro lr lr' h
  obtain ⟨hr, hx⟩ := Prod.mk.inj h
  rw [hr] at hx
  exact Prod.ext ((BitVec.xor_left_inj _).1 hx) hr

theorem desRounds_injective (keys : List (BitVec 48)) : Function.Injective (keys.foldl desRound ·) := by
  induction keys with
  | nil => exact Function.injective_id
  | cons k keys ih => exact ih.comp (desRound_injective k)

theorem desEncryptBlock_injective (ks : Vector (BitVec 48) 16) : Function.Injective (desEncryptBlock ks) := by
  have ip : Function.Injective (permute 64 ipTable : BitVec 64 → BitVec 64) :=
    Function.LeftInverse.injective (permute_of_undoes fpTable_undoes_ipTable)
  have fp : Function.Injective (permute 64 fpTable : BitVec 64 → BitVec 64) :=
    Function.LeftInverse.injective (permute_of_undoes ipTable_undoes_fpTable)
  rw [desEncryptBlock_eq_comp]
  exact (Function.LeftInverse.injective desBits_desBytes).comp <| fp.comp <| desSwapJoin_injective.comp <|
    (desRounds_injective _).comp <| desHalves_injective.comp <| ip.comp <|
    Function.LeftInverse.injective desBytes_desBits

/-- Two keys that agree but in bit 0 of each byte, the parity bit (R175). -/
def SameButParity (k k' : Bytes 8) : Prop :=
  ∀ (i : Nat) (h : i < 8) (j : Nat), 1 ≤ j → j < 8 → k[i].getLsbD j = k'[i].getLsbD j

/-- A table of 28 entries that takes no parity bit: DES bits 8, 16, ..., 64. -/
def SkipsParity (t : List Nat) : Prop := ∀ j, j < 28 → tableBit t j < 64 ∧ tableBit t j % 8 < 7

theorem pc1C_skipsParity : SkipsParity pc1C := by unfold SkipsParity; decide

theorem pc1D_skipsParity : SkipsParity pc1D := by unfold SkipsParity; decide

theorem permute_desBits_of_skipsParity {t : List Nat} (ht : SkipsParity t) {k k' : Bytes 8} (h : SameButParity k k') :
    permute 28 t (desBits k) = permute 28 t (desBits k') := by
  refine eq_of_getMsbD fun j hj => ?_
  obtain ⟨hlt, hskip⟩ := ht j hj
  rw [getMsbD_permute t _ hj, getMsbD_permute t _ hj, ← tableBit, getMsbD_desBits k hlt, getMsbD_desBits k' hlt,
    BitVec.getMsbD_eq_getLsbD, BitVec.getMsbD_eq_getLsbD, h _ (by omega) _ (by omega) (by omega)]

/-- `PC1` drops the parity bits, and the schedule reads the key through it (R175, R176). -/
theorem desKeySchedule_of_sameButParity {k k' : Bytes 8} (h : SameButParity k k') :
    desKeySchedule k = desKeySchedule k' := by
  unfold desKeySchedule
  simp only [permute_desBits_of_skipsParity pc1C_skipsParity h, permute_desBits_of_skipsParity pc1D_skipsParity h]

/-- A `CHECK` step of the DES command ends with `KeyError` only where the parameter rejects the key (R231). -/
theorem keyReject_ne_nil_of_des_keyError (hp : s.phase = .check) (hx : exec .encDesEcbNone s = .next t)
    (ht : t.phase = .idle) (he : t.err = ErrorKind.code .keyError) : s.params.keyReject ≠ [] := by
  rw [exec_des_of_check hp] at hx
  cases hx
  rcases checkAndStartDesEcb_cases s with ⟨k, -, hk⟩ | ⟨-, -, -, -, hstart⟩
  · rw [hk, raise_err] at he
    exact keyReject_ne_nil (keyReject_of_checkAndStartDesEcb (ErrorKind.code_injective he ▸ hk))
  · rw [hstart] at ht
    cases ht

end Sys2Proof.Machine

namespace Sys2Proof.Safety

open Sys2Proof.Machine

/-- Settles O41: PA5 and PA6, evaluated. -/
theorem aesKnownAnswers : Obligations.AesKnownAnswers := by
  unfold Obligations.AesKnownAnswers
  decide +kernel

/-- Settles O42: each table undoes the other, entry by entry. -/
theorem finalPermutationInvertsInitial : Obligations.FinalPermutationInvertsInitial :=
  fun v => ⟨permute_of_undoes fpTable_undoes_ipTable v, permute_of_undoes ipTable_undoes_fpTable v⟩

/-- Settles O43: every stage of R183 is injective, and the blocks are finitely many. -/
theorem desBlockIsBijective : Obligations.DesBlockIsBijective :=
  fun ks => bijective_of_injective (desEncryptBlock_injective ks)

/-- Settles O44: the schedules are equal; and `KeyError` comes only through `key_reject`. -/
theorem desParityBitsIgnored : Obligations.DesParityBitsIgnored := by
  refine ⟨fun k k' h => ?schedule, fun s hp hr t hx ht he => keyReject_ne_nil_of_des_keyError hp hx ht he hr⟩
  case schedule =>
    have equal := desKeySchedule_of_sameButParity h
    exact ⟨equal, fun x => by rw [equal]⟩

/-- Settles O45: PD1, PD2 and PD4, evaluated. -/
theorem desKnownAnswers : Obligations.DesKnownAnswers := by
  unfold Obligations.DesKnownAnswers
  decide +kernel

end Sys2Proof.Safety
end

section
/-! SUPPORT. Host programs (30_encoding.md section 5): the words of a load and the bytes they pack, what a run of writes to a
window stores, and what the reads of `GETCT` return. -/

namespace Sys2Proof.Machine

open Sys2Proof.Safety Sys2Proof.Laws

variable {s : State} {p : Params} {bytes : List Byte}

theorem length_flatMap_wordBytes (ws : List Word) : (ws.flatMap wordBytes).length = 4 * ws.length := by
  simp [List.length_flatMap, Nat.mul_comm]

theorem length_packWords (bytes : List Byte) : (packWords bytes).length = wordCount bytes.length := by
  simp [packWords]

/-- Words packed from the bytes of a function unpack to these bytes in order (R66). -/
theorem flatMap_wordBytes_pack (f : Nat → Byte) (n : Nat) :
    ((List.range n).map fun j => packWord (f (4 * j)) (f (4 * j + 1)) (f (4 * j + 2)) (f (4 * j + 3))).flatMap wordBytes =
      (List.range (4 * n)).map f := by
  induction n with
  | zero => rfl
  | succ n ih =>
    rw [List.range_succ, List.map_append, List.flatMap_append, ih, Nat.mul_succ, List.range_add, List.map_append]
    simp [wordBytes_packWord, List.range_succ]

/-- The words of a load hold its bytes, then zero bytes (R100). -/
theorem flatMap_wordBytes_packWords (bytes : List Byte) :
    (packWords bytes).flatMap wordBytes = (List.range (4 * wordCount bytes.length)).map (bytes.getD · 0) :=
  flatMap_wordBytes_pack (bytes.getD · 0) _

theorem getD_flatMap_wordBytes_packWords {i : Nat} (hi : i < 4 * wordCount bytes.length) :
    ((packWords bytes).flatMap wordBytes).getD i 0 = bytes.getD i 0 := by
  rw [flatMap_wordBytes_packWords, List.getD_eq_getElem _ _ (by simpa using hi), List.getElem_map, List.getElem_range]

/-- The state after the words of a load from word `j` on are written, in order, to the window of `loc` (R64, R100). -/
def storeWords (loc : Nat → Location) : Nat → List Word → State → State
  | _, [], s => s
  | j, w :: ws, s => storeWords loc (j + 1) ws (writeLocation s w (loc (4 * j)))

/-- The same on an array of fixed size. -/
def storeWordsAt {n : Nat} : Nat → List Word → Bytes n → Bytes n
  | _, [], b => b
  | j, w :: ws, b => storeWordsAt (j + 1) ws (storeWord b (4 * j) w)

theorem storeWords_key (ws : List Word) : ∀ (j : Nat) (s : State),
    storeWords .key j ws s = { s with key := storeWordsAt j ws s.key } := by
  induction ws with
  | nil => exact fun _ _ => rfl
  | cons w ws ih => exact fun j s => ih (j + 1) _

theorem storeWords_iv (ws : List Word) : ∀ (j : Nat) (s : State),
    storeWords .iv j ws s = { s with iv := storeWordsAt j ws s.iv } := by
  induction ws with
  | nil => exact fun _ _ => rfl
  | cons w ws ih => exact fun j s => ih (j + 1) _

theorem storeWords_ibuf (ws : List Word) : ∀ (j : Nat) (s : State),
    storeWords .ibuf j ws s = { s with ibuf := s.ibuf.writeBytes (4 * j) (ws.flatMap wordBytes) } := by
  induction ws with
  | nil => exact fun _ _ => rfl
  | cons w ws ih =>
    intro j s
    rw [storeWords, ih, List.flatMap_cons, Memory.writeBytes_append, length_wordBytes]
    rfl

theorem getElem_storeWordsAt {n i : Nat} (hi : i < n) (ws : List Word) : ∀ (j : Nat) (b : Bytes n), (storeWordsAt j ws b)[i] =
    if 4 * j ≤ i ∧ i < 4 * j + 4 * ws.length then (ws.flatMap wordBytes).getD (i - 4 * j) 0 else b[i] := by
  induction ws with
  | nil => exact fun j b => (if_neg (by simp)).symm
  | cons w ws ih =>
    intro j b
    rw [storeWordsAt, ih, getElem_storeWord, List.flatMap_cons, List.length_cons]
    by_cases hin : 4 * j ≤ i ∧ i < 4 * j + 4
    · rw [if_neg (by omega), if_pos hin, if_pos (by omega), List.getD_append _ _ _ _ (by rw [length_wordBytes]; omega),
        List.getD_eq_getElem _ _ (by rw [length_wordBytes]; omega), getElem_wordBytes]
    · rw [if_neg hin]
      by_cases hlater : 4 * (j + 1) ≤ i ∧ i < 4 * (j + 1) + 4 * ws.length
      · rw [if_pos hlater, if_pos (by omega), List.getD_append_right _ _ _ _ (by rw [length_wordBytes]; omega),
          length_wordBytes, Nat.mul_succ, Nat.sub_add_eq]
      · rw [if_neg hlater, if_neg (by omega)]

/-- In `IDLE`, in every environment, a write that reaches a location other than `CMD` stores there (R64). -/
theorem step_hostWrite_withEnv {a : Addr} {l : Location} (ha : access s.params a = some l) (hp : s.phase = .idle)
    (hl : l ≠ .cmd) (v : Word) (rest : List Input) (r : Option Response) :
    step (s.withEnv (.hostWrite a v :: rest) r) = .next ((writeLocation s v l).withEnv rest (some .okay)) := by
  refine (step_hostWrite_of_idle (s := s.withEnv [] r) ha hp hl v rest).trans (congrArg _ ?_)
  cases l <;> rfl

/-- Word `j` of a window is at the location `4j` bytes into it (R99). -/
theorem access_at (hw : p.wf = true) {name : PortName} {loc : Nat → Location}
    (haddr : ∀ o, (loc o).address = name.addr.toNat + o) (h4 : name.addr.toNat % 4 = 0) {j : Nat}
    (hf : (loc (4 * j)).Fits p) : access p (name.at j) = some (loc (4 * j)) := by
  have at_address : name.at j = BitVec.ofNat 24 (loc (4 * j)).address := by
    rw [haddr, BitVec.ofNat_add, BitVec.ofNat_toNat, BitVec.setWidth_eq, PortName.at]
  rw [at_address]
  exact access_address hw hf (by rw [haddr]; omega)

/-- The words of `n` bytes begin before byte `n`. -/
theorem four_mul_lt_of_lt_wordCount {j n : Nat} (h : j < wordCount n) : 4 * j < n := by
  unfold wordCount at h
  omega

/-- In `IDLE`, writes to the words of a window and then to a register store one after the other (R100). -/
theorem runs_writes {window : PortName} {loc : Nat → Location} {a : Addr} {l : Location} (v : Word) (ws : List Word)
    (ha : access p a = some l) (hl : l ≠ .cmd) (hloc : ∀ o, loc o ≠ .cmd) : ∀ (j : Nat) (s : State) (r : Option Response),
    s.params = p → s.phase = .idle → (∀ k, k < j + ws.length → access p (window.at k) = some (loc (4 * k))) →
    runs (ws.length + 1) (s.withEnv
      ((ws.zipIdx j).map (fun wk => .hostWrite (window.at wk.2) wk.1) ++ [.hostWrite a v]) r) =
    .next ((writeLocation (storeWords loc j ws s) v l).withEnv [] (some .okay)) := by
  induction ws with
  | nil =>
    intro j s r hparams hp _
    exact (runs_succ_of_step (step_hostWrite_withEnv (hparams ▸ ha) hp hl v [] r) 0).trans rfl
  | cons w ws ih =>
    intro j s r hparams hp hwin
    have here : access s.params (window.at j) = some (loc (4 * j)) := hparams ▸ hwin j (by simp)
    refine (runs_succ_of_step (step_hostWrite_withEnv here hp (hloc _) w _ r) _).trans
      (ih (j + 1) (writeLocation s w (loc (4 * j))) (some .okay) (by simpa using hparams) (by simpa using hp)
        fun k hk => hwin k ?_)
    rw [List.length_cons]
    omega

theorem inputsOf_loadLines (window length : PortName) (bytes : List Byte) : inputsOf (loadLines window length bytes) =
    ((packWords bytes).zipIdx.map fun wk => .hostWrite (window.at wk.2) wk.1) ++
      [.hostWrite length.addr (BitVec.ofNat 32 bytes.length)] := by
  simp [inputsOf, loadLines, Line.input]

/-- In `IDLE` the accesses of a load store its words in its window and its length in its register (R100). -/
theorem runs_loadLines {window length : PortName} {loc : Nat → Location} {l : Location} (hw : s.params.wf = true)
    (hp : s.phase = .idle) (haddr : ∀ o, (loc o).address = window.addr.toNat + o) (h4 : window.addr.toNat % 4 = 0)
    (hfits : ∀ o, o < bytes.length → (loc o).Fits s.params) (hloc : ∀ o, loc o ≠ .cmd)
    (ha : access s.params length.addr = some l) (hl : l ≠ .cmd) :
    runs (loadLines window length bytes).length { s with inputs := inputsOf (loadLines window length bytes) } =
      .next { writeLocation (storeWords loc 0 (packWords bytes) s) (BitVec.ofNat 32 bytes.length) l with
        inputs := [], response := some .okay } := by
  rw [inputsOf_loadLines, show (loadLines window length bytes).length = (packWords bytes).length + 1 by simp [loadLines]]
  refine runs_writes _ _ ha hl hloc 0 s s.response rfl hp fun k hk => access_at hw haddr h4 (hfits _ ?_)
  rw [length_packWords] at hk
  exact four_mul_lt_of_lt_wordCount (by omega)

/-- A load replaces the bytes of its words, and leaves the others (R100). -/
theorem getElem_storeWordsAt_packWords {n i : Nat} (b : Bytes n) (hi : i < n) : (storeWordsAt 0 (packWords bytes) b)[i] =
    if i < 4 * wordCount bytes.length then bytes.getD i 0 else b[i] := by
  simp only [getElem_storeWordsAt hi, length_packWords, Nat.mul_zero, Nat.zero_le, Nat.zero_add, true_and, Nat.sub_zero]
  split_ifs with h
  · exact getD_flatMap_wordBytes_packWords h
  · rfl

theorem read_writeBytes_packWords {m : Memory} (hm : Memory.wf m) (a : Nat) :
    (m.writeBytes 0 ((packWords bytes).flatMap wordBytes)).read a =
      if a < 4 * wordCount bytes.length then bytes.getD a 0 else m.read a := by
  have length : ((packWords bytes).flatMap wordBytes).length = 4 * wordCount bytes.length := by
    rw [length_flatMap_wordBytes, length_packWords]
  split_ifs with h
  · rw [Memory.read_writeBytes_inside hm (Nat.zero_le a) (by omega), ← getD_flatMap_wordBytes_packWords h,
      List.getD_eq_getElem _ _ (by omega)]
    rfl
  · exact Memory.read_writeBytes_outside m (by omega)

/-- The words of `OBUF` unpack to its bytes (R66). -/
theorem unpackWords_readWord (m : Memory) (n : Nat) :
    unpackWords n ((List.range (wordCount n)).map fun j => m.readWord (4 * j)) = (List.range n).map m.read := by
  have covers : n ≤ 4 * wordCount n := by unfold wordCount; omega
  simp only [unpackWords, Memory.readWord, flatMap_wordBytes_pack m.read, ← List.map_take, List.take_range,
    Nat.min_eq_left covers]

end Sys2Proof.Machine

namespace Sys2Proof.Safety

open Sys2Proof.Machine Sys2Proof.Laws

/-- Settles O55: the words of the load, unpacked, are its bytes and then zero bytes. -/
theorem pseudoInstructionsLoadOperands : Obligations.PseudoInstructionsLoadOperands := by
  intro s bytes hw hp loaded n
  have low : (BitVec.ofNat 32 n).setWidth 8 = BitVec.ofNat 8 n := by simp
  refine ⟨fun hn => ⟨_, ?key, fun i hi => getElem_storeWordsAt_packWords s.key hi⟩,
    fun hn => ⟨_, ?iv, fun i hi => getElem_storeWordsAt_packWords s.iv hi⟩,
    fun hm hn => ⟨_, ?plaintext, Memory.writeBytes_wf hm 0 _, fun a => read_writeBytes_packWords hm a⟩⟩
  case key =>
    have stored := runs_loadLines (window := .key) (length := .klen) (loc := .key) (l := .klen) (bytes := bytes) hw hp
      (fun _ => rfl) rfl (fun _ ho => Nat.lt_of_lt_of_le ho hn) nofun rfl nofun
    rwa [storeWords_key, writeLocation, low] at stored
  case iv =>
    have stored := runs_loadLines (window := .iv) (length := .ivlen) (loc := .iv) (l := .ivlen) (bytes := bytes) hw hp
      (fun _ => rfl) rfl (fun _ ho => Nat.lt_of_lt_of_le ho hn) nofun rfl nofun
    rwa [storeWords_iv, writeLocation, low] at stored
  case plaintext =>
    have stored := runs_loadLines (window := .ibuf) (length := .plen) (loc := .ibuf) (l := .plen) (bytes := bytes) hw hp
      (fun _ => rfl) rfl (fun _ ho => Nat.lt_of_lt_of_le ho hn) nofun rfl nofun
    rwa [storeWords_ibuf, writeLocation] at stored

/-- Settles O56: word `j` of the window holds bytes `4j` to `4j + 3` of `OBUF`. -/
theorem getCtReadsTheCiphertext : Obligations.GetCtReadsTheCiphertext := by
  intro s n hw hp hn
  refine ⟨(List.range (wordCount n)).map fun j => s.obuf.readWord (4 * j), by simp, fun j hj => ?read,
    unpackWords_readWord s.obuf n, ?accesses⟩
  case read =>
    have inside : 4 * j < s.params.obufBytes := (four_mul_lt_of_lt_wordCount (by simpa using hj)).trans_le hn
    have reached : access s.params (PortName.obuf.at j) = some (.obuf (4 * j)) :=
      access_at (loc := .obuf) hw (fun _ => rfl) rfl inside
    rw [hostRead_of_idle reached hp, idleReadValue, List.getElem_map, List.getElem_range]
  case accesses =>
    simp only [Pseudo.expand, inputsOf, List.map_cons, List.map_map, Line.input, Function.comp_def]
    rfl

end Sys2Proof.Safety
end
